-- ==== Sys2Proof/Word.lean ====
section
/-! DEFINITION. The widths of the engine's data (00_scope.md §4) and the eight-lane shape of a batch. -/

namespace Sys2Proof

/-- One byte of the block SRAM (20_memory.md R39). -/
abbrev Byte := BitVec 8

/-- A 32-bit CSR value, command word or host data word (10_state.md R18). -/
abbrev Word := BitVec 32

/-- A 128-bit block, lane or round key (00_scope.md R3). -/
abbrev Block := BitVec 128

/-- Eight like things, one per lane (00_scope.md R2): the lane registers, the ADDR registers, the
effective addresses. -/
structure Lanes (α : Type) where
  v0 : α
  v1 : α
  v2 : α
  v3 : α
  v4 : α
  v5 : α
  v6 : α
  v7 : α
deriving DecidableEq, Repr

/-- The entry of lane `i`. -/
def Lanes.get {α : Type} (l : Lanes α) (i : Fin 8) : α :=
  match i.val with
  | 0 => l.v0
  | 1 => l.v1
  | 2 => l.v2
  | 3 => l.v3
  | 4 => l.v4
  | 5 => l.v5
  | 6 => l.v6
  | _ => l.v7

/-- Eight entries, entry `i` given by `f i`. -/
def Lanes.ofFn {α : Type} (f : Fin 8 → α) : Lanes α :=
  ⟨f 0, f 1, f 2, f 3, f 4, f 5, f 6, f 7⟩

/-- The same entry in every lane. -/
def Lanes.all {α : Type} (a : α) : Lanes α := ⟨a, a, a, a, a, a, a, a⟩

/-- Every lane's entry sent through `f`, in parallel (40_marshalling.md R71). -/
def Lanes.map {α β : Type} (f : α → β) (l : Lanes α) : Lanes β :=
  ⟨f l.v0, f l.v1, f l.v2, f l.v3, f l.v4, f l.v5, f l.v6, f l.v7⟩

/-- The lane indices in ascending order. -/
def laneIndices : List (Fin 8) := [0, 1, 2, 3, 4, 5, 6, 7]

end Sys2Proof
end

