-- ==== Sys2Proof/Config.lean ====
section
/-! DEFINITION. The OPEN parameters of the hardware (00_scope.md §3) and their unknown values. -/

namespace Sys2Proof

/-- The parameters a model takes as an argument (00_scope.md §3). A machine carries its own in its
state, where no step writes them. -/
structure Params where
  /-- `MEM_BYTES`, the size of the block SRAM (00_scope.md R5). -/
  memBytes : Nat
  /-- `CSR_BASE`, host address of the CSR window (10_state.md R18). -/
  csrBase : Nat
  /-- `SRAM_BASE`, host address of SRAM byte 0 (20_memory.md R40). -/
  sramBase : Nat
  /-- `LAT_MIN` in clock cycles (00_scope.md R6). -/
  latMin : Nat
  /-- `LAT_MAX` in clock cycles (00_scope.md R6). -/
  latMax : Nat
deriving DecidableEq, Repr

/-! Free values: no body, so no proof can know them (log 3). -/

opaque Config.freeMemBytes : Nat
opaque Config.freeCsrWindow : Nat
opaque Config.freeSramBase : Nat
opaque Config.freeLatMin : Nat
opaque Config.freeLatSpan : Nat

/-- The parameters of the machine that comes out of reset: any values the rules allow.
`memBytes` ranges over 16 .. 2^32 (00_scope.md R5; 4294967281 = 2^32 - 15), `csrBase` over the multiples of 256
(10_state.md R18), and 1 <= `latMin` <= `latMax` (00_scope.md R6). -/
def Config.params : Params where
  memBytes := Config.freeMemBytes % 4294967281 + 16
  csrBase := Config.freeCsrWindow * 256
  sramBase := Config.freeSramBase
  latMin := Config.freeLatMin + 1
  latMax := Config.freeLatSpan + (Config.freeLatMin + 1)

end Sys2Proof
end

