-- ==== Sys2Proof/Syntax.lean ====
section
/-! DEFINITION. The command set `BRE8-v1` (00_scope.md R4): one constructor per row of the opcode table. -/

namespace Sys2Proof

/-- The C bit of a LOAD8 or STORE8 word (30_encoding.md R61, R63). -/
inductive AddrMode where
  /-- C = 0: `EA[i] = ADDR[i]`. -/
  | independent
  /-- C = 1: `EA[i] = ADDR[0] + 16 * i`. -/
  | contiguous
deriving DecidableEq, Repr

/-- A command. Only LOAD8 and STORE8 carry the C bit; a command word carries no register numbers and
no immediates (30_encoding.md R62). -/
inductive Instr where
  | load8 (mode : AddrMode)
  | store8 (mode : AddrMode)
  | xor8
  | aesenc8
  | aesenclast8
  | aesdec8
  | aesdeclast8
deriving DecidableEq, Repr

/-- The operation of a command without its addressing mode: what the snapshot keeps of it
(10_state.md R35). -/
inductive Opcode where
  | load8
  | store8
  | xor8
  | aesenc8
  | aesenclast8
  | aesdec8
  | aesdeclast8
deriving DecidableEq, Repr

end Sys2Proof
end

