-- ==== Sys2Proof/WellFormed.lean ====
section
/-! DEFINITION. What is legal: a command word (30_encoding.md R65), a command, and a choice of
parameters (00_scope.md R5, R6). -/

namespace Sys2Proof

/-- A command word is legal (30_encoding.md R65): `w[3:0]` in 0x1 .. 0x7, `w[31:5] = 0`, and
`w[4] = 0` or `w[3:0]` in {0x1, 0x2}. -/
def legalWord (w : Word) : Bool :=
  let op := (w.extractLsb' 0 4).toNat
  (1 ≤ op && op ≤ 7) && w.extractLsb' 5 27 == 0#27 && (!w.getLsbD 4 || op == 1 || op == 2)

/-- Every term of `Instr` is a command: the C bit stands only where it is allowed, and there is no
other operand to check (30_encoding.md R62, R65). -/
def Instr.wellFormed : Instr → Bool
  | .load8 .independent => true
  | .load8 .contiguous => true
  | .store8 .independent => true
  | .store8 .contiguous => true
  | .xor8 => true
  | .aesenc8 => true
  | .aesenclast8 => true
  | .aesdec8 => true
  | .aesdeclast8 => true

/-- The parameters are in their ranges (00_scope.md R5, R6; 10_state.md R18). -/
def Params.wellFormed (p : Params) : Bool :=
  (16 ≤ p.memBytes && p.memBytes ≤ 2 ^ 32) && p.csrBase % 256 == 0 &&
    (1 ≤ p.latMin && p.latMin ≤ p.latMax)

end Sys2Proof
end

