-- ==== Sys2Proof/Decode.lean ====
section
/-! DEFINITION. Decoding and encoding of command words (30_encoding.md R61 to R66). Commands arrive as
whole 32-bit words on the CMD register, never as bytes of a memory (10_state.md R14), so decoding is a
total function of a word. -/

namespace Sys2Proof

/-- Why a word is no command. Every one of them is ILLEGAL_CMD (60_exceptions.md R105). -/
inductive DecodeError where
  /-- OP is 0x0 or 0x8 .. 0xF (30_encoding.md R64). -/
  | reservedOp
  /-- RSV, bits [31:5], is not 0 (30_encoding.md R61). -/
  | reservedBits
  /-- C = 1 on an operation other than LOAD8 or STORE8 (30_encoding.md R61). -/
  | modeNotAllowed
deriving DecidableEq, Repr

/-- The 4-bit code of an operation (30_encoding.md R64). -/
def Opcode.code : Opcode → BitVec 4
  | .load8 => 0x1#4
  | .store8 => 0x2#4
  | .xor8 => 0x3#4
  | .aesenc8 => 0x4#4
  | .aesenclast8 => 0x5#4
  | .aesdec8 => 0x6#4
  | .aesdeclast8 => 0x7#4

/-- The operation an OP field names (30_encoding.md R64). -/
def Opcode.ofCode (op : BitVec 4) : Option Opcode :=
  match op.toNat with
  | 1 => some .load8
  | 2 => some .store8
  | 3 => some .xor8
  | 4 => some .aesenc8
  | 5 => some .aesenclast8
  | 6 => some .aesdec8
  | 7 => some .aesdeclast8
  | _ => none

/-- The addressing mode a C bit names (30_encoding.md R63). -/
def AddrMode.ofBit (c : Bool) : AddrMode := if c then .contiguous else .independent

/-- The C bit of an addressing mode (30_encoding.md R63). -/
def AddrMode.bit : AddrMode → Bool
  | .independent => false
  | .contiguous => true

/-- A command without the C bit: refused if the bit is set (30_encoding.md R61). -/
def Instr.ofPlain (i : Instr) (c : Bool) : Except DecodeError Instr :=
  if c then .error .modeNotAllowed else .ok i

/-- The command of an operation and a C bit (30_encoding.md R64, column "C allowed"). -/
def Instr.ofFields (op : Opcode) (c : Bool) : Except DecodeError Instr :=
  match op with
  | .load8 => .ok (.load8 (AddrMode.ofBit c))
  | .store8 => .ok (.store8 (AddrMode.ofBit c))
  | .xor8 => Instr.ofPlain .xor8 c
  | .aesenc8 => Instr.ofPlain .aesenc8 c
  | .aesenclast8 => Instr.ofPlain .aesenclast8 c
  | .aesdec8 => Instr.ofPlain .aesdec8 c
  | .aesdeclast8 => Instr.ofPlain .aesdeclast8 c

/-- The command a 32-bit word stands for, or why it stands for none (30_encoding.md R61, R65). -/
def decodeCmd (w : Word) : Except DecodeError Instr :=
  match Opcode.ofCode (w.extractLsb' 0 4) with
  | none => .error .reservedOp
  | some op =>
    if w.extractLsb' 5 27 = 0#27 then Instr.ofFields op (w.getLsbD 4) else .error .reservedBits

/-- The operation of a command. -/
def Instr.opcode : Instr → Opcode
  | .load8 _ => .load8
  | .store8 _ => .store8
  | .xor8 => .xor8
  | .aesenc8 => .aesenc8
  | .aesenclast8 => .aesenclast8
  | .aesdec8 => .aesdec8
  | .aesdeclast8 => .aesdeclast8

/-- The C bit of a command's word (30_encoding.md R61). -/
def Instr.modeBit : Instr → Bool
  | .load8 m => m.bit
  | .store8 m => m.bit
  | .xor8 => false
  | .aesenc8 => false
  | .aesenclast8 => false
  | .aesdec8 => false
  | .aesdeclast8 => false

/-- A command as the snapshot's operation names it. The addressing mode is spent at acceptance, where
it has turned into effective addresses (30_encoding.md R63), so either mode stands for it here
(log 8). -/
def Opcode.instr : Opcode → Instr
  | .load8 => .load8 .independent
  | .store8 => .store8 .independent
  | .xor8 => .xor8
  | .aesenc8 => .aesenc8
  | .aesenclast8 => .aesenclast8
  | .aesdec8 => .aesdec8
  | .aesdeclast8 => .aesdeclast8

/-- The word of a command: `RSV || C || OP` (30_encoding.md R61). -/
def encode (i : Instr) : Word :=
  ((0#27 ++ BitVec.ofBool i.modeBit) ++ i.opcode.code : BitVec (27 + 1 + 4))

/-- The command the decoder reads from a table word: the low `nbits` bits of `w`, every bit above them
0, as one command word. -/
def decodeTableWord (nbits w : Nat) : Option Instr :=
  match decodeCmd (BitVec.ofNat 32 (w % 2 ^ nbits)) with
  | .ok i => some i
  | .error _ => none

end Sys2Proof
end

