-- ==== Sys2Proof/Machine/State.lean ====
section
/-! DEFINITION. The machine's state as plain data: the tuple of 10_state.md R38, the busy window the
rules of 20_memory.md imply, the hardware's parameters, and the inputs still to come. -/

namespace Sys2Proof.Machine

/-- The error codes of STATUS.ERRCODE (60_exceptions.md R100). Codes 6 to 15 are never produced
(10_state.md R24), so they have no name. -/
inductive ErrCode where
  | none
  | illegalCmd
  | cmdBusy
  | lanesInvalid
  | memRange
  | storeOverlap
deriving DecidableEq, Repr

/-- Why the machine stops. No behaviour of this hardware stops it (60_exceptions.md R108,
93_implementation_defined.md "stuck"); the one fault stands for states that no run reaches. -/
inductive Fault where
  /-- Raised by the engine when the command in flight is a LOAD8 or STORE8 and its snapshot holds no
  effective addresses, or one with `EA[i] + 16 > MEM_BYTES`: MemRead and MemWrite are not defined there
  (20_memory.md R42, R43). Safe: the check at acceptance keeps every run out of it (log 10). -/
  | transferUndefined
deriving DecidableEq, Repr

/-- Why a command has no meaning in this model. -/
inductive Refusal where
  /-- Raised for a command the model gives no meaning to. No arm answers it. Safe. -/
  | notModelled (mnemonic : String)
deriving DecidableEq, Repr

/-- The two agents (10_state.md R8). A clock cycle is the engine's turn and then the host's
(60_exceptions.md R110; log 1). -/
inductive Agent where
  | engine
  | host
deriving DecidableEq, Repr

/-- A transaction on one of the engine's two host ports (10_state.md R9). -/
inductive PortAccess where
  | csrRead (off : BitVec 8) (size : Nat)
  | csrWrite (off : BitVec 8) (size : Nat) (data : Word)
  | memRead (addr : Nat) (size : Nat)
  | memWrite (addr : Nat) (size : Nat) (data : Word)
deriving DecidableEq, Repr

/-- A host access: on a port, or by host address through the two windows (20_memory.md R40). -/
inductive HostAccess where
  | port (a : PortAccess)
  | busRead (hostAddr : Nat) (size : Nat)
  | busWrite (hostAddr : Nat) (size : Nat) (data : Word)
deriving DecidableEq, Repr

/-- What reaches the engine in one clock cycle, and what the rules leave open in it. `finish`,
`movesBefore` and `movesAfter` are free values: the rules bound them and choose none (log 2, log 11). -/
structure Cycle where
  /-- The `rst` input (70_reset_and_hazards.md R118). -/
  rst : Bool
  /-- The host's access; at most one a cycle (60_exceptions.md R110). -/
  access : Option HostAccess
  /-- The command in flight completes in this cycle, if LAT_MIN allows it (10_state.md R37). -/
  finish : Bool
  /-- Bytes of the block transfer in flight (0 .. 127) that the engine moves in this cycle before the
  host's access (20_memory.md R53, R54). -/
  movesBefore : List Nat
  /-- The same, after the host's access. -/
  movesAfter : List Nat
deriving DecidableEq, Repr

/-- The answer of a host port: data (0 for a write) and the bus error flag (10_state.md R9, R33). -/
structure Response where
  data : Word
  err : Bool
deriving DecidableEq, Repr

/-- The operand copy taken at acceptance (10_state.md R35). `ea` is there for LOAD8 and STORE8
(log 17). -/
structure Snapshot where
  op : Opcode
  key : Block
  ea : Option (Lanes Nat)
deriving DecidableEq, Repr

/-- How far the busy window of the command in flight has come (20_memory.md R51). -/
structure Window where
  /-- Clock cycles since the cycle of acceptance (00_scope.md R6; log 14). -/
  age : Nat
  /-- The bytes already moved: index `16 * lane + j`, rising, with the byte read from or written to
  SRAM (20_memory.md R53, R54). -/
  moved : List Host.Cell
deriving DecidableEq, Repr

/-- KEY0 to KEY3 (10_state.md R15). -/
structure KeyRegs where
  k0 : Word
  k1 : Word
  k2 : Word
  k3 : Word
deriving DecidableEq, Repr

/-- A block SRAM: the bytes that differ from what an unlisted address reads as, by rising address. -/
abbrev Memory := List Host.Cell

/-- The state (10_state.md R38, with what 20_memory.md and 00_scope.md add to it). -/
structure State where
  /-- The hardware's parameters; no step writes them. -/
  params : Params
  /-- V[0..7] (10_state.md R10). -/
  lanes : Lanes Block
  /-- STATUS.LV (10_state.md R26). -/
  lv : Bool
  /-- KEY0 .. KEY3 (10_state.md R15, R16). -/
  key : KeyRegs
  /-- ADDR0 .. ADDR7 (10_state.md R17). -/
  addr : Lanes Word
  /-- CTRL.DONE_IE (10_state.md R20). -/
  doneIE : Bool
  /-- CTRL.ERR_IE (10_state.md R20). -/
  errIE : Bool
  /-- STATUS.BUSY (10_state.md R21; log 16). -/
  busy : Bool
  /-- STATUS.DONE (10_state.md R22). -/
  done : Bool
  /-- STATUS.ERR (10_state.md R23). -/
  err : Bool
  /-- STATUS.ERRCODE (10_state.md R24). -/
  errCode : ErrCode
  /-- STATUS.ERRLANE (10_state.md R25). -/
  errLane : BitVec 3
  /-- ERRADDR (10_state.md R31). -/
  errAddr : Word
  /-- The operands of the command in flight (10_state.md R35). -/
  snapshot : Option Snapshot
  /-- The busy window of the command in flight (20_memory.md R51). -/
  window : Window
  /-- A completion has happened in this clock cycle (10_state.md R22; log 6). -/
  doneNow : Bool
  /-- The block SRAM (20_memory.md R39). -/
  sram : Memory
  /-- Whose turn is next (log 1). -/
  turn : Agent
  /-- The clock cycles to come, oldest first (log 2). -/
  inputs : List Cycle
  /-- The answer the host ports gave in the last cycle (log 13). -/
  resp : Option Response
deriving DecidableEq, Repr

/-- No command in flight. -/
def Window.empty : Window := ⟨0, []⟩

/-- A machine with parameters `p` right after reset at power-up (70_reset_and_hazards.md R119). The
lanes (log 4) and the SRAM (log 5) are unspecified there; `turn`, `inputs` and `resp` are the model's
own (log 1, log 2, log 13). -/
def State.resetWith (p : Params) : State where
  params := p
  lanes := Lanes.all 0#128
  lv := false
  key := ⟨0#32, 0#32, 0#32, 0#32⟩
  addr := Lanes.all 0#32
  doneIE := false
  errIE := false
  busy := false
  done := false
  err := false
  errCode := .none
  errLane := 0#3
  errAddr := 0#32
  snapshot := none
  window := Window.empty
  doneNow := false
  sram := []
  turn := .engine
  inputs := []
  resp := none

/-- The machine right after reset, its parameters unknown (log 3). -/
def State.reset : State := State.resetWith Config.params

end Sys2Proof.Machine
end

