-- ==== Sys2Proof/Machine/Operands.lean ====
section
/-! DEFINITION. The operands of a command: bytes of a block (00_scope.md §4, 20_memory.md R44), the
round key (10_state.md R15), the effective addresses (30_encoding.md R63) and the checks on them
(60_exceptions.md R102). -/

namespace Sys2Proof

/-- Byte `j` of a block, bits `[8j+7:8j]` (00_scope.md §4). -/
def Block.byte (v : Block) (j : Nat) : Byte := v.extractLsb' (8 * j) 8

/-- The block whose bytes `0 .. n-1` are those of `f`, every other byte 0. -/
def Block.firstBytes (f : Nat → Byte) (n : Nat) : Block :=
  match n with
  | 0 => 0#128
  | k + 1 => Block.firstBytes f k ||| (f k).setWidth 128 <<< (8 * k)

/-- The block whose byte `j` is `f j`, byte 0 least significant (20_memory.md R44). -/
def Block.ofBytes (f : Nat → Byte) : Block := Block.firstBytes f 16

/-- A block written as its byte string, byte 0 first (00_scope.md §4: `b:0011..ff` is `Block.b 0x0011..ff`). -/
def Block.b (digits : BitVec 128) : Block := Block.ofBytes fun j => Block.byte digits (15 - j)

/-- Entry `i` replaced. -/
def Lanes.set {α : Type} (l : Lanes α) (i : Fin 8) (a : α) : Lanes α :=
  Lanes.ofFn fun j => if j = i then a else l.get j

namespace Machine

/-- `KEY = KEY3 || KEY2 || KEY1 || KEY0` (10_state.md R15). -/
def KeyRegs.block (k : KeyRegs) : Block := (k.k3 ++ k.k2 ++ k.k1 ++ k.k0 : BitVec (32 + 32 + 32 + 32))

/-- KEYw, `w` = 0 .. 3. -/
def KeyRegs.word (k : KeyRegs) (w : Nat) : Word :=
  match w with
  | 0 => k.k0
  | 1 => k.k1
  | 2 => k.k2
  | _ => k.k3

/-- KEYw written, `w` = 0 .. 3. -/
def KeyRegs.setWord (k : KeyRegs) (w : Nat) (d : Word) : KeyRegs :=
  match w with
  | 0 => { k with k0 := d }
  | 1 => { k with k1 := d }
  | 2 => { k with k2 := d }
  | _ => { k with k3 := d }

/-- The effective addresses of a LOAD8 or STORE8, on unbounded naturals (30_encoding.md R63). -/
def effectiveAddrs (mode : AddrMode) (s : State) : Lanes Nat :=
  match mode with
  | .independent => s.addr.map BitVec.toNat
  | .contiguous => Lanes.ofFn fun i => (s.addr.get 0).toNat + 16 * i.val

/-- A block at `a` does not lie wholly inside the SRAM (60_exceptions.md R100, MEM_RANGE). -/
def blockOutside (memBytes a : Nat) : Bool := memBytes < a + 16

/-- The lowest lane whose block does not lie inside the SRAM (60_exceptions.md R102). -/
def firstOutside (memBytes : Nat) (ea : Lanes Nat) : Option (Fin 8) :=
  laneIndices.find? fun i => blockOutside memBytes (ea.get i)

/-- Two blocks share a byte: `|a - b| < 16` (40_marshalling.md R77). -/
def blocksOverlap (a b : Nat) : Bool := a < b + 16 && b < a + 16

/-- The smallest lane `j` whose block overlaps the block of a lane `i < j` (60_exceptions.md R102). -/
def firstOverlap (ea : Lanes Nat) : Option (Fin 8) :=
  laneIndices.find? fun j => laneIndices.any fun i => i.val < j.val && blocksOverlap (ea.get i) (ea.get j)

/-- The overlap check of STORE8 is made with C = 0 only (40_marshalling.md R77, 60_exceptions.md R102). -/
def overlapOf (mode : AddrMode) (ea : Lanes Nat) : Option (Fin 8) :=
  match mode with
  | .independent => firstOverlap ea
  | .contiguous => none

end Machine
end Sys2Proof
end

