-- ==== Sys2Proof/Machine/Flags.lean ====
section
/-! DEFINITION. The status bits: the read values of STATUS (10_state.md R28) and CTRL (R20), the
write-1-to-clear of STATUS (R27) and the interrupt output (60_exceptions.md R109). No command has an
arithmetic flag (10_state.md R34). -/

namespace Sys2Proof.Machine

/-- The 4-bit code of an error (60_exceptions.md R100). -/
def ErrCode.code : ErrCode → BitVec 4
  | .none => 0#4
  | .illegalCmd => 1#4
  | .cmdBusy => 2#4
  | .lanesInvalid => 3#4
  | .memRange => 4#4
  | .storeOverlap => 5#4

/-- A bit as a 32-bit value. -/
def bitWord (b : Bool) : Word := (BitVec.ofBool b).setWidth 32

/-- The value a read of STATUS returns (10_state.md R28). -/
def State.statusWord (s : State) : Word :=
  s.errLane.setWidth 32 <<< 12 ||| s.errCode.code.setWidth 32 <<< 8 ||| bitWord s.lv <<< 3 |||
    bitWord s.err <<< 2 ||| bitWord s.done <<< 1 ||| bitWord s.busy

/-- The value a read of CTRL returns (10_state.md R20). -/
def State.ctrlWord (s : State) : Word := bitWord s.errIE <<< 1 ||| bitWord s.doneIE

/-- A write of CTRL: bits [1:0] are kept, the others ignored (10_state.md R20). -/
def writeCtrl (w : Word) (s : State) : State := { s with doneIE := w.getLsbD 0, errIE := w.getLsbD 1 }

/-- The interrupt output, a level (60_exceptions.md R109). A write of CTRL or STATUS shows in it from
the next cycle, whose registers the state after the step holds (10_state.md R20; log 20). -/
def State.irq (s : State) : Bool := (s.done && s.doneIE) || (s.err && s.errIE)

/-- The way back from an error: ERR and the three error fields cleared (10_state.md R27,
60_exceptions.md R111). -/
def clearError (s : State) : State :=
  { s with err := false, errCode := .none, errLane := 0#3, errAddr := 0#32 }

/-- DONE cleared, unless a completion has set it in this very cycle (10_state.md R22; log 6). -/
def clearDone (s : State) : State := if s.doneNow then s else { s with done := false }

/-- A host write of STATUS: bit 1 clears DONE, bit 2 clears ERR with its fields, every other bit is
ignored (10_state.md R27). -/
def writeStatus (w : Word) (s : State) : State :=
  let t := if w.getLsbD 1 then clearDone s else s
  if w.getLsbD 2 then clearError t else t

end Sys2Proof.Machine
end

