-- ==== Sys2Proof/Machine/Csr.lean ====
section
/-! DEFINITION. The CSR window (10_state.md §7): which register an offset names, and its reads and
writes. -/

namespace Sys2Proof.Machine

/-- The registers of the CSR map (10_state.md R18). -/
inductive CsrName where
  | id
  | ctrl
  | status
  | cmd
  | key (w : Fin 4)
  | addr (i : Fin 8)
  | errAddr
deriving DecidableEq, Repr

/-- The offset of a register (10_state.md R18). -/
def CsrName.offset : CsrName → BitVec 8
  | .id => 0x00#8
  | .ctrl => 0x04#8
  | .status => 0x08#8
  | .cmd => 0x0C#8
  | .key w => BitVec.ofNat 8 (0x10 + 4 * w.val)
  | .addr i => BitVec.ofNat 8 (0x20 + 4 * i.val)
  | .errAddr => 0x40#8

/-- The register at an offset; none where the offset is reserved (10_state.md R18, R32) or no multiple
of 4. -/
def CsrName.ofOffset (off : BitVec 8) : Option CsrName :=
  let n := off.toNat
  if n % 4 ≠ 0 then none
  else match n / 4 with
  | 0 => some .id
  | 1 => some .ctrl
  | 2 => some .status
  | 3 => some .cmd
  | k + 4 =>
    if k < 4 then some (.key (Fin.ofNat 4 k))
    else if k < 12 then some (.addr (Fin.ofNat 8 (k - 4)))
    else if k = 12 then some .errAddr
    else none

/-- A CSR access is answered normally: 4 bytes at a multiple of 4 (10_state.md R33). -/
def csrAccessOk (off : BitVec 8) (size : Nat) : Bool := size == 4 && off.toNat % 4 == 0

/-- The identification constant, "AES8" (10_state.md R19). -/
def idValue : Word := 0x41455338#32

/-- The value a register reads as (10_state.md R15 to R31). -/
def readReg (r : CsrName) (s : State) : Word :=
  match r with
  | .id => idValue
  | .ctrl => s.ctrlWord
  | .status => s.statusWord
  | .cmd => 0#32
  | .key w => s.key.word w.val
  | .addr i => s.addr.get i
  | .errAddr => s.errAddr

/-- A write of a register other than CMD (10_state.md R15 to R31); a write of CMD issues a command and
is no business of this operation (R30). -/
def writeReg (r : CsrName) (w : Word) (s : State) : State :=
  match r with
  | .id => s
  | .ctrl => writeCtrl w s
  | .status => writeStatus w s
  | .cmd => s
  | .key i => { s with key := s.key.setWord i.val w }
  | .addr i => { s with addr := s.addr.set i w }
  | .errAddr => s

/-- A read of the CSR window at a legal offset: 0 where it is reserved (10_state.md R32). -/
def readCsr (off : BitVec 8) (s : State) : Word :=
  match CsrName.ofOffset off with
  | some r => readReg r s
  | none => 0#32

/-- A write to the CSR window at a legal offset: nothing where it is reserved (10_state.md R32). -/
def writeCsr (off : BitVec 8) (w : Word) (s : State) : State :=
  match CsrName.ofOffset off with
  | some r => writeReg r w s
  | none => s

end Sys2Proof.Machine
end

