-- ==== Sys2Proof/Machine/Aes.lean ====
section
/-! DEFINITION. The AES transformations of one lane (42_aes_rounds.md §1), and the round functions the
commands apply (R92 to R95). -/

namespace Sys2Proof

/-! The field GF(2^8) (42_aes_rounds.md R83) -/

/-- `xtime(a) = ((a << 1) ^ (a[7] ? 0x11B : 0))[7:0]` (42_aes_rounds.md R83). -/
def xtime (a : Byte) : Byte :=
  ((a.setWidth 9 <<< 1) ^^^ (if a.getLsbD 7 then 0x11B#9 else 0#9)).setWidth 8

/-- `xtime` applied `k` times. -/
def xtimes (k : Nat) (a : Byte) : Byte :=
  match k with
  | 0 => a
  | k + 1 => xtime (xtimes k a)

/-- The XOR of `xtime^k(a)` over the `k < n` with `b[k] = 1`. -/
def gmulBits (a b : Byte) (n : Nat) : Byte :=
  match n with
  | 0 => 0#8
  | k + 1 => gmulBits a b k ^^^ (if b.getLsbD k then xtimes k a else 0#8)

/-- The field product (42_aes_rounds.md R83). -/
def gmul (a b : Byte) : Byte := gmulBits a b 8

/-- The affine map of SubBytes (42_aes_rounds.md R84). -/
def sboxAffine (b : Byte) : Byte :=
  b ^^^ b.rotateLeft 1 ^^^ b.rotateLeft 2 ^^^ b.rotateLeft 3 ^^^ b.rotateLeft 4 ^^^ 0x63#8

/-! SubBytes and InvSubBytes (42_aes_rounds.md R84, R85) -/

/-- The table SBOX (42_aes_rounds.md R84), one row per high nibble, column 0 leftmost. -/
def sboxRow (hi : Nat) : BitVec 128 :=
  match hi with
  | 0 => 0x637c777bf26b6fc53001672bfed7ab76#128
  | 1 => 0xca82c97dfa5947f0add4a2af9ca472c0#128
  | 2 => 0xb7fd9326363ff7cc34a5e5f171d83115#128
  | 3 => 0x04c723c31896059a071280e2eb27b275#128
  | 4 => 0x09832c1a1b6e5aa0523bd6b329e32f84#128
  | 5 => 0x53d100ed20fcb15b6acbbe394a4c58cf#128
  | 6 => 0xd0efaafb434d338545f9027f503c9fa8#128
  | 7 => 0x51a3408f929d38f5bcb6da2110fff3d2#128
  | 8 => 0xcd0c13ec5f974417c4a77e3d645d1973#128
  | 9 => 0x60814fdc222a908846eeb814de5e0bdb#128
  | 10 => 0xe0323a0a4906245cc2d3ac629195e479#128
  | 11 => 0xe7c8376d8dd54ea96c56f4ea657aae08#128
  | 12 => 0xba78252e1ca6b4c6e8dd741f4bbd8b8a#128
  | 13 => 0x703eb5664803f60e613557b986c11d9e#128
  | 14 => 0xe1f8981169d98e949b1e87e9ce5528df#128
  | _ => 0x8ca1890dbfe6426841992d0fb054bb16#128

/-- The table INV_SBOX (42_aes_rounds.md R85), one row per high nibble, column 0 leftmost. -/
def invSboxRow (hi : Nat) : BitVec 128 :=
  match hi with
  | 0 => 0x52096ad53036a538bf40a39e81f3d7fb#128
  | 1 => 0x7ce339829b2fff87348e4344c4dee9cb#128
  | 2 => 0x547b9432a6c2233dee4c950b42fac34e#128
  | 3 => 0x082ea16628d924b2765ba2496d8bd125#128
  | 4 => 0x72f8f66486689816d4a45ccc5d65b692#128
  | 5 => 0x6c704850fdedb9da5e154657a78d9d84#128
  | 6 => 0x90d8ab008cbcd30af7e45805b8b34506#128
  | 7 => 0xd02c1e8fca3f0f02c1afbd0301138a6b#128
  | 8 => 0x3a9111414f67dcea97f2cfcef0b4e673#128
  | 9 => 0x96ac7422e7ad3585e2f937e81c75df6e#128
  | 10 => 0x47f11a711d29c5896fb7620eaa18be1b#128
  | 11 => 0xfc563e4bc6d279209adbc0fe78cd5af4#128
  | 12 => 0x1fdda8338807c731b11210592780ec5f#128
  | 13 => 0x60517fa919b54a0d2de57a9f93c99cef#128
  | 14 => 0xa0e03b4dae2af5b0c8ebbb3c83539961#128
  | _ => 0x172b047eba77d626e169146355210c7d#128

/-- Column `lo` of a table row, column 0 leftmost. -/
def sboxColumn (row : BitVec 128) (lo : Nat) : Byte := Block.byte row (15 - lo)

/-- `SBOX[a]` (42_aes_rounds.md R84). -/
def sbox (a : Byte) : Byte := sboxColumn (sboxRow (a.toNat / 16)) (a.toNat % 16)

/-- `INV_SBOX[a]` (42_aes_rounds.md R85). -/
def invSbox (a : Byte) : Byte := sboxColumn (invSboxRow (a.toNat / 16)) (a.toNat % 16)

/-- SubBytes (42_aes_rounds.md R84). -/
def subBytes (v : Block) : Block := Block.ofBytes fun j => sbox (Block.byte v j)

/-- InvSubBytes (42_aes_rounds.md R85). -/
def invSubBytes (v : Block) : Block := Block.ofBytes fun j => invSbox (Block.byte v j)

/-! The state matrix, ShiftRows and InvShiftRows (42_aes_rounds.md R82, R86, R87) -/

/-- `s(r, c) = V.byte[r + 4c]` (42_aes_rounds.md R82). -/
def aesEntry (v : Block) (r c : Nat) : Byte := Block.byte v (r + 4 * c)

/-- The lane whose state has entry `f r c` in row `r`, column `c` (42_aes_rounds.md R82). -/
def ofAesEntries (f : Nat → Nat → Byte) : Block := Block.ofBytes fun j => f (j % 4) (j / 4)

/-- ShiftRows: `s'(r, c) = s(r, (c + r) mod 4)` (42_aes_rounds.md R86). -/
def shiftRows (v : Block) : Block := ofAesEntries fun r c => aesEntry v r ((c + r) % 4)

/-- InvShiftRows: `s'(r, c) = s(r, (c - r) mod 4)` (42_aes_rounds.md R87). -/
def invShiftRows (v : Block) : Block := ofAesEntries fun r c => aesEntry v r ((c + 4 - r) % 4)

/-! MixColumns and InvMixColumns (42_aes_rounds.md R88, R89) -/

/-- Row `r` of MixColumns on a column `a0 a1 a2 a3` (42_aes_rounds.md R88). -/
def mixColumnRow (a0 a1 a2 a3 : Byte) (r : Nat) : Byte :=
  match r with
  | 0 => gmul a0 2#8 ^^^ gmul a1 3#8 ^^^ a2 ^^^ a3
  | 1 => a0 ^^^ gmul a1 2#8 ^^^ gmul a2 3#8 ^^^ a3
  | 2 => a0 ^^^ a1 ^^^ gmul a2 2#8 ^^^ gmul a3 3#8
  | _ => gmul a0 3#8 ^^^ a1 ^^^ a2 ^^^ gmul a3 2#8

/-- Row `r` of InvMixColumns on a column `a0 a1 a2 a3` (42_aes_rounds.md R89). -/
def invMixColumnRow (a0 a1 a2 a3 : Byte) (r : Nat) : Byte :=
  match r with
  | 0 => gmul a0 0x0e#8 ^^^ gmul a1 0x0b#8 ^^^ gmul a2 0x0d#8 ^^^ gmul a3 0x09#8
  | 1 => gmul a0 0x09#8 ^^^ gmul a1 0x0e#8 ^^^ gmul a2 0x0b#8 ^^^ gmul a3 0x0d#8
  | 2 => gmul a0 0x0d#8 ^^^ gmul a1 0x09#8 ^^^ gmul a2 0x0e#8 ^^^ gmul a3 0x0b#8
  | _ => gmul a0 0x0b#8 ^^^ gmul a1 0x0d#8 ^^^ gmul a2 0x09#8 ^^^ gmul a3 0x0e#8

/-- MixColumns (42_aes_rounds.md R88). -/
def mixColumns (v : Block) : Block :=
  ofAesEntries fun r c => mixColumnRow (aesEntry v 0 c) (aesEntry v 1 c) (aesEntry v 2 c) (aesEntry v 3 c) r

/-- InvMixColumns (42_aes_rounds.md R89). -/
def invMixColumns (v : Block) : Block :=
  ofAesEntries fun r c => invMixColumnRow (aesEntry v 0 c) (aesEntry v 1 c) (aesEntry v 2 c) (aesEntry v 3 c) r

/-! The functions of the commands on one lane -/

/-- AddRoundKey (42_aes_rounds.md R90), the lane function of XOR8 (41_xor.md R80). -/
def addRoundKey (v k : Block) : Block := v ^^^ k

/-- The lane function of AESENC8 (42_aes_rounds.md R92). -/
def aesenc (v k : Block) : Block := addRoundKey (mixColumns (subBytes (shiftRows v))) k

/-- The lane function of AESENCLAST8 (42_aes_rounds.md R93). -/
def aesenclast (v k : Block) : Block := addRoundKey (subBytes (shiftRows v)) k

/-- The lane function of AESDEC8 (42_aes_rounds.md R94). -/
def aesdec (v k : Block) : Block := addRoundKey (invMixColumns (invSubBytes (invShiftRows v))) k

/-- The lane function of AESDECLAST8 (42_aes_rounds.md R95). -/
def aesdeclast (v k : Block) : Block := addRoundKey (invSubBytes (invShiftRows v)) k

end Sys2Proof
end

