-- ==== Sys2Proof/Machine/Ops.lean ====
section
/-! DEFINITION. The operations every command shares: the block SRAM (20_memory.md), the rejection of a
command (60_exceptions.md R101), its acceptance (R107), the busy window (20_memory.md R51 to R54) and its
completion (10_state.md R37), and reset (70_reset_and_hazards.md R118 to R121). -/

namespace Sys2Proof.Machine

/-! The block SRAM -/

/-- What a byte that nothing has written reads as: the SRAM's power-up content is unspecified
(20_memory.md R41), and this model's is 0 (log 5). -/
def Memory.unlisted : Byte := 0#8

/-- The entry of key `a`, if there is one. -/
def cellAt (m : List Host.Cell) (a : Nat) : Option Byte :=
  match m with
  | [] => none
  | (b, v) :: rest => if b = a then some v else cellAt rest a

/-- `m` with the entry of key `a` set to `v`, in rising order. -/
def setCell (m : List Host.Cell) (a : Nat) (v : Byte) : List Host.Cell :=
  match m with
  | [] => [(a, v)]
  | (b, w) :: rest =>
    if a < b then (a, v) :: (b, w) :: rest
    else if b = a then (a, v) :: rest
    else (b, w) :: setCell rest a v

/-- `m` without the entry of key `a`. -/
def dropCell (m : List Host.Cell) (a : Nat) : List Host.Cell :=
  match m with
  | [] => []
  | (b, w) :: rest => if b = a then dropCell rest a else (b, w) :: dropCell rest a

/-- The byte at SRAM address `a` (20_memory.md R39). -/
def Memory.read (m : Memory) (a : Nat) : Byte := (cellAt m a).getD Memory.unlisted

/-- The byte at SRAM address `a` written, the canonical form kept. -/
def Memory.write (m : Memory) (a : Nat) (v : Byte) : Memory :=
  if v = Memory.unlisted then dropCell m a else setCell m a v

/-- Keys strictly rise. -/
def risingCells (m : List Host.Cell) : Bool :=
  match m with
  | [] => true
  | (a, _) :: rest => (rest.all fun c => a < c.1) && risingCells rest

/-- The canonical form of a memory: addresses strictly rising, no entry equal to what an unlisted
address reads as. -/
def Memory.wf (m : Memory) : Bool := risingCells m && m.all fun c => c.2 != Memory.unlisted

/-- `MemRead(a, 16)`: the block whose byte `j` is SRAM byte `a + j` (20_memory.md R42, R44). -/
def Memory.readBlock (m : Memory) (a : Nat) : Block := Block.ofBytes fun j => m.read (a + j)

/-- The `n` bytes at `a`, the byte at `a` least significant: the little-endian host port
(20_memory.md R45). -/
def Memory.readLE (m : Memory) (a n : Nat) : Nat :=
  match n with
  | 0 => 0
  | k + 1 => (m.read a).toNat + 256 * Memory.readLE m (a + 1) k

/-- The low `n` bytes of `d` written at `a`, the least significant at `a` (20_memory.md R45). -/
def Memory.writeLE (m : Memory) (a n d : Nat) : Memory :=
  match n with
  | 0 => m
  | k + 1 => Memory.writeLE (m.write a (BitVec.ofNat 8 d)) (a + 1) k (d / 256)

/-! Sequencing -/

/-- Go on from a next state; a fault or a refusal stays. -/
def andThen (o : Host.Outcome State Fault Refusal) (k : State → Host.Outcome State Fault Refusal) :
    Host.Outcome State Fault Refusal :=
  match o with
  | .next s => k s
  | .fault r => .fault r
  | .refused r => .refused r

/-! Rejection: the engine's only exception -/

/-- `raise Error(code, lane, addr)`: ERR, ERRCODE, ERRLANE and ERRADDR, and nothing else
(60_exceptions.md R101). Its way back is `clearError`. -/
def raiseError (code : ErrCode) (lane : BitVec 3) (addr : Nat) (s : State) : State :=
  { s with err := true, errCode := code, errLane := lane, errAddr := BitVec.ofNat 32 addr }

/-- The checks every CMD write meets first (60_exceptions.md R102): discarded while ERR = 1 (R103),
CMD_BUSY while BUSY = 1 (R104). -/
def cmdGate (k : State → State) (s : State) : State :=
  if s.err then s else if s.busy then raiseError .cmdBusy 0#3 0 s else k s

/-- The check of a command that reads lanes (60_exceptions.md R106, LANES_INVALID). -/
def lanesGate (k : State → State) (s : State) : State :=
  if s.lv then k s else raiseError .lanesInvalid 0#3 0 s

/-- The range check of LOAD8 and STORE8 (60_exceptions.md R106, MEM_RANGE). -/
def rangeGate (ea : Lanes Nat) (k : State → State) (s : State) : State :=
  match firstOutside s.params.memBytes ea with
  | some i => raiseError .memRange (BitVec.ofNat 3 i.val) (ea.get i) s
  | none => k s

/-- The overlap check of STORE8 (60_exceptions.md R106, STORE_OVERLAP). -/
def overlapGate (mode : AddrMode) (ea : Lanes Nat) (k : State → State) (s : State) : State :=
  match overlapOf mode ea with
  | some j => raiseError .storeOverlap (BitVec.ofNat 3 j.val) (ea.get j) s
  | none => k s

/-- Acceptance: the operands copied into the snapshot, BUSY set, the busy window opened
(60_exceptions.md R107, 20_memory.md R51). -/
def acceptCmd (op : Opcode) (ea : Option (Lanes Nat)) (s : State) : State :=
  { s with busy := true, snapshot := some ⟨op, s.key.block, ea⟩, window := Window.empty }

/-- A CMD write of a word that is no command (60_exceptions.md R102, R105). -/
def rejectIllegal (s : State) : State := cmdGate (raiseError .illegalCmd 0#3 0) s

/-- A CMD write of a command that reads lanes and no memory: XOR8 and the rounds. -/
def issueKeyed (op : Opcode) (s : State) : State := cmdGate (lanesGate (acceptCmd op none)) s

/-! The busy window of a block transfer -/

/-- The number of bytes a LOAD8 or STORE8 moves (20_memory.md R48). -/
def transferBytes : Nat := 128

/-- The SRAM address of transfer byte `k` = `16 * lane + j` (20_memory.md R44). -/
def transferAddr (ea : Lanes Nat) (k : Nat) : Nat := ea.get (Fin.ofNat 8 (k / 16)) + k % 16

/-- The lane byte of transfer byte `k` (20_memory.md R44). -/
def laneByte (lanes : Lanes Block) (k : Nat) : Byte := Block.byte (lanes.get (Fin.ofNat 8 (k / 16))) (k % 16)

/-- Transfer byte `k` moves at most once, and there are 128 of them (20_memory.md R53, R54). -/
def stillToMove (moved : List Host.Cell) (k : Nat) : Bool := k < transferBytes && (cellAt moved k).isNone

/-- The LOAD8 in flight reads byte `k` of its source blocks now (20_memory.md R53). -/
def loadByte (ea : Lanes Nat) (s : State) (k : Nat) : State :=
  if stillToMove s.window.moved k then
    { s with window := { s.window with
      moved := setCell s.window.moved k (s.sram.read (transferAddr ea k)) } }
  else s

/-- The STORE8 in flight writes byte `k` of its destination blocks now (20_memory.md R54). -/
def storeByte (ea : Lanes Nat) (s : State) (k : Nat) : State :=
  if stillToMove s.window.moved k then
    { s with
      sram := s.sram.write (transferAddr ea k) (laneByte s.lanes k)
      window := { s.window with moved := setCell s.window.moved k (laneByte s.lanes k) } }
  else s

/-- The snapshot's effective addresses, where MemRead and MemWrite are defined on all of them
(20_memory.md R42, R43). -/
def usableAddrs (memBytes : Nat) (ea : Option (Lanes Nat)) : Option (Lanes Nat) :=
  match ea with
  | none => none
  | some l => if (firstOutside memBytes l).isNone then some l else none

/-- Go on with the snapshot's effective addresses, or stop where the transfer is not defined (log 10). -/
def withAddrs (sn : Snapshot) (s : State) (k : Lanes Nat → Host.Outcome State Fault Refusal) :
    Host.Outcome State Fault Refusal :=
  match usableAddrs s.params.memBytes sn.ea with
  | some ea => k ea
  | none => .fault .transferUndefined

/-- The engine moves the bytes `ks` of the block transfer in flight, in that order. A command that
touches no SRAM has none to move (20_memory.md R39). -/
def moveBytes (ks : List Nat) (s : State) : Host.Outcome State Fault Refusal :=
  match s.snapshot with
  | none => .next s
  | some sn =>
    match sn.op with
    | .load8 => withAddrs sn s fun ea => .next (ks.foldl (loadByte ea) s)
    | .store8 => withAddrs sn s fun ea => .next (ks.foldl (storeByte ea) s)
    | .xor8 => .next s
    | .aesenc8 => .next s
    | .aesenclast8 => .next s
    | .aesdec8 => .next s
    | .aesdeclast8 => .next s

/-- The lanes a LOAD8 leaves: byte `j` of lane `i` is the byte the engine read for it in the busy
window, or reads at completion (20_memory.md R53, 40_marshalling.md R76). -/
def loadedLanes (ea : Lanes Nat) (s : State) : Lanes Block :=
  Lanes.ofFn fun i => Block.ofBytes fun j =>
    (cellAt s.window.moved (16 * i.val + j)).getD (s.sram.read (ea.get i + j))

/-- The SRAM a STORE8 leaves: every destination byte not yet written is written by completion
(20_memory.md R54, 40_marshalling.md R78). -/
def storedSram (ea : Lanes Nat) (s : State) : Memory :=
  (List.range transferBytes).foldl
    (fun m k => if stillToMove s.window.moved k then m.write (transferAddr ea k) (laneByte s.lanes k) else m)
    s.sram

/-! Completion -/

/-- What every completion does: BUSY <- 0, DONE <- 1, the snapshot dropped, the busy window closed
(10_state.md R37, 40_marshalling.md R73). -/
def finishCmd (s : State) : State :=
  { s with busy := false, done := true, doneNow := true, snapshot := none, window := Window.empty }

/-- Go on with the snapshot if a command with this operation is in flight; a completion is enabled only
then (10_state.md R37; log 8). -/
def whenInFlight (op : Opcode) (s : State) (k : Snapshot → Host.Outcome State Fault Refusal) :
    Host.Outcome State Fault Refusal :=
  match s.snapshot with
  | none => .next s
  | some sn => if s.busy ∧ sn.op = op then k sn else .next s

/-- Completion of a command that transforms every lane with the snapshot's key (40_marshalling.md R71,
R72). -/
def completeKeyed (op : Opcode) (f : Block → Block → Block) (s : State) : Host.Outcome State Fault Refusal :=
  whenInFlight op s fun sn => .next (finishCmd { s with lanes := s.lanes.map fun v => f v sn.key })

/-- A command's two moments: it is issued on the host's turn, by a CMD write, and completes on the
engine's (40_marshalling.md R73; log 8). -/
def onTurn (issue : State → State) (complete : State → Host.Outcome State Fault Refusal) (s : State) :
    Host.Outcome State Fault Refusal :=
  match s.turn with
  | .host => .next (issue s)
  | .engine => complete s

/-! Reset -/

/-- Every register takes its reset value, the command in flight is dropped; the SRAM keeps its content
(70_reset_and_hazards.md R118 to R121). DESIGN CHOICE: so a destination byte of an aborted STORE8 that the
host wrote in the busy window may keep the host's value (log 21). -/
def resetRegisters (s : State) : State :=
  { State.resetWith s.params with sram := s.sram, turn := s.turn, inputs := s.inputs, resp := s.resp }

end Sys2Proof.Machine
end

