-- ==== Sys2Proof/Machine/AesRounds.lean ====
section
/-! DEFINITION. The four round commands (42_aes_rounds.md §2). -/

namespace Sys2Proof.Machine

/-- AESENC8 (42_aes_rounds.md R92). -/
def execAesenc8 (s : State) : Host.Outcome State Fault Refusal :=
  onTurn (issueKeyed .aesenc8) (completeKeyed .aesenc8 aesenc) s

/-- AESENCLAST8 (42_aes_rounds.md R93). -/
def execAesenclast8 (s : State) : Host.Outcome State Fault Refusal :=
  onTurn (issueKeyed .aesenclast8) (completeKeyed .aesenclast8 aesenclast) s

/-- AESDEC8 (42_aes_rounds.md R94). -/
def execAesdec8 (s : State) : Host.Outcome State Fault Refusal :=
  onTurn (issueKeyed .aesdec8) (completeKeyed .aesdec8 aesdec) s

/-- AESDECLAST8 (42_aes_rounds.md R95). -/
def execAesdeclast8 (s : State) : Host.Outcome State Fault Refusal :=
  onTurn (issueKeyed .aesdeclast8) (completeKeyed .aesdeclast8 aesdeclast) s

end Sys2Proof.Machine
end

