-- ==== Sys2Proof/Machine/Marshalling.lean ====
section
/-! DEFINITION. LOAD8 and STORE8 (40_marshalling.md). -/

namespace Sys2Proof.Machine

/-- A CMD write of LOAD8: the checks of 60_exceptions.md R102 that apply to it, then acceptance. -/
def issueLoad8 (mode : AddrMode) (s : State) : State :=
  let ea := effectiveAddrs mode s
  cmdGate (rangeGate ea (acceptCmd .load8 (some ea))) s

/-- The completion of LOAD8 (40_marshalling.md R76). -/
def completeLoad8 (s : State) : Host.Outcome State Fault Refusal :=
  whenInFlight .load8 s fun sn => withAddrs sn s fun ea =>
    .next (finishCmd { s with lanes := loadedLanes ea s, lv := true })

/-- LOAD8 (40_marshalling.md R76). -/
def execLoad8 (mode : AddrMode) (s : State) : Host.Outcome State Fault Refusal :=
  onTurn (issueLoad8 mode) completeLoad8 s

/-- A CMD write of STORE8: the checks of 60_exceptions.md R102 in their order, then acceptance. -/
def issueStore8 (mode : AddrMode) (s : State) : State :=
  let ea := effectiveAddrs mode s
  cmdGate (lanesGate (rangeGate ea (overlapGate mode ea (acceptCmd .store8 (some ea))))) s

/-- The completion of STORE8 (40_marshalling.md R78). -/
def completeStore8 (s : State) : Host.Outcome State Fault Refusal :=
  whenInFlight .store8 s fun sn => withAddrs sn s fun ea =>
    .next (finishCmd { s with sram := storedSram ea s })

/-- STORE8 (40_marshalling.md R78). -/
def execStore8 (mode : AddrMode) (s : State) : Host.Outcome State Fault Refusal :=
  onTurn (issueStore8 mode) completeStore8 s

end Sys2Proof.Machine
end

