-- ==== Sys2Proof/Machine/Xor.lean ====
section
/-! DEFINITION. XOR8 (41_xor.md). -/

namespace Sys2Proof.Machine

/-- XOR8 (41_xor.md R80). -/
def execXor8 (s : State) : Host.Outcome State Fault Refusal :=
  onTurn (issueKeyed .xor8) (completeKeyed .xor8 addRoundKey) s

end Sys2Proof.Machine
end

