-- ==== Sys2Proof/Machine/Dispatch.lean ====
section
/-! DEFINITION. The meaning of every command, one arm each (00_scope.md R4). -/

namespace Sys2Proof.Machine

/-- What a command does: on the host's turn when its word is written to CMD, on the engine's turn when
it completes (40_marshalling.md R73; log 8). -/
def exec (i : Instr) (s : State) : Host.Outcome State Fault Refusal :=
  match i with
  | .load8 mode => Sys2Proof.Machine.execLoad8 mode s
  | .store8 mode => Sys2Proof.Machine.execStore8 mode s
  | .xor8 => Sys2Proof.Machine.execXor8 s
  | .aesenc8 => Sys2Proof.Machine.execAesenc8 s
  | .aesenclast8 => Sys2Proof.Machine.execAesenclast8 s
  | .aesdec8 => Sys2Proof.Machine.execAesdec8 s
  | .aesdeclast8 => Sys2Proof.Machine.execAesdeclast8 s

end Sys2Proof.Machine
end

