-- ==== Sys2Proof/Machine/Command.lean ====
section
/-! DEFINITION. The host's accesses (10_state.md R9): a CMD write (60_exceptions.md R102), the CSR port,
the SRAM port (20_memory.md R45, R47) and the two windows of the host's map (R40). -/

namespace Sys2Proof.Machine

/-- A host write of `w` to CMD (10_state.md R30, 60_exceptions.md R102): the word is decoded, and the
command's meaning on the host's turn makes the checks that apply to it. -/
def processCmd (w : Word) (s : State) : Host.Outcome State Fault Refusal :=
  match decodeCmd w with
  | .ok i => exec i s
  | .error _ => .next (rejectIllegal s)

/-- The answer to a write, or to any access that ends in a bus error (10_state.md R33,
20_memory.md R47). -/
def plainAnswer (err : Bool) : Response := ⟨0#32, err⟩

/-- The host port answers. -/
def respond (r : Response) (s : State) : State := { s with resp := some r }

/-- A host access to the SRAM is answered normally: 1, 2 or 4 bytes, naturally aligned, in range
(20_memory.md R45, R47; 92_eei_decisions.md D22). -/
def memAccessOk (memBytes addr size : Nat) : Bool :=
  (size == 1 || size == 2 || size == 4) && addr % size == 0 && addr + size ≤ memBytes

/-- `CsrRead(off, size)`; while `rst` = 1 it returns 0, ID's offset included (10_state.md R33,
70_reset_and_hazards.md R118, 95_test_vectors.md RS5; the bus error then is log 9). -/
def serveCsrRead (rst : Bool) (off : BitVec 8) (size : Nat) (s : State) : State :=
  if csrAccessOk off size then respond ⟨if rst then 0#32 else readCsr off s, false⟩ s
  else respond (plainAnswer true) s

/-- `CsrWrite(off, size, data)`; while `rst` = 1 it is ignored (10_state.md R30, R33,
70_reset_and_hazards.md R118; log 9). -/
def serveCsrWrite (rst : Bool) (off : BitVec 8) (size : Nat) (data : Word) (s : State) :
    Host.Outcome State Fault Refusal :=
  if !csrAccessOk off size then .next (respond (plainAnswer true) s)
  else if rst then .next (respond (plainAnswer false) s)
  else if off = CsrName.cmd.offset then
    andThen (processCmd data s) fun t => .next (respond (plainAnswer false) t)
  else .next (respond (plainAnswer false) (writeCsr off data s))

/-- `HostMemRead(addr, size)` (20_memory.md R45, R47). DESIGN CHOICE: it answers the bytes as they stand, so
a destination byte of a STORE8 in flight that the host has written in the busy window may read as the host's
value (log 22). -/
def serveMemRead (addr size : Nat) (s : State) : State :=
  if memAccessOk s.params.memBytes addr size then
    respond ⟨BitVec.ofNat 32 (s.sram.readLE addr size), false⟩ s
  else respond (plainAnswer true) s

/-- `HostMemWrite(addr, size, data)` (20_memory.md R45, R47). -/
def serveMemWrite (addr size : Nat) (data : Word) (s : State) : State :=
  if memAccessOk s.params.memBytes addr size then
    respond (plainAnswer false) { s with sram := s.sram.writeLE addr size data.toNat }
  else respond (plainAnswer true) s

/-- A transaction on one of the two ports, in a cycle with this `rst`. -/
def servePort (rst : Bool) (a : PortAccess) (s : State) : Host.Outcome State Fault Refusal :=
  match a with
  | .csrRead off size => .next (serveCsrRead rst off size s)
  | .csrWrite off size data => serveCsrWrite rst off size data s
  | .memRead addr size => .next (serveMemRead addr size s)
  | .memWrite addr size data => .next (serveMemWrite addr size data s)

/-- Where a host address leads (20_memory.md R40). -/
inductive BusTarget where
  | csr (off : BitVec 8)
  | sram (addr : Nat)
  | elsewhere
deriving DecidableEq, Repr

/-- The window a host address lies in (20_memory.md R40; log 12). -/
def busTarget (p : Params) (h : Nat) : BusTarget :=
  if p.csrBase ≤ h ∧ h < p.csrBase + 256 then .csr (BitVec.ofNat 8 (h - p.csrBase))
  else if p.sramBase ≤ h ∧ h < p.sramBase + p.memBytes then .sram (h - p.sramBase)
  else .elsewhere

/-- The port transaction a host access is; none if its address is in neither window, so that it does
not reach the engine (log 12). -/
def HostAccess.onPort (p : Params) (a : HostAccess) : Option PortAccess :=
  match a with
  | .port t => some t
  | .busRead h size =>
    match busTarget p h with
    | .csr off => some (.csrRead off size)
    | .sram addr => some (.memRead addr size)
    | .elsewhere => none
  | .busWrite h size data =>
    match busTarget p h with
    | .csr off => some (.csrWrite off size data)
    | .sram addr => some (.memWrite addr size data)
    | .elsewhere => none

/-- The port transaction of a cycle, if it has one. -/
def Cycle.portAccess (p : Params) (c : Cycle) : Option PortAccess :=
  match c.access with
  | none => none
  | some a => a.onPort p

end Sys2Proof.Machine
end

