-- ==== Sys2Proof/Machine/Clock.lean ====
section
/-! DEFINITION. One clock cycle: the engine's turn, then the host's (60_exceptions.md R110). -/

namespace Sys2Proof.Machine

/-- A cycle in which nothing reaches the engine and it moves no byte early (log 2). -/
def Cycle.idle : Cycle := ⟨false, none, false, [], []⟩

/-- The cycle that is running: the oldest input, or an idle one (log 2). -/
def State.cycle (s : State) : Cycle := s.inputs.headD Cycle.idle

/-- The command in flight completes in this cycle: LAT_MAX is reached, or LAT_MIN is and the engine
chooses so (00_scope.md R6, 10_state.md R37; log 14). -/
def completionDue (c : Cycle) (s : State) : Bool :=
  s.params.latMax ≤ s.window.age + 1 || (c.finish && s.params.latMin ≤ s.window.age + 1)

/-- The engine's turn is over, the host's begins. -/
def endEngineTurn (s : State) : State := { s with turn := .host }

/-- One more cycle of the busy window has begun. -/
def growOlder (s : State) : State := { s with window := { s.window with age := s.window.age + 1 } }

/-- The engine's turn of a cycle without reset, a command in flight: it moves the bytes this cycle moves
early, and completes the command if that is due (10_state.md R37, 20_memory.md R53, R54). -/
def runEngine (sn : Snapshot) (c : Cycle) (s : State) : Host.Outcome State Fault Refusal :=
  andThen (moveBytes c.movesBefore s) fun t =>
    if completionDue c t then andThen (exec sn.op.instr t) fun u => .next (endEngineTurn u)
    else .next (endEngineTurn (growOlder t))

/-- The engine's turn (70_reset_and_hazards.md R118; 10_state.md R37). -/
def engineTurn (s : State) : Host.Outcome State Fault Refusal :=
  if s.cycle.rst then .next (endEngineTurn (resetRegisters s))
  else match s.snapshot with
  | none => .next (endEngineTurn s)
  | some sn => if s.busy then runEngine sn s.cycle s else .next (endEngineTurn s)

/-- The host's access of the cycle, if there is one that reaches the engine. -/
def serveAccess (c : Cycle) (s : State) : Host.Outcome State Fault Refusal :=
  match c.portAccess s.params with
  | none => .next { s with resp := none }
  | some a => servePort c.rst a s

/-- The cycle is over: the next one begins with the engine's turn. -/
def endCycle (s : State) : State :=
  { s with doneNow := false, inputs := s.inputs.tail, turn := .engine }

/-- After the host's access: the engine moves the bytes this cycle moves late, and the cycle ends
(20_memory.md R51, R53, R54; log 11). -/
def endHostTurn (c : Cycle) (s : State) : Host.Outcome State Fault Refusal :=
  andThen (moveBytes c.movesAfter s) fun t => .next (endCycle t)

/-- The host's turn. -/
def hostTurn (s : State) : Host.Outcome State Fault Refusal :=
  andThen (serveAccess s.cycle s) (endHostTurn s.cycle)

/-- Whoever's turn it is. -/
def takeTurn (s : State) : Host.Outcome State Fault Refusal :=
  match s.turn with
  | .engine => engineTurn s
  | .host => hostTurn s

/-- The cycle in which the host writes `w` to CMD and nothing else happens. -/
def Cycle.cmdWrite (w : Word) : Cycle :=
  { Cycle.idle with access := some (.port (.csrWrite CsrName.cmd.offset 4 w)) }

end Sys2Proof.Machine
end

