-- ==== Sys2Proof/Machine/Step.lean ====
section
/-! DEFINITION. One step: one agent's turn (10_state.md R8, 60_exceptions.md R110). -/

namespace Sys2Proof.Machine

/-- One step of the machine: the turn of the engine or of the host (log 1). -/
def step (s : State) : Host.Outcome State Fault Refusal := takeTurn s

/-- `s` with a command word where the machine takes its next one: a CMD write of the low `nbits` bits of
`w`, on the host's turn of the next cycle. The engine fetches nothing (10_state.md R14); a program is
the host's sequence of writes, loaded from outside the machine (log 7). -/
def State.withFetchWord (s : State) (nbits w : Nat) : State :=
  { s with turn := .host, inputs := Cycle.cmdWrite (BitVec.ofNat 32 (w % 2 ^ nbits)) :: s.inputs }

end Sys2Proof.Machine
end

