-- ==== Sys2Proof/Machine/HostProgram.lean ====
section
/-! DEFINITION. The host-program syntax (30_encoding.md §4): what each line sends to the ports, and the run
of a program beside the engine, access by access. The engine sees only the port accesses (R69). -/

namespace Sys2Proof.Machine

/-- A line of a host program (30_encoding.md R68 to R70). -/
inductive HostLine where
  | csrw (r : CsrName) (imm : Word)
  | csrr (r : CsrName)
  | memw (a : Nat) (imm : Word)
  | memr (a : Nat)
  | memblk (a : Nat) (b : Block)
  | load8 (a : Lanes Word)
  | load8c (a0 : Word)
  | store8 (a : Lanes Word)
  | store8c (a0 : Word)
  | xor8 (k : Block)
  | aesenc8 (k : Block)
  | aesenclast8 (k : Block)
  | aesdec8 (k : Block)
  | aesdeclast8 (k : Block)
  | setkey (k : Block)
  | wait
  | check
  | clrerr
  | clrdone
  /-- `aes.enc8 k0, ks.., kN`: `ks` the keys of the middle rounds. -/
  | aesEnc8 (k0 : Block) (ks : List Block) (kN : Block)
  /-- `aes.dec8 d0, ds.., dN`: `ds` the keys of the middle rounds. -/
  | aesDec8 (d0 : Block) (ds : List Block) (dN : Block)
deriving DecidableEq, Repr

/-- `middle` keys between the first and the last make `N = middle + 1` rounds, 10, 12 or 14
(30_encoding.md R70). -/
def roundsLegal (middle : Nat) : Bool := middle + 1 == 10 || middle + 1 == 12 || middle + 1 == 14

/-- A line of the syntax: only `aes.enc8` and `aes.dec8` restrict their operands, `N in {10, 12, 14}`
(30_encoding.md R70). -/
def HostLine.wellFormed : HostLine → Bool
  | .aesEnc8 _ ks _ => roundsLegal ks.length
  | .aesDec8 _ ds _ => roundsLegal ds.length
  | .csrw _ _ => true
  | .csrr _ => true
  | .memw _ _ => true
  | .memr _ => true
  | .memblk _ _ => true
  | .load8 _ => true
  | .load8c _ => true
  | .store8 _ => true
  | .store8c _ => true
  | .xor8 _ => true
  | .aesenc8 _ => true
  | .aesenclast8 _ => true
  | .aesdec8 _ => true
  | .aesdeclast8 _ => true
  | .setkey _ => true
  | .wait => true
  | .check => true
  | .clrerr => true
  | .clrdone => true

/-- One operation of the host: an access, a `wait`, which is repeated until it reads BUSY = 0, or a
`check` (30_encoding.md R68, R70). -/
inductive HostOp where
  | access (a : PortAccess)
  | wait
  | check
deriving DecidableEq, Repr

/-- `csrw NAME, imm` (30_encoding.md R68). -/
def csrw (r : CsrName) (imm : Word) : HostOp := .access (.csrWrite r.offset 4 imm)

/-- `csrr NAME` (30_encoding.md R68). -/
def csrr (r : CsrName) : HostOp := .access (.csrRead r.offset 4)

/-- `memw a, imm` (30_encoding.md R68). -/
def memw (a : Nat) (imm : Word) : HostOp := .access (.memWrite a 4 imm)

/-- `memr a` (30_encoding.md R68). -/
def memr (a : Nat) : HostOp := .access (.memRead a 4)

/-- Bytes `4w .. 4w+3` of a block, packed little-endian (10_state.md R15, 20_memory.md R45). -/
def blockWord (b : Block) (w : Nat) : Word := b.extractLsb' (32 * w) 32

/-- `memblk` (30_encoding.md R68). -/
def memblkOps (a : Nat) (b : Block) : List HostOp :=
  [memw a (blockWord b 0), memw (a + 4) (blockWord b 1), memw (a + 8) (blockWord b 2),
    memw (a + 12) (blockWord b 3)]

/-- `setkey` (30_encoding.md R70). -/
def setkeyOps (k : Block) : List HostOp :=
  [csrw (.key 0) (blockWord k 0), csrw (.key 1) (blockWord k 1), csrw (.key 2) (blockWord k 2),
    csrw (.key 3) (blockWord k 3)]

/-- The eight ADDR writes of `load8` and `store8` (30_encoding.md R69). -/
def addrOps (a : Lanes Word) : List HostOp := laneIndices.map fun i => csrw (.addr i) (a.get i)

/-- The CMD write of a command. -/
def cmdOp (i : Instr) : HostOp := csrw .cmd (encode i)

/-- A command with its key (30_encoding.md R69). -/
def keyedOps (i : Instr) (k : Block) : List HostOp := setkeyOps k ++ [cmdOp i]

/-- A cipher's rounds, each with a `wait` of its own (30_encoding.md R70). -/
def roundsOps (mid last : Instr) (k0 : Block) (ks : List Block) (kN : Block) : List HostOp :=
  keyedOps .xor8 k0 ++ [.wait] ++ ks.flatMap (fun k => keyedOps mid k ++ [.wait]) ++
    keyedOps last kN ++ [.wait]

/-- The operations of a line, in order (30_encoding.md R68 to R70). -/
def HostLine.ops : HostLine → List HostOp
  | .csrw r imm => [Machine.csrw r imm]
  | .csrr r => [Machine.csrr r]
  | .memw a imm => [Machine.memw a imm]
  | .memr a => [Machine.memr a]
  | .memblk a b => memblkOps a b
  | .load8 a => addrOps a ++ [cmdOp (.load8 .independent)]
  | .load8c a0 => [Machine.csrw (.addr 0) a0, cmdOp (.load8 .contiguous)]
  | .store8 a => addrOps a ++ [cmdOp (.store8 .independent)]
  | .store8c a0 => [Machine.csrw (.addr 0) a0, cmdOp (.store8 .contiguous)]
  | .xor8 k => keyedOps .xor8 k
  | .aesenc8 k => keyedOps .aesenc8 k
  | .aesenclast8 k => keyedOps .aesenclast8 k
  | .aesdec8 k => keyedOps .aesdec8 k
  | .aesdeclast8 k => keyedOps .aesdeclast8 k
  | .setkey k => setkeyOps k
  | .wait => [.wait]
  | .check => [.check]
  | .clrerr => [Machine.csrw .status 0x4#32]
  | .clrdone => [Machine.csrw .status 0x2#32]
  | .aesEnc8 k0 ks kN => roundsOps .aesenc8 .aesenclast8 k0 ks kN
  | .aesDec8 d0 ds dN => roundsOps .aesdec8 .aesdeclast8 d0 ds dN

/-- `aes.dec8` for what `aes.enc8 k0, ks.., kN` encrypts: the decryption key sequence `d` of
42_aes_rounds.md R97 (30_encoding.md R70). -/
def decryptionLine (k0 : Block) (ks : List Block) (kN : Block) : HostLine :=
  .aesDec8 kN (ks.reverse.map invMixColumns) k0

/-- The operations of a program; none if one of its lines is not in the syntax (30_encoding.md R70). -/
def assemble (p : List HostLine) : Option (List HostOp) :=
  if p.all HostLine.wellFormed then some (p.flatMap HostLine.ops) else none

/-! The run of a program -/

/-- The access an operation makes, each time it makes one (30_encoding.md R68, R70). -/
def HostOp.port : HostOp → PortAccess
  | .access a => a
  | .wait => .csrRead CsrName.status.offset 4
  | .check => .csrRead CsrName.status.offset 4

/-- The access reads a value, the `r` of 30_encoding.md R68. -/
def PortAccess.isRead : PortAccess → Bool
  | .csrRead _ _ => true
  | .memRead _ _ => true
  | .csrWrite _ _ _ => false
  | .memWrite _ _ _ => false

/-- The operation is made again after it has read `r`: `wait` until `r[0] = 0` (30_encoding.md R70). -/
def HostOp.repeats (o : HostOp) (r : Word) : Bool :=
  match o with
  | .access _ => false
  | .wait => r.getLsbD 0
  | .check => false

/-- The program is in error after the operation has read `r`: `check` with `r[2] = 1`
(30_encoding.md R70). -/
def HostOp.fails (o : HostOp) (r : Word) : Bool :=
  match o with
  | .access _ => false
  | .wait => false
  | .check => r.getLsbD 2

/-- What the rules leave open in one clock cycle of a run: whether the host issues its next access, and
the engine's choices (93_implementation_defined.md U15, U16). They are free values; a run takes any list
of them (log 2, log 18). -/
structure Schedule where
  /-- The host issues its next access in this cycle; it makes at most one (60_exceptions.md R110). -/
  issue : Bool
  /-- As in `Cycle`: the command in flight completes now, if LAT_MIN allows it. -/
  finish : Bool
  /-- As in `Cycle`: bytes moved before the host's access. -/
  movesBefore : List Nat
  /-- As in `Cycle`: bytes moved after it. -/
  movesAfter : List Nat
deriving DecidableEq, Repr

/-- A host program beside the machine it drives. -/
structure HostRun where
  machine : State
  /-- The operations still to do; a `wait` at the head may have read BUSY = 1 already. -/
  ops : List HostOp
  /-- The answers to the reads that are done, oldest first; of a `wait` its last one. -/
  answers : List Response
  /-- A `check` has found the program in error (30_encoding.md R70). -/
  inError : Bool
deriving DecidableEq, Repr

/-- The operation the host makes in a cycle. -/
def HostRun.issued (k : Schedule) (r : HostRun) : Option HostOp := if k.issue then r.ops.head? else none

/-- A clock cycle with the open choices of `k`, in which the host makes `o`'s access. -/
def hostCycle (k : Schedule) (o : Option HostOp) : Cycle where
  rst := false
  access := o.map fun p => .port p.port
  finish := k.finish
  movesBefore := k.movesBefore
  movesAfter := k.movesAfter

/-- The host has made `o` and the machine is at `s`, with the port's answer: a `wait` that read BUSY = 1
stays, anything else is done. -/
def HostRun.made (o : HostOp) (s : State) (r : HostRun) : HostRun :=
  let a := s.resp.getD (plainAnswer false)
  if o.repeats a.data then { r with machine := s }
  else
    { machine := s
      ops := r.ops.tail
      answers := if o.port.isRead then r.answers ++ [a] else r.answers
      inError := r.inError || o.fails a.data }

/-- The host's side of a cycle that has left the machine at `s`. -/
def HostRun.afterCycle (o : Option HostOp) (s : State) (r : HostRun) : HostRun :=
  match o with
  | none => { r with machine := s }
  | some p => r.made p s

/-- One clock cycle of a run, from the engine's turn: the engine's turn and the host's, two steps. -/
def runCycle (k : Schedule) (r : HostRun) : Host.Outcome HostRun Fault Refusal :=
  match andThen (step { r.machine with inputs := [hostCycle k (r.issued k)] }) step with
  | .next s => .next (r.afterCycle (r.issued k) s)
  | .fault f => .fault f
  | .refused f => .refused f

/-- A run through the cycles of a schedule. -/
def runHost (ks : List Schedule) (r : HostRun) : Host.Outcome HostRun Fault Refusal :=
  match ks with
  | [] => .next r
  | k :: rest =>
    match runCycle k r with
    | .next u => runHost rest u
    | .fault f => .fault f
    | .refused f => .refused f

/-- A program about to run on a machine. -/
def HostRun.start (s : State) (ops : List HostOp) : HostRun := ⟨s, ops, [], false⟩

/-- The run has ended: the last access is made and BUSY = 0 (70_reset_and_hazards.md R130). -/
def HostRun.ended (r : HostRun) : Bool := r.ops.isEmpty && !r.machine.busy

end Sys2Proof.Machine
end

