-- ==== Sys2Proof/Safety.lean ====
section
/-! DEFINITION. What holds in every reachable state (10_state.md R38), what the host must not do
(70_reset_and_hazards.md R124), and the end of a run (R130). -/

namespace Sys2Proof

/-- A command that moves a block transfer through the SRAM (20_memory.md R39). -/
def Opcode.movesBytes (op : Opcode) : Bool := op = .load8 || op = .store8

namespace Machine

/-- The addresses of a snapshot are those an acceptance can have taken (60_exceptions.md R102): LOAD8 and
STORE8 have eight blocks inside the SRAM, those of STORE8 disjoint; the other commands have none. -/
def Snapshot.addrsLegal (memBytes : Nat) (sn : Snapshot) : Bool :=
  match sn.op, sn.ea with
  | .load8, some ea => (firstOutside memBytes ea).isNone
  | .store8, some ea => (firstOutside memBytes ea).isNone && (firstOverlap ea).isNone
  | .load8, none => false
  | .store8, none => false
  | _, some _ => false
  | _, none => true

/-- What holds in every reachable state (10_state.md R38, with what the model's own fields add). -/
structure Inv (s : State) : Prop where
  /-- The parameters are in their ranges (00_scope.md R5, R6). -/
  params : s.params.wellFormed = true
  /-- BUSY = 1 iff the snapshot is present (10_state.md R38). -/
  busy : s.busy = s.snapshot.isSome
  /-- ERR = 0 implies ERRCODE = 0, ERRLANE = 0, ERRADDR = 0 (10_state.md R38). -/
  noError : s.err = false → s.errCode = .none ∧ s.errLane = 0#3 ∧ s.errAddr = 0#32
  /-- ERR = 1 comes with one of the codes 1 to 5 (60_exceptions.md R100). -/
  error : s.err = true → s.errCode ≠ .none
  /-- A command that reads lanes is in flight only with LV = 1 (10_state.md R13, R38). -/
  lanesLoaded : ∀ sn, s.snapshot = some sn → sn.op ≠ .load8 → s.lv = true
  /-- The command in flight passed the checks on its addresses (60_exceptions.md R102). -/
  addrs : ∀ sn, s.snapshot = some sn → sn.addrsLegal s.params.memBytes = true
  /-- The SRAM keeps its canonical form. -/
  sramWf : s.sram.wf = true
  /-- The SRAM has no byte beyond `MEM_BYTES - 1` (20_memory.md R39). -/
  sramRange : ∀ c ∈ s.sram, c.1 < s.params.memBytes
  /-- With no command in flight the busy window is closed (20_memory.md R51). -/
  windowClosed : s.snapshot = none → s.window = Window.empty
  /-- The command in flight has not reached LAT_MAX (00_scope.md R6). -/
  age : s.window.age < s.params.latMax
  /-- The bytes moved so far are listed by rising index. -/
  movedRising : risingCells s.window.moved = true
  /-- There are 128 bytes to move (20_memory.md R48). -/
  movedRange : ∀ c ∈ s.window.moved, c.1 < transferBytes
  /-- Only LOAD8 and STORE8 move bytes (20_memory.md R39). -/
  movedNone : ∀ sn, s.snapshot = some sn → sn.op.movesBytes = false → s.window.moved = []
  /-- The bytes a STORE8 has written are its lane bytes (20_memory.md R54). -/
  movedLanes : ∀ sn, s.snapshot = some sn → sn.op = .store8 →
    ∀ c ∈ s.window.moved, c.2 = laneByte s.lanes c.1
  /-- A completion of this cycle has set DONE, and the engine's turn is over (10_state.md R22). -/
  doneNow : s.doneNow = true → s.done = true ∧ s.turn = .host

/-- The port access writes SRAM byte `a` (20_memory.md R45, R47). -/
def PortAccess.writesByte (memBytes : Nat) (t : PortAccess) (a : Nat) : Bool :=
  match t with
  | .csrRead _ _ => false
  | .csrWrite _ _ _ => false
  | .memRead _ _ => false
  | .memWrite addr size _ => memAccessOk memBytes addr size && (addr ≤ a && a < addr + size)

/-- SRAM byte `a` belongs to the block transfer in flight: a source byte of a LOAD8 or a destination
byte of a STORE8 (70_reset_and_hazards.md R124). -/
def State.inBatch (s : State) (a : Nat) : Bool :=
  match s.snapshot with
  | none => false
  | some sn =>
    match sn.ea with
    | none => false
    | some ea => laneIndices.any fun i => ea.get i ≤ a && a < ea.get i + 16

/-- On this turn the host writes no byte of the batch in flight ("no concurrent writer",
70_reset_and_hazards.md R124). -/
def HostLeavesBatch (s : State) : Prop :=
  s.turn = .host → ∀ t, s.cycle.portAccess s.params = some t →
    ∀ a, s.inBatch a = true → t.writesByte s.params.memBytes a = false

/-- Every byte moved so far is what its SRAM byte holds: a LOAD8 has read it, a STORE8 has written it,
and nothing has changed it since. -/
def TransferAgrees (s : State) : Prop :=
  ∀ sn ea, s.snapshot = some sn → sn.ea = some ea →
    ∀ c ∈ s.window.moved, s.sram.read (transferAddr ea c.1) = c.2

/-- The observable result of a run (70_reset_and_hazards.md R130): no lane register is in it. -/
structure Observable where
  sram : Memory
  status : Word
  ctrl : Word
  key : KeyRegs
  addr : Lanes Word
  errAddr : Word
deriving DecidableEq, Repr

/-- What the host can observe of a state at the end of a run (70_reset_and_hazards.md R130). -/
def State.observable (s : State) : Observable :=
  ⟨s.sram, s.statusWord, s.ctrlWord, s.key, s.addr, s.errAddr⟩

/-- A run has ended: the host has issued its last access and BUSY = 0 (70_reset_and_hazards.md R130). -/
def RunEnded (s : State) : Prop := (∀ c ∈ s.inputs, c.access = none) ∧ s.busy = false

end Machine
end Sys2Proof
end

