-- ==== Sys2Proof/Certificates/Slice0/Obligations.lean ====
section
/-! DEFINITION. The statements about the engine, taken from the numbered rules of spec/. -/

namespace Sys2Proof.Claims

open Sys2Proof.Machine

/-- The host's turn, no error pending and no command in flight: a CMD write is checked further
(60_exceptions.md R102). -/
def Ready (s : State) : Prop := s.turn = .host ∧ s.err = false ∧ s.busy = false

/-- The engine's turn, with the command of snapshot `sn` in flight: its completion is enabled
(10_state.md R37). -/
def InFlight (sn : Snapshot) (s : State) : Prop :=
  s.turn = .engine ∧ s.busy = true ∧ s.snapshot = some sn

/-- A rejection with this code, lane and address leaves this state (60_exceptions.md R101). -/
def rejected (code : ErrCode) (lane : BitVec 3) (addr : Nat) (s : State) : State :=
  { s with err := true, errCode := code, errLane := lane, errAddr := BitVec.ofNat 32 addr }

/-- An acceptance with these operands leaves this state (60_exceptions.md R107). -/
def accepted (op : Opcode) (ea : Option (Lanes Nat)) (s : State) : State :=
  { s with busy := true, snapshot := some ⟨op, s.key.block, ea⟩, window := ⟨0, []⟩ }

/-- What every completion does beside the command's own effect (10_state.md R37). -/
def completed (s : State) : State :=
  { s with busy := false, done := true, doneNow := true, snapshot := none, window := ⟨0, []⟩ }

/-- Every block lies wholly inside the SRAM. -/
def InRange (memBytes : Nat) (ea : Lanes Nat) : Prop := ∀ i, ea.get i + 16 ≤ memBytes

/-- No two blocks share a byte. -/
def Disjoint (ea : Lanes Nat) : Prop :=
  ∀ i j, i ≠ j → ea.get i + 16 ≤ ea.get j ∨ ea.get j + 16 ≤ ea.get i

/-- The processing of a CMD write as 60_exceptions.md R102 writes it, on the raw word. -/
def cmdWriteChecks (w : Word) (s : State) : State :=
  let op := w.extractLsb' 0 4
  let c := w.getLsbD 4
  let ea : Fin 8 → Nat := fun i =>
    if c then (s.addr.get 0).toNat + 16 * i.val else (s.addr.get i).toNat
  let range : Option (Fin 8) :=
    if op = 1#4 ∨ op = 2#4 then [0, 1, 2, 3, 4, 5, 6, 7].find? fun i => s.params.memBytes < ea i + 16
    else none
  let overlap : Option (Fin 8) :=
    if op = 2#4 ∧ c = false then
      [1, 2, 3, 4, 5, 6, 7].find? fun j => [0, 1, 2, 3, 4, 5, 6, 7].any fun i =>
        i.val < j.val && ((ea i : Int) - (ea j : Int)).natAbs < 16
    else none
  if s.err then s
  else if s.busy then rejected .cmdBusy 0#3 0 s
  else if ¬ (1 ≤ op.toNat ∧ op.toNat ≤ 7 ∧ w.extractLsb' 5 27 = 0#27 ∧ (c = false ∨ op = 1#4 ∨ op = 2#4)) then
    rejected .illegalCmd 0#3 0 s
  else if op ≠ 1#4 ∧ s.lv = false then rejected .lanesInvalid 0#3 0 s
  else match range, overlap, Opcode.ofCode op with
  | some i, _, _ => rejected .memRange (BitVec.ofNat 3 i.val) (ea i) s
  | none, some j, _ => rejected .storeOverlap (BitVec.ofNat 3 j.val) (ea j) s
  | none, none, some o => accepted o (if op = 1#4 ∨ op = 2#4 then some (Lanes.ofFn ea) else none) s
  | none, none, none => s

/-- The encryption of one lane: XOR8 `k0`, AESENC8 with each of `ks`, AESENCLAST8 `kN`
(42_aes_rounds.md R96). -/
def encryptLane (k0 : Block) (ks : List Block) (kN v : Block) : Block :=
  aesenclast (ks.foldl aesenc (addRoundKey v k0)) kN

/-- The decryption of one lane: XOR8 `d0`, AESDEC8 with each of `ds`, AESDECLAST8 `dN`
(42_aes_rounds.md R97). -/
def decryptLane (d0 : Block) (ds : List Block) (dN v : Block) : Block :=
  aesdeclast (ds.foldl aesdec (addRoundKey v d0)) dN

/-- A command that transforms every lane with the key, as its rule gives it: its word; every other word
with its OP illegal; its checks and its acceptance, in the order of 60_exceptions.md R102; its completion,
which applies `f` to every lane and the snapshot's key and writes nothing else but BUSY and DONE. -/
def KeyedCommand (word : Word) (i : Instr) (f : Block → Block → Block) : Prop :=
  decodeCmd word = .ok i ∧
  (∀ (w : Word) (s : State), w.extractLsb' 0 4 = word.extractLsb' 0 4 → w ≠ word → Ready s →
    processCmd w s = .next (rejected .illegalCmd 0#3 0 s)) ∧
  (∀ s : State, s.turn = .host →
    exec i s = .next (if s.err then s else if s.busy then rejected .cmdBusy 0#3 0 s
      else if s.lv then accepted i.opcode none s else rejected .lanesInvalid 0#3 0 s)) ∧
  ∀ (s : State) (sn : Snapshot), InFlight sn s → sn.op = i.opcode →
    exec i s = .next (completed { s with lanes := s.lanes.map fun v => f v sn.key })

/-- A state without its data: lanes, keys, SRAM content, bytes moved, data answered. What is left is
what the host and the clock see of the engine's control. -/
def withoutData (s : State) : State :=
  { s with
    lanes := Lanes.all 0#128
    key := ⟨0#32, 0#32, 0#32, 0#32⟩
    sram := []
    snapshot := s.snapshot.map fun sn => { sn with key := 0#128 }
    window := { s.window with moved := s.window.moved.map fun c => (c.1, 0#8) }
    resp := s.resp.map fun r => ⟨0#32, r.err⟩ }

/-- The two lane contents swapped. -/
def swapLanes (i j : Fin 8) (l : Lanes Block) : Lanes Block :=
  Lanes.ofFn fun k => if k = i then l.get j else if k = j then l.get i else l.get k

/-- A command that reads every lane and writes every lane. -/
def transformsLanes (i : Instr) : Prop :=
  i = .xor8 ∨ i = .aesenc8 ∨ i = .aesenclast8 ∨ i = .aesdec8 ∨ i = .aesdeclast8

/-- The STATUS fields with ERRADDR (10_state.md R29). -/
def statusFields (s : State) : Bool × Bool × Bool × Bool × ErrCode × BitVec 3 × Word :=
  (s.busy, s.done, s.err, s.lv, s.errCode, s.errLane, s.errAddr)

end Sys2Proof.Claims

open Sys2Proof Sys2Proof.Machine Sys2Proof.Claims

/-! Commands: decoding, issue, steps -/

/-- On the host's turn a step is the host's access, if one reaches the engine, and then the end of the turn.
The model's own choices in it: a step is one turn (log 1); an address in neither window does not reach the
engine (log 12); a cycle without an access that reaches it leaves no answer (log 13). A CMD write without reset is the processing of its word, which for a
word that decodes to `i` is `exec i` at that state; it answers without a bus error, with data this statement
leaves open (log 13). -/
def Obligations.StepRunsTheDecodedCommand : Prop :=
  ∀ s : State, s.turn = .host →
    (s.cycle.portAccess s.params = none → step s = endHostTurn s.cycle { s with resp := none }) ∧
    (∀ a, s.cycle.portAccess s.params = some a →
      step s = andThen (servePort s.cycle.rst a s) (endHostTurn s.cycle)) ∧
    ∀ w : Word, s.cycle.rst = false → s.cycle.portAccess s.params = some (.csrWrite 0x0C#8 4 w) →
      (∃ d : Word, step s =
        andThen (processCmd w s) fun t => endHostTurn s.cycle { t with resp := some ⟨d, false⟩ }) ∧
      ∀ i, decodeCmd w = .ok i → processCmd w s = exec i s ∧
        ∃ d : Word, step s =
          andThen (exec i s) fun t => endHostTurn s.cycle { t with resp := some ⟨d, false⟩ }

/-- When the completion of the command in flight is due on the engine's turn, the step is `exec` of that
command, whichever addressing mode it had, after the bytes this cycle moves early (10_state.md R37). -/
def Obligations.StepCompletesTheCommandInFlight : Prop :=
  ∀ (s t : State) (sn : Snapshot) (i : Instr), InFlight sn s → s.cycle.rst = false →
    moveBytes s.cycle.movesBefore s = .next t → completionDue s.cycle t = true → i.opcode = sn.op →
    step s = andThen (exec i t) fun u => .next { u with turn := .host }

/-- 30_encoding.md R65: a word decodes to a command iff its fields are legal, the legal words are the
nine of R64, and every other word is rejected with ILLEGAL_CMD. -/
def Obligations.LegalWordsDecodeAndOthersAreIllegal : Prop :=
  ∀ w : Word,
    ((∃ i, decodeCmd w = .ok i) ↔
      (1 ≤ (w.extractLsb' 0 4).toNat ∧ (w.extractLsb' 0 4).toNat ≤ 7) ∧ w.extractLsb' 5 27 = 0#27 ∧
        (w.getLsbD 4 = false ∨ w.extractLsb' 0 4 = 1#4 ∨ w.extractLsb' 0 4 = 2#4)) ∧
    ((∃ i, decodeCmd w = .ok i) ↔
      w ∈ [0x1#32, 0x11#32, 0x2#32, 0x12#32, 0x3#32, 0x4#32, 0x5#32, 0x6#32, 0x7#32]) ∧
    ((¬ ∃ i, decodeCmd w = .ok i) → ∀ s, Ready s → processCmd w s = .next (rejected .illegalCmd 0#3 0 s))

/-- Decoding and encoding agree in both directions over all 2^32 words (30_encoding.md §3). -/
def Obligations.DecodeAndEncodeAgree : Prop :=
  (∀ i : Instr, i.wellFormed = true ∧ decodeCmd (encode i) = .ok i) ∧
    ∀ (w : Word) (i : Instr), decodeCmd w = .ok i → w = encode i

/-- The words of the decoding table of 95_test_vectors.md §2.1, a few of them, decode as it says. -/
def Obligations.TableWordsDecode : Prop :=
  decodeCmd 0x00000001#32 = .ok (.load8 .independent) ∧ decodeCmd 0x00000011#32 = .ok (.load8 .contiguous) ∧
  decodeCmd 0x00000002#32 = .ok (.store8 .independent) ∧ decodeCmd 0x00000012#32 = .ok (.store8 .contiguous) ∧
  decodeCmd 0x00000003#32 = .ok .xor8 ∧ decodeCmd 0x00000004#32 = .ok .aesenc8 ∧
  decodeCmd 0x00000005#32 = .ok .aesenclast8 ∧ decodeCmd 0x00000006#32 = .ok .aesdec8 ∧
  decodeCmd 0x00000007#32 = .ok .aesdeclast8 ∧
  decodeCmd 0x00000000#32 = .error .reservedOp ∧ decodeCmd 0x00000008#32 = .error .reservedOp ∧
  decodeCmd 0x00000013#32 = .error .modeNotAllowed ∧ decodeCmd 0x80000001#32 = .error .reservedBits

/-- 60_exceptions.md R102: a CMD write is processed as the rule's pseudocode says, check by check. -/
def Obligations.CmdWriteFollowsTheCheckOrder : Prop :=
  ∀ (w : Word) (s : State), s.turn = .host → processCmd w s = .next (cmdWriteChecks w s)

/-- 60_exceptions.md R103: while ERR = 1 a CMD write has no effect at all, on any field. -/
def Obligations.CmdWriteIsDiscardedWhileErr : Prop :=
  ∀ (w : Word) (s : State), s.turn = .host → s.err = true → processCmd w s = .next s

/-- A CMD write while BUSY = 1 is CMD_BUSY; the command in flight keeps its snapshot and its window. -/
def Obligations.CmdWriteIsRejectedWhileBusy : Prop :=
  ∀ (w : Word) (s : State), s.turn = .host → s.err = false → s.busy = true →
    processCmd w s = .next (rejected .cmdBusy 0#3 0 s)

/-- A CMD write that raises an error changes the four error fields and nothing else, and the code is one
of 1 to 5. -/
def Obligations.RejectionIsPrecise : Prop :=
  ∀ (w : Word) (s t : State), s.turn = .host → s.err = false → processCmd w s = .next t → t.err = true →
    t = { s with err := true, errCode := t.errCode, errLane := t.errLane, errAddr := t.errAddr } ∧
      t.errCode ≠ .none

/-- LOAD8 is accepted, whatever LV is, when all eight blocks lie inside the SRAM. -/
def Obligations.Load8IsAcceptedInRange : Prop :=
  ∀ (s : State) (m : AddrMode), Ready s → InRange s.params.memBytes (effectiveAddrs m s) →
    exec (.load8 m) s = .next (accepted .load8 (some (effectiveAddrs m s)) s)

/-- STORE8 is accepted when LV = 1, its blocks lie inside the SRAM and, with C = 0, are disjoint; with
C = 1 they are disjoint by construction. -/
def Obligations.Store8IsAcceptedInRangeAndDisjoint : Prop :=
  ∀ (s : State) (m : AddrMode), Ready s → s.lv = true → InRange s.params.memBytes (effectiveAddrs m s) →
    (m = .independent → Disjoint (effectiveAddrs m s)) →
    exec (.store8 m) s = .next (accepted .store8 (some (effectiveAddrs m s)) s) ∧
      Disjoint (effectiveAddrs m s)

/-- XOR8 and the four round commands are accepted when LV = 1. -/
def Obligations.KeyedCommandsAreAccepted : Prop :=
  ∀ (s : State) (i : Instr), transformsLanes i → Ready s → s.lv = true →
    exec i s = .next (accepted i.opcode none s)

/-- Every command but LOAD8 is rejected with LANES_INVALID while LV = 0. -/
def Obligations.LaneReadersAreRejectedWithoutLanes : Prop :=
  ∀ (s : State) (i : Instr), i.opcode ≠ .load8 → Ready s → s.lv = false →
    exec i s = .next (rejected .lanesInvalid 0#3 0 s)

/-- A LOAD8 or STORE8 with a block outside the SRAM is rejected with MEM_RANGE, the lowest such lane and
its address modulo 2^32 reported. -/
def Obligations.MemRangeReportsTheLowestLane : Prop :=
  ∀ (s : State) (m : AddrMode) (i : Fin 8), Ready s → s.params.memBytes < (effectiveAddrs m s).get i + 16 →
    (∀ j, j < i → (effectiveAddrs m s).get j + 16 ≤ s.params.memBytes) →
    exec (.load8 m) s = .next (rejected .memRange (BitVec.ofNat 3 i.val) ((effectiveAddrs m s).get i) s) ∧
    (s.lv = true →
      exec (.store8 m) s = .next (rejected .memRange (BitVec.ofNat 3 i.val) ((effectiveAddrs m s).get i) s))

/-- A STORE8 with C = 0 in range whose blocks overlap is rejected with STORE_OVERLAP, the smallest lane
`j` that overlaps a lower one reported with its address. -/
def Obligations.StoreOverlapReportsTheSmallestLane : Prop :=
  ∀ (s : State) (i j : Fin 8), Ready s → s.lv = true →
    InRange s.params.memBytes (effectiveAddrs .independent s) →
    i < j → ((s.addr.get i).toNat < (s.addr.get j).toNat + 16 ∧ (s.addr.get j).toNat < (s.addr.get i).toNat + 16) →
    (∀ h k : Fin 8, h < k → k < j →
      (s.addr.get h).toNat + 16 ≤ (s.addr.get k).toNat ∨ (s.addr.get k).toNat + 16 ≤ (s.addr.get h).toNat) →
    exec (.store8 .independent) s =
      .next (rejected .storeOverlap (BitVec.ofNat 3 j.val) (s.addr.get j).toNat s)

/-- 30_encoding.md R63: the effective addresses of both modes, without wrap-around; one past 2^32 is out
of range; no command modifies an ADDR register. -/
def Obligations.EffectiveAddressesDoNotWrap : Prop :=
  (∀ (s : State) (i : Fin 8), (effectiveAddrs .independent s).get i = (s.addr.get i).toNat) ∧
  (∀ (s : State) (i : Fin 8), (effectiveAddrs .contiguous s).get i = (s.addr.get 0).toNat + 16 * i.val) ∧
  (∀ (s : State) (m : AddrMode) (i : Fin 8), (effectiveAddrs m s).get i ≤ 2 ^ 32 - 1 + 112) ∧
  (∀ (s : State) (m : AddrMode) (i : Fin 8), Ready s → s.lv = true →
    s.params.memBytes < (effectiveAddrs m s).get i + 16 →
    ∀ op ∈ [Instr.load8 m, Instr.store8 m], ∃ t, exec op s = .next t ∧ t.errCode = .memRange) ∧
  (∀ (s : State) (i : Fin 8), s.params.wellFormed = true → 2 ^ 32 < (effectiveAddrs .contiguous s).get i + 16 →
    s.params.memBytes < (effectiveAddrs .contiguous s).get i + 16) ∧
  (∀ (s t : State) (i : Instr), exec i s = .next t → t.addr = s.addr)

/-! Commands: completion -/

/-- The completion of LOAD8: byte `j` of lane `i` is the byte the engine read for it in the busy window,
or the SRAM byte `EA[i] + j` now; LV is set; nothing else changes. -/
def Obligations.Load8CompletionLoadsEveryLane : Prop :=
  ∀ (s : State) (m : AddrMode) (sn : Snapshot) (ea : Lanes Nat), InFlight sn s → sn.op = .load8 →
    sn.ea = some ea → InRange s.params.memBytes ea →
    ∃ l : Lanes Block, exec (.load8 m) s = .next (completed { s with lanes := l, lv := true }) ∧
      ∀ (i : Fin 8) (j : Nat), j < 16 → Block.byte (l.get i) j =
        (cellAt s.window.moved (16 * i.val + j)).getD (s.sram.read (ea.get i + j))

/-- The completion of STORE8: every destination byte not yet written takes its lane byte, every other SRAM
byte keeps its value, and lanes, LV and all else stay. -/
def Obligations.Store8CompletionWritesEveryBlock : Prop :=
  ∀ (s : State) (m : AddrMode) (sn : Snapshot) (ea : Lanes Nat), InFlight sn s → sn.op = .store8 →
    sn.ea = some ea → InRange s.params.memBytes ea → Disjoint ea →
    ∃ r : Memory, exec (.store8 m) s = .next (completed { s with sram := r }) ∧
      (∀ (i : Fin 8) (j : Nat), j < 16 → r.read (ea.get i + j) =
        if (cellAt s.window.moved (16 * i.val + j)).isSome then s.sram.read (ea.get i + j)
        else Block.byte (s.lanes.get i) j) ∧
      ∀ a, (∀ i, a < ea.get i ∨ ea.get i + 16 ≤ a) → r.read a = s.sram.read a

/-- 41_xor.md R80: XOR8, its corner cases (key 0 leaves a lane, the lane's own value clears it) and its
example. -/
def Obligations.Xor8CompletionXorsTheKey : Prop :=
  KeyedCommand 0x00000003#32 .xor8 (fun v k => v ^^^ k) ∧
  (∀ v : Block, v ^^^ 0#128 = v ∧ v ^^^ v = 0#128) ∧
  Block.b 0x193de3bea0f4e22b9ac68d2ae9f84808#128 ^^^ Block.b 0xa0fafe1788542cb123a339392a6c7605#128 =
    Block.b 0xb9c71da928a0ce9ab965b413c3943e0d#128

/-- 42_aes_rounds.md R92: AESENC8, its corner cases and its example. -/
def Obligations.Aesenc8CompletionAppliesTheRound : Prop :=
  KeyedCommand 0x00000004#32 .aesenc8 (fun v k => mixColumns (subBytes (shiftRows v)) ^^^ k) ∧
  aesenc 0#128 0#128 = Block.b 0x63636363636363636363636363636363#128 ∧
  aesenc (Block.b 0xffffffffffffffffffffffffffffffff#128) (Block.b 0xffffffffffffffffffffffffffffffff#128) =
    Block.b 0xe9e9e9e9e9e9e9e9e9e9e9e9e9e9e9e9#128 ∧
  aesenc (Block.b 0x193de3bea0f4e22b9ac68d2ae9f84808#128) (Block.b 0xa0fafe1788542cb123a339392a6c7605#128) =
    Block.b 0xa49c7ff2689f352b6b5bea43026a5049#128

/-- 42_aes_rounds.md R93: AESENCLAST8, its corner cases and its example. -/
def Obligations.Aesenclast8CompletionAppliesTheFinalRound : Prop :=
  KeyedCommand 0x00000005#32 .aesenclast8 (fun v k => subBytes (shiftRows v) ^^^ k) ∧
  aesenclast 0#128 0#128 = Block.b 0x63636363636363636363636363636363#128 ∧
  aesenclast (Block.b 0xffffffffffffffffffffffffffffffff#128) (Block.b 0xffffffffffffffffffffffffffffffff#128) =
    Block.b 0xe9e9e9e9e9e9e9e9e9e9e9e9e9e9e9e9#128 ∧
  aesenclast (Block.b 0x193de3bea0f4e22b9ac68d2ae9f84808#128) (Block.b 0xa0fafe1788542cb123a339392a6c7605#128) =
    Block.b 0x7445a32768e07e1f9be228c8344beee0#128

/-- 42_aes_rounds.md R94: AESDEC8, its corner cases, that it does not undo AESENC8 under the same key but,
inside the inverse cipher, does so under InvMixColumns of that key, and its example. -/
def Obligations.Aesdec8CompletionAppliesTheInverseRound : Prop :=
  KeyedCommand 0x00000006#32 .aesdec8 (fun v k => invMixColumns (invSubBytes (invShiftRows v)) ^^^ k) ∧
  aesdec 0#128 0#128 = Block.b 0x52525252525252525252525252525252#128 ∧
  aesdec (Block.b 0xffffffffffffffffffffffffffffffff#128) (Block.b 0xffffffffffffffffffffffffffffffff#128) =
    Block.b 0x82828282828282828282828282828282#128 ∧
  (∃ k v : Block, aesdec (aesenc v k) k ≠ v) ∧
  (∀ k v : Block, aesdec (aesenclast (aesenc v k) 0#128) (invMixColumns k) = aesenclast v 0#128) ∧
  aesdec (Block.b 0x193de3bea0f4e22b9ac68d2ae9f84808#128) (Block.b 0xa0fafe1788542cb123a339392a6c7605#128) =
    Block.b 0x123ecd82bf90896a4c52d233e719f177#128

/-- 42_aes_rounds.md R95: AESDECLAST8, its corner cases (with key 0 it undoes AESENCLAST8 followed by XOR8
with that command's key) and its example. -/
def Obligations.Aesdeclast8CompletionAppliesTheFinalInverseRound : Prop :=
  KeyedCommand 0x00000007#32 .aesdeclast8 (fun v k => invSubBytes (invShiftRows v) ^^^ k) ∧
  aesdeclast 0#128 0#128 = Block.b 0x52525252525252525252525252525252#128 ∧
  (∀ x k : Block, aesdeclast (addRoundKey (aesenclast x k) k) 0#128 = x) ∧
  aesdeclast (Block.b 0x193de3bea0f4e22b9ac68d2ae9f84808#128) (Block.b 0xa0fafe1788542cb123a339392a6c7605#128) =
    Block.b 0x2e1b4a1ccfdff82414197486c1ab4d5f#128

/-- 41_xor.md R81: two XOR8 completions with the same key, the lanes untouched between them, leave every
lane as it was. -/
def Obligations.Xor8TwiceRestoresTheLanes : Prop :=
  ∀ (s t s' : State) (sn sn' : Snapshot), InFlight sn s → sn.op = .xor8 → exec .xor8 s = .next t →
    InFlight sn' s' → sn'.op = .xor8 → sn'.key = sn.key → s'.lanes = t.lanes →
    ∃ u, exec .xor8 s' = .next u ∧ u.lanes = s.lanes

/-- 40_marshalling.md R79: a LOAD8 and a STORE8 to the same eight disjoint blocks, the host writing none
of their bytes from the load to the store, leave the SRAM as it was. -/
def Obligations.LoadThenStoreLeavesTheSram : Prop :=
  ∀ (s t s' : State) (sn sn' : Snapshot) (ea : Lanes Nat) (m m' : AddrMode),
    InFlight sn s → sn.op = .load8 → sn.ea = some ea → TransferAgrees s → exec (.load8 m) s = .next t →
    InFlight sn' s' → sn'.op = .store8 → sn'.ea = some ea → Disjoint ea → InRange s'.params.memBytes ea →
    s'.lanes = t.lanes →
    (∀ (i : Fin 8) (j : Nat), j < 16 → s'.sram.read (ea.get i + j) = s.sram.read (ea.get i + j)) →
    ∃ u, exec (.store8 m') s' = .next u ∧ ∀ a, u.sram.read a = s'.sram.read a

/-- 42_aes_rounds.md R98, for XOR8 and the rounds: equal lanes stay equal, and swapping two lanes before
the completion swaps exactly those two of the result. -/
def Obligations.LanesAreIndependent : Prop :=
  ∀ (s : State) (sn : Snapshot) (c : Instr), transformsLanes c → InFlight sn s → sn.op = c.opcode →
    ∃ l : Lanes Block, exec c s = .next (completed { s with lanes := l }) ∧
      (∀ v, s.lanes = Lanes.all v → ∃ v', l = Lanes.all v') ∧
      ∀ i j : Fin 8, exec c { s with lanes := swapLanes i j s.lanes } =
        .next (completed { s with lanes := swapLanes i j l })

/-! The AES transformations -/

/-- 42_aes_rounds.md R83: xtime, the products by 1, 2 and 3, and the rule's examples; the product
distributes over XOR, the field's addition. -/
def Obligations.FieldProductsFollowXtime : Prop :=
  (∀ a : Byte, gmul a 1#8 = a ∧ gmul a 2#8 = xtime a ∧ gmul a 3#8 = xtime a ^^^ a) ∧
  (∀ a : Byte, xtime a = if a.getLsbD 7 then (a <<< 1) ^^^ 0x1B#8 else a <<< 1) ∧
  (∀ a b : Byte, gmul a b = (List.range 8).foldl (fun acc k => if b.getLsbD k then acc ^^^ xtime^[k] a else acc) 0#8) ∧
  (∀ a b c : Byte, gmul (a ^^^ b) c = gmul a c ^^^ gmul b c) ∧
  xtime 0x57#8 = 0xae#8 ∧ xtime 0xae#8 = 0x47#8 ∧ gmul 0x57#8 0x13#8 = 0xfe#8

/-- 42_aes_rounds.md R84: SubBytes acts on every byte by the table, and the table is the multiplicative
inverse (0 for 0) followed by the affine map. -/
def Obligations.SubBytesIsInverseThenAffine : Prop :=
  (∀ (v : Block) (j : Nat), j < 16 → Block.byte (subBytes v) j = sbox (Block.byte v j)) ∧
  sbox 0x53#8 = 0xed#8 ∧
  ∀ a : Byte, ∃ b : Byte, ((a = 0#8 ∧ b = 0#8) ∨ gmul a b = 1#8) ∧
    sbox a = b ^^^ b.rotateLeft 1 ^^^ b.rotateLeft 2 ^^^ b.rotateLeft 3 ^^^ b.rotateLeft 4 ^^^ 0x63#8

/-- 42_aes_rounds.md R85: InvSubBytes acts on every byte by the inverse permutation of the table. -/
def Obligations.InvSubBytesInvertsSubBytes : Prop :=
  (∀ (v : Block) (j : Nat), j < 16 → Block.byte (invSubBytes v) j = invSbox (Block.byte v j)) ∧
  (∀ a : Byte, invSbox (sbox a) = a ∧ sbox (invSbox a) = a) ∧ invSbox 0x00#8 = 0x52#8 ∧
  ∀ v : Block, invSubBytes (subBytes v) = v ∧ subBytes (invSubBytes v) = v

/-- 42_aes_rounds.md R82, R86, R87: ShiftRows and InvShiftRows on the state matrix and as byte
permutations; the second undoes the first. -/
def Obligations.ShiftRowsRotatesTheRows : Prop :=
  (∀ (v : Block) (r c : Nat), r < 4 → c < 4 →
    aesEntry v r c = Block.byte v (r + 4 * c) ∧
    aesEntry (shiftRows v) r c = aesEntry v r ((c + r) % 4) ∧
    aesEntry (invShiftRows v) r c = aesEntry v r ((c + 4 - r) % 4)) ∧
  (∀ (v : Block) (j : Nat), j < 16 →
    Block.byte (shiftRows v) j = Block.byte v ([0, 5, 10, 15, 4, 9, 14, 3, 8, 13, 2, 7, 12, 1, 6, 11].getD j 0) ∧
    Block.byte (invShiftRows v) j =
      Block.byte v ([0, 13, 10, 7, 4, 1, 14, 11, 8, 5, 2, 15, 12, 9, 6, 3].getD j 0)) ∧
  ∀ v : Block, invShiftRows (shiftRows v) = v ∧ shiftRows (invShiftRows v) = v

/-- 42_aes_rounds.md R88, R89: every column of MixColumns and InvMixColumns, their examples, and that the
second undoes the first. -/
def Obligations.InvMixColumnsInvertsMixColumns : Prop :=
  (∀ (v : Block) (c : Nat), c < 4 →
    let a0 := aesEntry v 0 c; let a1 := aesEntry v 1 c; let a2 := aesEntry v 2 c; let a3 := aesEntry v 3 c
    aesEntry (mixColumns v) 0 c = gmul a0 2#8 ^^^ gmul a1 3#8 ^^^ a2 ^^^ a3 ∧
    aesEntry (mixColumns v) 1 c = a0 ^^^ gmul a1 2#8 ^^^ gmul a2 3#8 ^^^ a3 ∧
    aesEntry (mixColumns v) 2 c = a0 ^^^ a1 ^^^ gmul a2 2#8 ^^^ gmul a3 3#8 ∧
    aesEntry (mixColumns v) 3 c = gmul a0 3#8 ^^^ a1 ^^^ a2 ^^^ gmul a3 2#8 ∧
    aesEntry (invMixColumns v) 0 c = gmul a0 0x0e#8 ^^^ gmul a1 0x0b#8 ^^^ gmul a2 0x0d#8 ^^^ gmul a3 0x09#8 ∧
    aesEntry (invMixColumns v) 1 c = gmul a0 0x09#8 ^^^ gmul a1 0x0e#8 ^^^ gmul a2 0x0b#8 ^^^ gmul a3 0x0d#8 ∧
    aesEntry (invMixColumns v) 2 c = gmul a0 0x0d#8 ^^^ gmul a1 0x09#8 ^^^ gmul a2 0x0e#8 ^^^ gmul a3 0x0b#8 ∧
    aesEntry (invMixColumns v) 3 c = gmul a0 0x0b#8 ^^^ gmul a1 0x0d#8 ^^^ gmul a2 0x09#8 ^^^ gmul a3 0x0e#8) ∧
  ((List.range 4).map (mixColumnRow 0xd4#8 0xbf#8 0x5d#8 0x30#8) = [0x04#8, 0x66#8, 0x81#8, 0xe5#8]) ∧
  ((List.range 4).map (invMixColumnRow 0x04#8 0x66#8 0x81#8 0xe5#8) = [0xd4#8, 0xbf#8, 0x5d#8, 0x30#8]) ∧
  ∀ v : Block, invMixColumns (mixColumns v) = v

/-- 42_aes_rounds.md R90: AddRoundKey is XOR; SubBytes commutes with ShiftRows and InvSubBytes with
InvShiftRows, so the source's order of steps gives the same round. -/
def Obligations.SubBytesCommutesWithShiftRows : Prop :=
  (∀ v k : Block, addRoundKey v k = v ^^^ k) ∧
  (∀ v : Block, subBytes (shiftRows v) = shiftRows (subBytes v)) ∧
  (∀ v : Block, invSubBytes (invShiftRows v) = invShiftRows (invSubBytes v)) ∧
  ∀ v k : Block, addRoundKey (mixColumns (shiftRows (subBytes v))) k = aesenc v k

/-- 42_aes_rounds.md R97: the decryption key sequence `K[Nr], InvMixColumns(K[Nr-1]), .., InvMixColumns(K[1]),
K[0]` inverts the encryption with `K[0..Nr]`, for every number of middle rounds; with the middle keys left
unmodified it does not in general. -/
def Obligations.DecryptionSequenceInvertsEncryption : Prop :=
  (∀ (k0 kN : Block) (ks : List Block) (v : Block),
    decryptLane kN (ks.reverse.map invMixColumns) k0 (encryptLane k0 ks kN v) = v) ∧
  ∀ n ∈ [9, 11, 13], ∃ (k0 kN : Block) (ks : List Block) (v : Block), ks.length = n ∧
    decryptLane kN ks.reverse k0 (encryptLane k0 ks kN v) ≠ v

/-! Invariants and whole-machine rules -/

/-- The invariant holds in the state after reset, whatever the parameters are. -/
def Obligations.ResetMeetsTheInvariant : Prop :=
  Inv State.reset ∧ ∀ p : Params, p.wellFormed = true → Inv (State.resetWith p)

/-- From every state that meets the invariant the step answers a next state, which meets it too: nothing
stops the machine, every host access is answered, and the facts of 10_state.md R38 are kept. -/
def Obligations.EveryStepGoesOnAndKeepsTheInvariant : Prop :=
  ∀ s : State, Inv s → ∃ t, step s = .next t ∧ Inv t

/-- 70_reset_and_hazards.md R119, R120: a clock edge with `rst` = 1 gives every register its reset value,
in whatever state the engine is; the SRAM and the parameters stay. What the lanes hold is not said. -/
def Obligations.ResetEdgeSetsEveryRegister : Prop :=
  ∀ s : State, s.turn = .engine → s.cycle.rst = true → ∃ t, step s = .next t ∧
    t.lv = false ∧ t.key = ⟨0#32, 0#32, 0#32, 0#32⟩ ∧ t.addr = Lanes.all 0#32 ∧
    t.doneIE = false ∧ t.errIE = false ∧ t.busy = false ∧ t.done = false ∧ t.err = false ∧
    t.errCode = .none ∧ t.errLane = 0#3 ∧ t.errAddr = 0#32 ∧ t.snapshot = none ∧
    readCsr 0x00#8 t = 0x41455338#32 ∧ t.irq = false ∧ t.sram = s.sram ∧ t.params = s.params

/-- 70_reset_and_hazards.md R118: while `rst` = 1 a CSR read returns 0 and a CSR write, of CMD too, is
ignored. The bus error flag (log 9) and the data a write answers (log 13) are left open. -/
def Obligations.CsrAccessesDoNothingInReset : Prop :=
  ∀ (s : State) (off : BitVec 8) (size : Nat) (w : Word), s.turn = .host → s.cycle.rst = true →
    s.snapshot = none →
    (s.cycle.portAccess s.params = some (.csrRead off size) →
      ∃ e, step s = .next (endCycle { s with resp := some ⟨0#32, e⟩ })) ∧
    (s.cycle.portAccess s.params = some (.csrWrite off size w) →
      ∃ (d : Word) (e : Bool), step s = .next (endCycle { s with resp := some ⟨d, e⟩ }))

/-- The bytes a LOAD8 reads early: each is the SRAM byte at that moment, a byte already read is not read
again, and nothing else changes. -/
def Obligations.LoadReadsEachByteOnce : Prop :=
  ∀ (s : State) (sn : Snapshot) (ea : Lanes Nat) (ks : List Nat), s.snapshot = some sn → sn.op = .load8 →
    sn.ea = some ea → InRange s.params.memBytes ea →
    ∃ m : List Host.Cell, moveBytes ks s = .next { s with window := { s.window with moved := m } } ∧
      ∀ k, cellAt m k = match cellAt s.window.moved k with
        | some v => some v
        | none => if k ∈ ks ∧ k < 128 then some (s.sram.read (transferAddr ea k)) else none

/-- The bytes a STORE8 writes early: a destination byte among them, not yet written, takes its lane byte,
and every other SRAM byte keeps its value. -/
def Obligations.StoreWritesEachByteOnce : Prop :=
  ∀ (s : State) (sn : Snapshot) (ea : Lanes Nat) (ks : List Nat), s.snapshot = some sn → sn.op = .store8 →
    sn.ea = some ea → InRange s.params.memBytes ea → Disjoint ea →
    ∃ (m : List Host.Cell) (r : Memory),
      moveBytes ks s = .next { s with sram := r, window := { s.window with moved := m } } ∧
      (∀ k, cellAt m k = match cellAt s.window.moved k with
        | some v => some v
        | none => if k ∈ ks ∧ k < 128 then some (laneByte s.lanes k) else none) ∧
      (∀ (i : Fin 8) (j : Nat), j < 16 → r.read (ea.get i + j) =
        if 16 * i.val + j ∈ ks ∧ cellAt s.window.moved (16 * i.val + j) = none then Block.byte (s.lanes.get i) j
        else s.sram.read (ea.get i + j)) ∧
      ∀ a, (∀ i, a < ea.get i ∨ ea.get i + 16 ≤ a) → r.read a = s.sram.read a

/-- With no concurrent writer (the host writes no byte of the batch in flight), every byte moved goes on
agreeing with the SRAM, and a LOAD8's source bytes keep their values. -/
def Obligations.NoRaceKeepsTheTransferExact : Prop :=
  ∀ s t : State, Inv s → TransferAgrees s → HostLeavesBatch s → step s = .next t →
    TransferAgrees t ∧
    ∀ sn a, s.snapshot = some sn → sn.op = .load8 → s.inBatch a = true → t.sram.read a = s.sram.read a

/-- With no concurrent writer a completing LOAD8 leaves in the lanes exactly the SRAM content, and a
completing STORE8 leaves in the SRAM exactly the lane bytes. -/
def Obligations.NoRaceTransferCompletesExactly : Prop :=
  ∀ (s : State) (sn : Snapshot) (ea : Lanes Nat) (m : AddrMode), Inv s → TransferAgrees s → InFlight sn s →
    sn.ea = some ea →
    (sn.op = .load8 → ∃ t, exec (.load8 m) s = .next t ∧
      ∀ (i : Fin 8) (j : Nat), j < 16 → Block.byte (t.lanes.get i) j = s.sram.read (ea.get i + j)) ∧
    (sn.op = .store8 → ∃ t, exec (.store8 m) s = .next t ∧
      ∀ (i : Fin 8) (j : Nat), j < 16 → t.sram.read (ea.get i + j) = Block.byte (s.lanes.get i) j)

/-- The cycle of completion: never before LAT_MIN, at LAT_MAX at the latest; until then the command stays
in flight and grows one cycle older. -/
def Obligations.CompletionFallsBetweenTheLatencies : Prop :=
  ∀ s t : State, Inv s → s.turn = .engine → s.busy = true → s.cycle.rst = false → step s = .next t →
    (t.busy = false → s.params.latMin ≤ s.window.age + 1 ∧ s.window.age + 1 ≤ s.params.latMax ∧
      t.done = true ∧ t.snapshot = none) ∧
    (t.busy = true → t.window.age = s.window.age + 1 ∧ t.snapshot = s.snapshot ∧ t.done = s.done) ∧
    (s.window.age + 1 = s.params.latMax → t.busy = false)

/-- Every accepted command completes: from any state with a command in flight, if `rst` stays 0, at most
`LAT_MAX - age` cycles bring the turn at which it has completed. That a cycle is two steps is log 1, and
that `age` counts the cycles since the cycle of acceptance is log 14: the bound is the model's in both. -/
def Obligations.EveryAcceptedCommandCompletes : Prop :=
  ∀ s : State, Inv s → s.turn = .engine → s.busy = true →
    (∀ c ∈ s.inputs.take (s.params.latMax - s.window.age), c.rst = false) →
    ∃ k t, k + 1 ≤ 2 * (s.params.latMax - s.window.age) ∧ Host.Core.run Sys2Proof.core k s = .next t ∧
      t.doneNow = true ∧ t.done = true ∧ t.busy = false

/-- What the host can see of the engine's control, and when a command completes, depends on no lane, key
or SRAM value: states alike but for data step to states alike but for data. And whether a command completes
on an engine's turn depends on the parameters, its age and the cycle alone, so on no lane, key or address,
nor on which command it is (70_reset_and_hazards.md R128). -/
def Obligations.ControlDependsOnNoData : Prop :=
  (∀ s s' t : State, withoutData s = withoutData s' → step s = .next t →
    ∃ t', step s' = .next t' ∧ withoutData t' = withoutData t) ∧
  ∀ s s' : State, Inv s → Inv s' → s.turn = .engine → s'.turn = .engine → s.busy = true → s'.busy = true →
    s.cycle.rst = false → s'.cycle.rst = false → s.cycle.finish = s'.cycle.finish → s.params = s'.params →
    s.window.age = s'.window.age →
    ∃ t t', step s = .next t ∧ step s' = .next t' ∧ t.busy = t'.busy ∧ t.doneNow = t'.doneNow ∧
      t.window.age = t'.window.age

/-- 10_state.md R13: while LV = 0 no lane value is read: with other lane values the step is the same but
for the lanes, and once LV is set the lanes are the same too. -/
def Obligations.UnloadedLanesAreNeverRead : Prop :=
  ∀ (s t : State) (l : Lanes Block), Inv s → s.lv = false → step s = .next t →
    ∃ m, step { s with lanes := l } = .next { t with lanes := m } ∧ (t.lv = true → m = t.lanes)

/-- 10_state.md R11, R12: a lane register changes only on the engine's turn, at reset or at the completion
of a command other than STORE8. -/
def Obligations.LanesChangeOnlyAtCompletion : Prop :=
  ∀ s t : State, step s = .next t → t.lanes ≠ s.lanes →
    s.turn = .engine ∧ (s.cycle.rst = true ∨
      ∃ sn, s.snapshot = some sn ∧ sn.op ≠ .store8 ∧ s.busy = true ∧ t.busy = false ∧ t.done = true)

/-- 10_state.md R29: the STATUS fields change only by acceptance, completion, rejection, a STATUS write and
reset, and by each only as the rule says. -/
def Obligations.StatusChangesOnlyByItsEvents : Prop :=
  ∀ s t : State, s.cycle.rst = false → step s = .next t →
    (s.turn = .engine →
      statusFields t = statusFields s ∨
      ∃ sn, s.busy = true ∧ s.snapshot = some sn ∧
        statusFields t = statusFields { s with busy := false, done := true, lv := s.lv || sn.op = .load8 }) ∧
    (s.turn = .host →
      statusFields t = statusFields s ∨
      (∃ w, s.cycle.portAccess s.params = some (.csrWrite 0x0C#8 4 w) ∧
        (statusFields t = statusFields { s with busy := true } ∨
          ∃ c n a, c ≠ .none ∧ statusFields t = statusFields (rejected c n a s))) ∨
      ∃ w, s.cycle.portAccess s.params = some (.csrWrite 0x08#8 4 w) ∧
        statusFields t = statusFields (writeStatus w s))

/-- The engine never writes a register of the host: without reset, KEY, ADDR and CTRL keep their values on
its turn, and on the host's turn unless the host writes that very register. -/
def Obligations.HostRegistersChangeOnlyByTheirWrites : Prop :=
  ∀ s t : State, s.cycle.rst = false → step s = .next t →
    (s.turn = .engine → t.key = s.key ∧ t.addr = s.addr ∧ t.doneIE = s.doneIE ∧ t.errIE = s.errIE) ∧
    (s.turn = .host →
      (∀ i : Fin 8, (∀ w, s.cycle.portAccess s.params ≠ some (.csrWrite (BitVec.ofNat 8 (0x20 + 4 * i.val)) 4 w)) →
        t.addr.get i = s.addr.get i) ∧
      (∀ i : Fin 4, (∀ w, s.cycle.portAccess s.params ≠ some (.csrWrite (BitVec.ofNat 8 (0x10 + 4 * i.val)) 4 w)) →
        t.key.word i.val = s.key.word i.val) ∧
      ((∀ w, s.cycle.portAccess s.params ≠ some (.csrWrite 0x04#8 4 w)) →
        t.doneIE = s.doneIE ∧ t.errIE = s.errIE))

/-- An SRAM byte changes only by a host write to it or by the STORE8 in flight, which gives it its lane
byte. -/
def Obligations.SramChangesOnlyByHostOrStore : Prop :=
  ∀ (s t : State) (a : Nat), step s = .next t → t.sram.read a ≠ s.sram.read a →
    (s.turn = .host ∧ ∃ p, s.cycle.portAccess s.params = some p ∧ p.writesByte s.params.memBytes a = true) ∨
    ∃ sn ea k, (s.snapshot = some sn ∨ t.snapshot = some sn) ∧ sn.op = .store8 ∧ sn.ea = some ea ∧ k < 128 ∧
      a = transferAddr ea k ∧ t.sram.read a = laneByte s.lanes k

/-- The operands of the command in flight stay: no host access changes its snapshot, nor ends it. -/
def Obligations.SnapshotSurvivesTheHost : Prop :=
  ∀ s t : State, s.turn = .host → s.busy = true → step s = .next t → t.snapshot = s.snapshot ∧ t.busy = true

/-- In the cycle of a completion, a STATUS write leaves DONE = 1 and a CMD write does not meet BUSY
(60_exceptions.md R110). That DONE = 1 after that CMD write is read from 10_state.md R22, R29 against a
vector of the spec (log 19). -/
def Obligations.CompletionComesBeforeTheHost : Prop :=
  ∀ (s t u : State) (w : Word), Inv s → s.turn = .engine → s.cycle.rst = false → s.busy = true →
    step s = .next t → t.busy = false → step t = .next u →
    (s.cycle.portAccess s.params = some (.csrWrite 0x08#8 4 w) → u.done = true) ∧
    (s.cycle.portAccess s.params = some (.csrWrite 0x0C#8 4 w) → u.done = true ∧
      (s.err = false → u.errCode ≠ .cmdBusy ∧
        (∀ i, transformsLanes i → decodeCmd w = .ok i → t.lv = true → u.busy = true ∧ u.err = false)))

/-! The host's view -/

/-- 10_state.md R28: a read of STATUS on the host's port answers the fields at their places, every reserved
bit 0, and changes nothing else. -/
def Obligations.StatusReadsItsFields : Prop :=
  ∀ s : State, ∃ r : Word, servePort false (.csrRead 0x08#8 4) s = .next { s with resp := some ⟨r, false⟩ } ∧
    r = readCsr 0x08#8 s ∧
    r = s.errLane.setWidth 32 <<< 12 ||| s.errCode.code.setWidth 32 <<< 8 |||
      (BitVec.ofBool s.lv).setWidth 32 <<< 3 ||| (BitVec.ofBool s.err).setWidth 32 <<< 2 |||
      (BitVec.ofBool s.done).setWidth 32 <<< 1 ||| (BitVec.ofBool s.busy).setWidth 32 ∧
    r.extractLsb' 4 4 = 0#4 ∧ r.extractLsb' 15 17 = 0#17 ∧
    r.getLsbD 0 = s.busy ∧ r.getLsbD 1 = s.done ∧ r.getLsbD 2 = s.err ∧ r.getLsbD 3 = s.lv ∧
    r.extractLsb' 8 4 = s.errCode.code ∧ r.extractLsb' 12 3 = s.errLane

/-- 10_state.md R27, R22: a write of STATUS on the host's port clears DONE with bit 1, unless a completion
fell in this cycle, and ERR, ERRCODE, ERRLANE, ERRADDR with bit 2; no other bit of it does anything. The
data it answers is left open (log 13). -/
def Obligations.StatusWriteClearsByBit : Prop :=
  ∀ (s : State) (w : Word), ∃ d : Word, servePort false (.csrWrite 0x08#8 4 w) s = .next
    { s with
      done := if w.getLsbD 1 = true ∧ s.doneNow = false then false else s.done
      err := if w.getLsbD 2 then false else s.err
      errCode := if w.getLsbD 2 then .none else s.errCode
      errLane := if w.getLsbD 2 then 0#3 else s.errLane
      errAddr := if w.getLsbD 2 then 0#32 else s.errAddr
      resp := some ⟨d, false⟩ }

/-- On the host's port a read at a multiple of 4 answers what the register there holds, and a write there,
of another register than CMD, writes it. KEYw, ADDRi and CTRL take what the host writes and read it back
(CTRL its two bits), and a write of one changes no other part of the state. The data a write answers is
left open (log 13). -/
def Obligations.HostRegistersReadBack : Prop :=
  ∀ (s : State) (w : Word),
    (∀ off : BitVec 8, off.toNat % 4 = 0 →
      servePort false (.csrRead off 4) s = .next { s with resp := some ⟨readCsr off s, false⟩ } ∧
      (off ≠ 0x0C#8 → ∃ d : Word,
        servePort false (.csrWrite off 4 w) s = .next { writeCsr off w s with resp := some ⟨d, false⟩ })) ∧
    (∀ i : Fin 8, ∃ l, writeCsr (BitVec.ofNat 8 (0x20 + 4 * i.val)) w s = { s with addr := l } ∧
      ∀ j : Fin 8, readCsr (BitVec.ofNat 8 (0x20 + 4 * j.val)) { s with addr := l } =
        if j = i then w else s.addr.get j) ∧
    (∀ i : Fin 4, ∃ k, writeCsr (BitVec.ofNat 8 (0x10 + 4 * i.val)) w s = { s with key := k } ∧
      ∀ j : Fin 4, readCsr (BitVec.ofNat 8 (0x10 + 4 * j.val)) { s with key := k } =
        if j = i then w else s.key.word j.val) ∧
    ∃ d e, writeCsr 0x04#8 w s = { s with doneIE := d, errIE := e } ∧
      readCsr 0x04#8 { s with doneIE := d, errIE := e } = w &&& 3#32

/-- 10_state.md R15: `KEY = KEY3 || KEY2 || KEY1 || KEY0`, byte `b` of KEYw is byte `4w + b` of the key, and
the rule's example. The four words that `setkey` writes for a key are that key. -/
def Obligations.KeyIsItsFourWords : Prop :=
  (∀ (k : KeyRegs) (w b : Nat), w < 4 → b < 4 →
    Block.byte k.block (4 * w + b) = (k.word w).extractLsb' (8 * b) 8) ∧
  (∀ k : KeyRegs, k.block = (k.k3 ++ k.k2 ++ k.k1 ++ k.k0 : BitVec (32 + 32 + 32 + 32))) ∧
  (⟨0x16157e2b#32, 0xa6d2ae28#32, 0x8815f7ab#32, 0x3c4fcf09#32⟩ : KeyRegs).block =
    Block.b 0x2b7e151628aed2a6abf7158809cf4f3c#128 ∧
  ∀ k : Block, ∃ q : KeyRegs, q.block = k ∧ setkeyOps k = [.access (.csrWrite 0x10#8 4 q.k0),
    .access (.csrWrite 0x14#8 4 q.k1), .access (.csrWrite 0x18#8 4 q.k2), .access (.csrWrite 0x1C#8 4 q.k3)]

/-- 10_state.md R19, R30, R31, R32, on the host's port at a multiple of 4: ID is a constant, CMD reads 0,
reserved offsets read 0, and a write of ID, ERRADDR or a reserved offset changes nothing but the answer,
which has no bus error and data left open (log 13). -/
def Obligations.ReadOnlyAndReservedOffsetsIgnoreWrites : Prop :=
  ∀ (s : State) (w : Word) (off : BitVec 8), off.toNat % 4 = 0 →
    (off = 0x00#8 → servePort false (.csrRead off 4) s = .next { s with resp := some ⟨0x41455338#32, false⟩ }) ∧
    (off = 0x0C#8 → servePort false (.csrRead off 4) s = .next { s with resp := some ⟨0#32, false⟩ }) ∧
    (off = 0x40#8 → servePort false (.csrRead off 4) s = .next { s with resp := some ⟨s.errAddr, false⟩ }) ∧
    (0x44 ≤ off.toNat → servePort false (.csrRead off 4) s = .next { s with resp := some ⟨0#32, false⟩ }) ∧
    (off = 0x00#8 ∨ off = 0x40#8 ∨ 0x44 ≤ off.toNat → ∃ d : Word,
      servePort false (.csrWrite off 4 w) s = .next { s with resp := some ⟨d, false⟩ })

/-- 20_memory.md R45: the host's SRAM port is little-endian: byte `k` of the data is SRAM byte `a + k`, in
both directions, and a write changes no other byte. It holds in every state, so also for a destination byte
of a STORE8 in flight that the host has written in the busy window: that a read answers the byte as it stands
there is the model's choice (log 22). The data bits above the access are 0 as in 95_test_vectors.md §2.12; the
data a write answers is left open (log 13). -/
def Obligations.HostMemoryIsLittleEndian : Prop :=
  ∀ (s : State) (a n : Nat) (d : Word), n = 1 ∨ n = 2 ∨ n = 4 → a % n = 0 →
    a + n ≤ s.params.memBytes →
    (∃ r : Word, servePort false (.memRead a n) s = .next { s with resp := some ⟨r, false⟩ } ∧
      ∀ k, k < 4 → r.extractLsb' (8 * k) 8 = if k < n then s.sram.read (a + k) else 0#8) ∧
    ∃ (m : Memory) (r : Word),
      servePort false (.memWrite a n d) s = .next { s with sram := m, resp := some ⟨r, false⟩ } ∧
      ∀ b, m.read b = if a ≤ b ∧ b < a + n then d.extractLsb' (8 * (b - a)) 8 else s.sram.read b

/-- 10_state.md R33, 20_memory.md R47: a CSR access of another size than 4 or at another offset than a
multiple of 4, and a host SRAM access that is misaligned, out of range or of another size than 1, 2 or 4
(92_eei_decisions.md D22), answer a bus error and change no other state; a read so answered has data 0, and
the data of a write is left open (log 13). -/
def Obligations.BadHostAccessIsABusError : Prop :=
  ∀ (s : State) (w : Word),
    (∀ (off : BitVec 8) (size : Nat), size ≠ 4 ∨ off.toNat % 4 ≠ 0 →
      servePort false (.csrRead off size) s = .next { s with resp := some ⟨0#32, true⟩ } ∧
      ∃ d : Word, servePort false (.csrWrite off size w) s = .next { s with resp := some ⟨d, true⟩ }) ∧
    ∀ a n : Nat, (n ≠ 1 ∧ n ≠ 2 ∧ n ≠ 4) ∨ a % n ≠ 0 ∨ s.params.memBytes < a + n →
      servePort false (.memRead a n) s = .next { s with resp := some ⟨0#32, true⟩ } ∧
      ∃ d : Word, servePort false (.memWrite a n w) s = .next { s with resp := some ⟨d, true⟩ }

/-- 60_exceptions.md R109: the interrupt output is the two enabled sources, each gone once its STATUS bit is
cleared by a write of STATUS. -/
def Obligations.IrqIsTheEnabledSources : Prop :=
  (∀ s : State, s.irq = ((s.done && s.doneIE) || (s.err && s.errIE))) ∧
  ∀ s : State, s.doneNow = false → (writeCsr 0x08#8 0x6#32 s).irq = false ∧
    ((writeCsr 0x08#8 0x2#32 s).irq = (s.err && s.errIE)) ∧
    ((writeCsr 0x08#8 0x4#32 s).irq = (s.done && s.doneIE))

/-- 20_memory.md R40: a host address in the CSR window is a CSR access at its offset, and one in the SRAM
window an SRAM access at its SRAM address. -/
def Obligations.HostWindowsLeadToThePorts : Prop :=
  ∀ (p : Params) (size : Nat) (d : Word),
    (∀ off : BitVec 8, (HostAccess.busRead (p.csrBase + off.toNat) size).onPort p = some (.csrRead off size) ∧
      (HostAccess.busWrite (p.csrBase + off.toNat) size d).onPort p = some (.csrWrite off size d)) ∧
    ∀ a, a < p.memBytes → (p.sramBase + a < p.csrBase ∨ p.csrBase + 256 ≤ p.sramBase + a) →
      (HostAccess.busRead (p.sramBase + a) size).onPort p = some (.memRead a size) ∧
      (HostAccess.busWrite (p.sramBase + a) size d).onPort p = some (.memWrite a size d)
end

