-- ==== Sys2Proof/Laws/HostProgram.lean ====
section
/-! SUPPORT. What one cycle of a host program's run can do, said once, and how runs compose. -/

namespace Sys2Proof.Machine

@[simp] theorem HostRun.issued_issue (k : Schedule) (r : HostRun) (h : k.issue = true) :
    r.issued k = r.ops.head? := if_pos h

@[simp] theorem HostRun.issued_pause (k : Schedule) (r : HostRun) (h : k.issue = false) : r.issued k = none :=
  if_neg (by simp [h])

@[simp] theorem HostRun.afterCycle_none (s : State) (r : HostRun) : r.afterCycle none s = { r with machine := s } :=
  rfl

@[simp] theorem HostRun.afterCycle_some (o : HostOp) (s : State) (r : HostRun) :
    r.afterCycle (some o) s = r.made o s := rfl

@[simp] theorem HostRun.made_machine (o : HostOp) (s : State) (r : HostRun) : (r.made o s).machine = s := by
  dsimp only [HostRun.made]
  split <;> rfl

/-- Bit 0 of STATUS is BUSY (10_state.md R28). -/
theorem State.statusWord_busy (s : State) : s.statusWord.getLsbD 0 = s.busy := by
  simp [State.statusWord, bitWord]

/-- A `wait` that has read STATUS is done iff BUSY was 0; the program is no further in error. -/
theorem HostRun.made_wait {s : State} {e : Bool} (r : HostRun) (h : s.resp = some ⟨s.statusWord, e⟩) :
    (r.made .wait s).ops = (if s.busy then r.ops else r.ops.tail) ∧ (r.made .wait s).inError = r.inError := by
  simp only [HostRun.made, h, Option.getD_some, HostOp.repeats, HostOp.fails, State.statusWord_busy]
  cases s.busy <;> simp

/-- A cycle that goes on is the machine's two turns, and then the host's account of the answer. -/
theorem runCycle_next {k : Schedule} {r u : HostRun} (h : runCycle k r = .next u) :
    ∃ s, andThen (step { r.machine with inputs := [hostCycle k (r.issued k)] }) step = .next s ∧
      u = r.afterCycle (r.issued k) s := by
  unfold runCycle at h
  split at h
  · exact ⟨_, ‹_›, by cases h; rfl⟩
  · cases h
  · cases h

/-- A run through two schedules is the second after the first. -/
theorem runHost_append {ks ls : List Schedule} {r u : HostRun} (h : runHost ks r = .next u) :
    runHost (ks ++ ls) r = runHost ls u := by
  induction ks generalizing r with
  | nil => cases h; rfl
  | cons k ks ih =>
    simp only [runHost, List.cons_append] at h ⊢
    split at h
    · exact ih h
    · cases h
    · cases h

end Sys2Proof.Machine
end

