-- ==== Sys2Proof/Laws/Lanes.lean ====
section
/-! SUPPORT. The eight-lane shape and the bytes of a block: reading back what was built. -/

namespace Sys2Proof

@[simp] theorem Lanes.get_map {α β : Type} (f : α → β) (l : Lanes α) (i : Fin 8) :
    (l.map f).get i = f (l.get i) := by
  fin_cases i <;> rfl

@[simp] theorem Lanes.get_ofFn {α : Type} (f : Fin 8 → α) (i : Fin 8) : (Lanes.ofFn f).get i = f i := by
  fin_cases i <;> rfl

@[simp] theorem Lanes.get_all {α : Type} (a : α) (i : Fin 8) : (Lanes.all a).get i = a := by
  fin_cases i <;> rfl

@[simp] theorem Lanes.get_set {α : Type} (l : Lanes α) (i j : Fin 8) (a : α) :
    (l.set i a).get j = if j = i then a else l.get j := by
  simp [Lanes.set]

/-- Lanes are equal when every entry is. -/
theorem Lanes.eq_of_get {α : Type} {l m : Lanes α} (h : ∀ i, l.get i = m.get i) : l = m := by
  cases l; cases m
  simp only [Lanes.mk.injEq]
  exact ⟨h 0, h 1, h 2, h 3, h 4, h 5, h 6, h 7⟩

@[simp] theorem mem_laneIndices (i : Fin 8) : i ∈ laneIndices := by
  fin_cases i <;> simp [laneIndices]

/-- Byte `j` of a block, bit by bit. -/
theorem Block.getLsbD_byte (v : Block) (j k : Nat) (hk : k < 8) :
    (Block.byte v j).getLsbD k = v.getLsbD (8 * j + k) := by
  simp [Block.byte, hk]

/-- The bits of a block built from its first bytes. -/
theorem Block.getLsbD_firstBytes (f : Nat → Byte) (n i : Nat) (hi : i < 128) :
    (Block.firstBytes f n).getLsbD i = (decide (i < 8 * n) && (f (i / 8)).getLsbD (i % 8)) := by
  induction n with
  | zero => simp [Block.firstBytes]
  | succ k ih =>
    simp only [Block.firstBytes, BitVec.getLsbD_or, ih, BitVec.getLsbD_shiftLeft, BitVec.getLsbD_setWidth, hi,
      decide_true, Bool.true_and]
    by_cases h1 : i < 8 * k
    · have h2 : i < 8 * (k + 1) := by omega
      simp [h1, h2]
    · by_cases h2 : i < 8 * (k + 1)
      · have h3 : i / 8 = k := by omega
        have h4 : i - 8 * k = i % 8 := by omega
        have h5 : i % 8 < 128 := by omega
        simp [h1, h2, h3, h4, h5]
      · have h3 : 8 ≤ i - 8 * k := by omega
        have h4 : (f k).getLsbD (i - 8 * k) = false := BitVec.getLsbD_of_ge _ _ h3
        simp [h1, h2, h4]

/-- Byte `j` of the block built from bytes `f` is `f j`. -/
@[simp] theorem Block.byte_ofBytes (f : Nat → Byte) (j : Nat) (hj : j < 16) :
    Block.byte (Block.ofBytes f) j = f j := by
  apply BitVec.eq_of_getLsbD_eq
  intro k hk
  have h1 : (8 * j + k) / 8 = j := by omega
  have h2 : (8 * j + k) % 8 = k := by omega
  have h3 : 8 * j + k < 8 * 16 := by omega
  rw [Block.getLsbD_byte _ _ _ hk, Block.ofBytes, Block.getLsbD_firstBytes _ _ _ (by omega), h1, h2]
  simp [h3]

/-- Blocks are equal when every byte is. -/
theorem Block.eq_of_byte {v w : Block} (h : ∀ j, j < 16 → Block.byte v j = Block.byte w j) : v = w := by
  apply BitVec.eq_of_getLsbD_eq
  intro n hn
  have hb := h (n / 8) (by omega)
  have := congrArg (fun b => b.getLsbD (n % 8)) hb
  simpa [Block.getLsbD_byte _ _ _ (Nat.mod_lt n (by decide : 8 > 0)), Nat.div_add_mod] using this

@[simp] theorem Block.byte_xor (v w : Block) (j : Nat) :
    Block.byte (v ^^^ w) j = Block.byte v j ^^^ Block.byte w j := by
  apply BitVec.eq_of_getLsbD_eq
  intro k hk
  simp [Block.getLsbD_byte _ _ _ hk]

end Sys2Proof
end

