-- ==== Sys2Proof/Laws/Memory.lean ====
section
/-! SUPPORT. The block SRAM: read after write, and the canonical form that every operation keeps. -/

namespace Sys2Proof.Machine

theorem cellAt_setCell (m : List Host.Cell) (a b : Nat) (v : Byte) :
    cellAt (setCell m a v) b = if a = b then some v else cellAt m b := by
  induction m with
  | nil => simp [setCell, cellAt]
  | cons c rest ih =>
    obtain ⟨k, w⟩ := c
    unfold setCell
    split
    · simp [cellAt]
    · split
      · subst k; by_cases h : a = b <;> simp [cellAt, h]
      · rename_i hk
        by_cases hb : k = b
        · subst b; simp [cellAt, Ne.symm hk]
        · simp [cellAt, hb, ih]

theorem cellAt_dropCell (m : List Host.Cell) (a b : Nat) :
    cellAt (dropCell m a) b = if a = b then none else cellAt m b := by
  induction m with
  | nil => simp [dropCell, cellAt]
  | cons c rest ih =>
    obtain ⟨k, w⟩ := c
    unfold dropCell
    split
    · subst k; rw [ih]; by_cases h : a = b <;> simp [cellAt, h]
    · rename_i hk
      by_cases hb : k = b
      · subst b; simp [cellAt, Ne.symm hk]
      · simp [cellAt, hb, ih]

/-- Reading a byte after a write gives the byte written there and the old byte elsewhere. -/
@[simp] theorem Memory.read_write (m : Memory) (a b : Nat) (v : Byte) :
    Memory.read (Memory.write m a v) b = if a = b then v else Memory.read m b := by
  unfold Memory.read Memory.write
  split
  · rename_i hv
    rw [cellAt_dropCell]
    by_cases h : a = b <;> simp [h, hv]
  · rw [cellAt_setCell]
    by_cases h : a = b <;> simp [h]

theorem mem_dropCell {m : List Host.Cell} {a : Nat} {c : Host.Cell} (h : c ∈ dropCell m a) : c ∈ m := by
  induction m with
  | nil => simp [dropCell] at h
  | cons d rest ih =>
    obtain ⟨k, w⟩ := d
    unfold dropCell at h
    split at h
    · exact List.mem_cons_of_mem _ (ih h)
    · cases h with
      | head => exact List.mem_cons_self
      | tail _ h => exact List.mem_cons_of_mem _ (ih h)

theorem mem_setCell {m : List Host.Cell} {a : Nat} {v : Byte} {c : Host.Cell} (h : c ∈ setCell m a v) :
    c = (a, v) ∨ c ∈ m := by
  induction m with
  | nil => simpa [setCell] using h
  | cons d rest ih =>
    obtain ⟨k, w⟩ := d
    unfold setCell at h
    split at h
    · simpa using h
    · split at h
      · rcases List.mem_cons.1 h with h | h
        · exact .inl h
        · exact .inr (List.mem_cons_of_mem _ h)
      · rcases List.mem_cons.1 h with h | h
        · exact .inr (h ▸ List.mem_cons_self)
        · exact (ih h).imp_right (List.mem_cons_of_mem _)

theorem risingCells_dropCell {m : List Host.Cell} (a : Nat) (h : risingCells m = true) :
    risingCells (dropCell m a) = true := by
  induction m with
  | nil => exact h
  | cons d rest ih =>
    obtain ⟨k, w⟩ := d
    simp only [risingCells, Bool.and_eq_true, List.all_eq_true, decide_eq_true_eq] at h
    unfold dropCell
    split
    · exact ih h.2
    · simp only [risingCells, Bool.and_eq_true, List.all_eq_true, decide_eq_true_eq]
      exact ⟨fun c hc => h.1 c (mem_dropCell hc), ih h.2⟩

theorem risingCells_setCell {m : List Host.Cell} (a : Nat) (v : Byte) (h : risingCells m = true) :
    risingCells (setCell m a v) = true := by
  induction m with
  | nil => rfl
  | cons d rest ih =>
    obtain ⟨k, w⟩ := d
    have h' := h
    simp only [risingCells, Bool.and_eq_true, List.all_eq_true, decide_eq_true_eq] at h'
    unfold setCell
    split
    · rename_i hak
      simp only [risingCells, Bool.and_eq_true, List.all_eq_true, decide_eq_true_eq]
      refine ⟨fun c hc => ?_, h'⟩
      rcases List.mem_cons.1 hc with rfl | hc
      · exact hak
      · exact Nat.lt_trans hak (h'.1 c hc)
    · split
      · subst k; exact h
      · rename_i hak hka
        simp only [risingCells, Bool.and_eq_true, List.all_eq_true, decide_eq_true_eq]
        refine ⟨fun c hc => ?_, ih h'.2⟩
        rcases mem_setCell hc with rfl | hc
        · show k < a; omega
        · exact h'.1 c hc

/-- A write keeps the canonical form. -/
theorem Memory.wf_write {m : Memory} (a : Nat) (v : Byte) (h : Memory.wf m = true) :
    Memory.wf (Memory.write m a v) = true := by
  simp only [Memory.wf, Bool.and_eq_true, List.all_eq_true, bne_iff_ne] at h ⊢
  unfold Memory.write
  split
  · exact ⟨risingCells_dropCell a h.1, fun c hc => h.2 c (mem_dropCell hc)⟩
  · rename_i hv
    refine ⟨risingCells_setCell a v h.1, fun c hc => ?_⟩
    rcases mem_setCell hc with rfl | hc
    · exact hv
    · exact h.2 c hc

/-- A host write of several bytes keeps the canonical form. -/
theorem Memory.wf_writeLE {m : Memory} (a n d : Nat) (h : Memory.wf m = true) :
    Memory.wf (Memory.writeLE m a n d) = true := by
  induction n generalizing m a d with
  | zero => exact h
  | succ k ih => exact ih _ _ (Memory.wf_write _ _ h)

/-- The address of a written entry is the address written or was listed before. -/
theorem Memory.mem_write {m : Memory} {a : Nat} {v : Byte} {c : Host.Cell} (h : c ∈ Memory.write m a v) :
    c.1 = a ∨ c ∈ m := by
  unfold Memory.write at h
  split at h
  · exact .inr (mem_dropCell h)
  · rcases mem_setCell h with rfl | h
    · exact .inl rfl
    · exact .inr h

theorem risingCells_loadByte {ea : Lanes Nat} {s : State} (k : Nat)
    (h : risingCells s.window.moved = true) : risingCells (loadByte ea s k).window.moved = true := by
  unfold loadByte
  split
  · exact risingCells_setCell _ _ h
  · exact h

/-- A byte written by STORE8 keeps the canonical form. -/
theorem wf_storeByte {ea : Lanes Nat} {s : State} (k : Nat) (h : s.sram.wf = true) :
    (storeByte ea s k).sram.wf = true := by
  unfold storeByte
  split
  · exact Memory.wf_write _ _ h
  · exact h

/-- The SRAM a STORE8 leaves is in canonical form. -/
theorem wf_storedSram {ea : Lanes Nat} {s : State} (h : s.sram.wf = true) :
    (storedSram ea s).wf = true := by
  unfold storedSram
  generalize List.range transferBytes = ks
  generalize s.sram = m at h
  induction ks generalizing m with
  | nil => exact h
  | cons k rest ih =>
    refine ih _ ?_
    show Memory.wf (if _ then _ else _) = true
    split
    · exact Memory.wf_write _ _ h
    · exact h

/-- The engine's moves keep the canonical form. -/
theorem wf_moveBytes {ks : List Nat} {s t : State} (h : s.sram.wf = true)
    (ht : moveBytes ks s = .next t) : t.sram.wf = true := by
  have hload : ∀ (ea : Lanes Nat) (ks : List Nat) (s : State), s.sram.wf = true →
      (ks.foldl (loadByte ea) s).sram.wf = true := by
    intro ea ks
    induction ks with
    | nil => intro s h; exact h
    | cons k rest ih =>
      intro s h
      refine ih _ ?_
      unfold loadByte
      split <;> exact h
  have hstore : ∀ (ea : Lanes Nat) (ks : List Nat) (s : State), s.sram.wf = true →
      (ks.foldl (storeByte ea) s).sram.wf = true := by
    intro ea ks
    induction ks with
    | nil => intro s h; exact h
    | cons k rest ih => intro s h; exact ih _ (wf_storeByte k h)
  unfold moveBytes withAddrs at ht
  repeat' split at ht
  all_goals cases ht
  all_goals first | exact h | exact hload _ _ _ h | exact hstore _ _ _ h

/-- The SRAM after reset is in canonical form. -/
theorem wf_reset (p : Params) : (State.resetWith p).sram.wf = true := rfl

end Sys2Proof.Machine
end

