-- ==== Sys2Proof/Laws/State.lean ====
section
/-! SUPPORT. Each update of the state, field by field: what it writes and what it leaves. -/

namespace Sys2Proof.Machine

/-! A rejection writes the four error fields and nothing else (60_exceptions.md R101). -/

@[simp] theorem raiseError_params (c : ErrCode) (l : BitVec 3) (a : Nat) (s : State) :
    (raiseError c l a s).params = s.params := rfl
@[simp] theorem raiseError_lanes (c : ErrCode) (l : BitVec 3) (a : Nat) (s : State) :
    (raiseError c l a s).lanes = s.lanes := rfl
@[simp] theorem raiseError_lv (c : ErrCode) (l : BitVec 3) (a : Nat) (s : State) :
    (raiseError c l a s).lv = s.lv := rfl
@[simp] theorem raiseError_key (c : ErrCode) (l : BitVec 3) (a : Nat) (s : State) :
    (raiseError c l a s).key = s.key := rfl
@[simp] theorem raiseError_addr (c : ErrCode) (l : BitVec 3) (a : Nat) (s : State) :
    (raiseError c l a s).addr = s.addr := rfl
@[simp] theorem raiseError_doneIE (c : ErrCode) (l : BitVec 3) (a : Nat) (s : State) :
    (raiseError c l a s).doneIE = s.doneIE := rfl
@[simp] theorem raiseError_errIE (c : ErrCode) (l : BitVec 3) (a : Nat) (s : State) :
    (raiseError c l a s).errIE = s.errIE := rfl
@[simp] theorem raiseError_busy (c : ErrCode) (l : BitVec 3) (a : Nat) (s : State) :
    (raiseError c l a s).busy = s.busy := rfl
@[simp] theorem raiseError_done (c : ErrCode) (l : BitVec 3) (a : Nat) (s : State) :
    (raiseError c l a s).done = s.done := rfl
@[simp] theorem raiseError_err (c : ErrCode) (l : BitVec 3) (a : Nat) (s : State) :
    (raiseError c l a s).err = true := rfl
@[simp] theorem raiseError_errCode (c : ErrCode) (l : BitVec 3) (a : Nat) (s : State) :
    (raiseError c l a s).errCode = c := rfl
@[simp] theorem raiseError_errLane (c : ErrCode) (l : BitVec 3) (a : Nat) (s : State) :
    (raiseError c l a s).errLane = l := rfl
@[simp] theorem raiseError_errAddr (c : ErrCode) (l : BitVec 3) (a : Nat) (s : State) :
    (raiseError c l a s).errAddr = BitVec.ofNat 32 a := rfl
@[simp] theorem raiseError_snapshot (c : ErrCode) (l : BitVec 3) (a : Nat) (s : State) :
    (raiseError c l a s).snapshot = s.snapshot := rfl
@[simp] theorem raiseError_window (c : ErrCode) (l : BitVec 3) (a : Nat) (s : State) :
    (raiseError c l a s).window = s.window := rfl
@[simp] theorem raiseError_doneNow (c : ErrCode) (l : BitVec 3) (a : Nat) (s : State) :
    (raiseError c l a s).doneNow = s.doneNow := rfl
@[simp] theorem raiseError_sram (c : ErrCode) (l : BitVec 3) (a : Nat) (s : State) :
    (raiseError c l a s).sram = s.sram := rfl
@[simp] theorem raiseError_turn (c : ErrCode) (l : BitVec 3) (a : Nat) (s : State) :
    (raiseError c l a s).turn = s.turn := rfl
@[simp] theorem raiseError_inputs (c : ErrCode) (l : BitVec 3) (a : Nat) (s : State) :
    (raiseError c l a s).inputs = s.inputs := rfl
@[simp] theorem raiseError_resp (c : ErrCode) (l : BitVec 3) (a : Nat) (s : State) :
    (raiseError c l a s).resp = s.resp := rfl

/-! Clearing an error writes the same four fields (10_state.md R27). -/

@[simp] theorem clearError_params (s : State) :
    (clearError s).params = s.params := rfl
@[simp] theorem clearError_lanes (s : State) :
    (clearError s).lanes = s.lanes := rfl
@[simp] theorem clearError_lv (s : State) :
    (clearError s).lv = s.lv := rfl
@[simp] theorem clearError_key (s : State) :
    (clearError s).key = s.key := rfl
@[simp] theorem clearError_addr (s : State) :
    (clearError s).addr = s.addr := rfl
@[simp] theorem clearError_doneIE (s : State) :
    (clearError s).doneIE = s.doneIE := rfl
@[simp] theorem clearError_errIE (s : State) :
    (clearError s).errIE = s.errIE := rfl
@[simp] theorem clearError_busy (s : State) :
    (clearError s).busy = s.busy := rfl
@[simp] theorem clearError_done (s : State) :
    (clearError s).done = s.done := rfl
@[simp] theorem clearError_err (s : State) :
    (clearError s).err = false := rfl
@[simp] theorem clearError_errCode (s : State) :
    (clearError s).errCode = .none := rfl
@[simp] theorem clearError_errLane (s : State) :
    (clearError s).errLane = 0#3 := rfl
@[simp] theorem clearError_errAddr (s : State) :
    (clearError s).errAddr = 0#32 := rfl
@[simp] theorem clearError_snapshot (s : State) :
    (clearError s).snapshot = s.snapshot := rfl
@[simp] theorem clearError_window (s : State) :
    (clearError s).window = s.window := rfl
@[simp] theorem clearError_doneNow (s : State) :
    (clearError s).doneNow = s.doneNow := rfl
@[simp] theorem clearError_sram (s : State) :
    (clearError s).sram = s.sram := rfl
@[simp] theorem clearError_turn (s : State) :
    (clearError s).turn = s.turn := rfl
@[simp] theorem clearError_inputs (s : State) :
    (clearError s).inputs = s.inputs := rfl
@[simp] theorem clearError_resp (s : State) :
    (clearError s).resp = s.resp := rfl

/-! Acceptance takes the snapshot, sets BUSY and opens the window (60_exceptions.md R107). -/

@[simp] theorem acceptCmd_params (op : Opcode) (ea : Option (Lanes Nat)) (s : State) :
    (acceptCmd op ea s).params = s.params := rfl
@[simp] theorem acceptCmd_lanes (op : Opcode) (ea : Option (Lanes Nat)) (s : State) :
    (acceptCmd op ea s).lanes = s.lanes := rfl
@[simp] theorem acceptCmd_lv (op : Opcode) (ea : Option (Lanes Nat)) (s : State) :
    (acceptCmd op ea s).lv = s.lv := rfl
@[simp] theorem acceptCmd_key (op : Opcode) (ea : Option (Lanes Nat)) (s : State) :
    (acceptCmd op ea s).key = s.key := rfl
@[simp] theorem acceptCmd_addr (op : Opcode) (ea : Option (Lanes Nat)) (s : State) :
    (acceptCmd op ea s).addr = s.addr := rfl
@[simp] theorem acceptCmd_doneIE (op : Opcode) (ea : Option (Lanes Nat)) (s : State) :
    (acceptCmd op ea s).doneIE = s.doneIE := rfl
@[simp] theorem acceptCmd_errIE (op : Opcode) (ea : Option (Lanes Nat)) (s : State) :
    (acceptCmd op ea s).errIE = s.errIE := rfl
@[simp] theorem acceptCmd_busy (op : Opcode) (ea : Option (Lanes Nat)) (s : State) :
    (acceptCmd op ea s).busy = true := rfl
@[simp] theorem acceptCmd_done (op : Opcode) (ea : Option (Lanes Nat)) (s : State) :
    (acceptCmd op ea s).done = s.done := rfl
@[simp] theorem acceptCmd_err (op : Opcode) (ea : Option (Lanes Nat)) (s : State) :
    (acceptCmd op ea s).err = s.err := rfl
@[simp] theorem acceptCmd_errCode (op : Opcode) (ea : Option (Lanes Nat)) (s : State) :
    (acceptCmd op ea s).errCode = s.errCode := rfl
@[simp] theorem acceptCmd_errLane (op : Opcode) (ea : Option (Lanes Nat)) (s : State) :
    (acceptCmd op ea s).errLane = s.errLane := rfl
@[simp] theorem acceptCmd_errAddr (op : Opcode) (ea : Option (Lanes Nat)) (s : State) :
    (acceptCmd op ea s).errAddr = s.errAddr := rfl
@[simp] theorem acceptCmd_snapshot (op : Opcode) (ea : Option (Lanes Nat)) (s : State) :
    (acceptCmd op ea s).snapshot = some ⟨op, s.key.block, ea⟩ := rfl
@[simp] theorem acceptCmd_window (op : Opcode) (ea : Option (Lanes Nat)) (s : State) :
    (acceptCmd op ea s).window = Window.empty := rfl
@[simp] theorem acceptCmd_doneNow (op : Opcode) (ea : Option (Lanes Nat)) (s : State) :
    (acceptCmd op ea s).doneNow = s.doneNow := rfl
@[simp] theorem acceptCmd_sram (op : Opcode) (ea : Option (Lanes Nat)) (s : State) :
    (acceptCmd op ea s).sram = s.sram := rfl
@[simp] theorem acceptCmd_turn (op : Opcode) (ea : Option (Lanes Nat)) (s : State) :
    (acceptCmd op ea s).turn = s.turn := rfl
@[simp] theorem acceptCmd_inputs (op : Opcode) (ea : Option (Lanes Nat)) (s : State) :
    (acceptCmd op ea s).inputs = s.inputs := rfl
@[simp] theorem acceptCmd_resp (op : Opcode) (ea : Option (Lanes Nat)) (s : State) :
    (acceptCmd op ea s).resp = s.resp := rfl

/-! Completion clears BUSY, sets DONE and drops the snapshot (10_state.md R37). -/

@[simp] theorem finishCmd_params (s : State) :
    (finishCmd s).params = s.params := rfl
@[simp] theorem finishCmd_lanes (s : State) :
    (finishCmd s).lanes = s.lanes := rfl
@[simp] theorem finishCmd_lv (s : State) :
    (finishCmd s).lv = s.lv := rfl
@[simp] theorem finishCmd_key (s : State) :
    (finishCmd s).key = s.key := rfl
@[simp] theorem finishCmd_addr (s : State) :
    (finishCmd s).addr = s.addr := rfl
@[simp] theorem finishCmd_doneIE (s : State) :
    (finishCmd s).doneIE = s.doneIE := rfl
@[simp] theorem finishCmd_errIE (s : State) :
    (finishCmd s).errIE = s.errIE := rfl
@[simp] theorem finishCmd_busy (s : State) :
    (finishCmd s).busy = false := rfl
@[simp] theorem finishCmd_done (s : State) :
    (finishCmd s).done = true := rfl
@[simp] theorem finishCmd_err (s : State) :
    (finishCmd s).err = s.err := rfl
@[simp] theorem finishCmd_errCode (s : State) :
    (finishCmd s).errCode = s.errCode := rfl
@[simp] theorem finishCmd_errLane (s : State) :
    (finishCmd s).errLane = s.errLane := rfl
@[simp] theorem finishCmd_errAddr (s : State) :
    (finishCmd s).errAddr = s.errAddr := rfl
@[simp] theorem finishCmd_snapshot (s : State) :
    (finishCmd s).snapshot = none := rfl
@[simp] theorem finishCmd_window (s : State) :
    (finishCmd s).window = Window.empty := rfl
@[simp] theorem finishCmd_doneNow (s : State) :
    (finishCmd s).doneNow = true := rfl
@[simp] theorem finishCmd_sram (s : State) :
    (finishCmd s).sram = s.sram := rfl
@[simp] theorem finishCmd_turn (s : State) :
    (finishCmd s).turn = s.turn := rfl
@[simp] theorem finishCmd_inputs (s : State) :
    (finishCmd s).inputs = s.inputs := rfl
@[simp] theorem finishCmd_resp (s : State) :
    (finishCmd s).resp = s.resp := rfl

/-! A CTRL write (10_state.md R20). -/

@[simp] theorem writeCtrl_params (w : Word) (s : State) :
    (writeCtrl w s).params = s.params := rfl
@[simp] theorem writeCtrl_lanes (w : Word) (s : State) :
    (writeCtrl w s).lanes = s.lanes := rfl
@[simp] theorem writeCtrl_lv (w : Word) (s : State) :
    (writeCtrl w s).lv = s.lv := rfl
@[simp] theorem writeCtrl_key (w : Word) (s : State) :
    (writeCtrl w s).key = s.key := rfl
@[simp] theorem writeCtrl_addr (w : Word) (s : State) :
    (writeCtrl w s).addr = s.addr := rfl
@[simp] theorem writeCtrl_doneIE (w : Word) (s : State) :
    (writeCtrl w s).doneIE = w.getLsbD 0 := rfl
@[simp] theorem writeCtrl_errIE (w : Word) (s : State) :
    (writeCtrl w s).errIE = w.getLsbD 1 := rfl
@[simp] theorem writeCtrl_busy (w : Word) (s : State) :
    (writeCtrl w s).busy = s.busy := rfl
@[simp] theorem writeCtrl_done (w : Word) (s : State) :
    (writeCtrl w s).done = s.done := rfl
@[simp] theorem writeCtrl_err (w : Word) (s : State) :
    (writeCtrl w s).err = s.err := rfl
@[simp] theorem writeCtrl_errCode (w : Word) (s : State) :
    (writeCtrl w s).errCode = s.errCode := rfl
@[simp] theorem writeCtrl_errLane (w : Word) (s : State) :
    (writeCtrl w s).errLane = s.errLane := rfl
@[simp] theorem writeCtrl_errAddr (w : Word) (s : State) :
    (writeCtrl w s).errAddr = s.errAddr := rfl
@[simp] theorem writeCtrl_snapshot (w : Word) (s : State) :
    (writeCtrl w s).snapshot = s.snapshot := rfl
@[simp] theorem writeCtrl_window (w : Word) (s : State) :
    (writeCtrl w s).window = s.window := rfl
@[simp] theorem writeCtrl_doneNow (w : Word) (s : State) :
    (writeCtrl w s).doneNow = s.doneNow := rfl
@[simp] theorem writeCtrl_sram (w : Word) (s : State) :
    (writeCtrl w s).sram = s.sram := rfl
@[simp] theorem writeCtrl_turn (w : Word) (s : State) :
    (writeCtrl w s).turn = s.turn := rfl
@[simp] theorem writeCtrl_inputs (w : Word) (s : State) :
    (writeCtrl w s).inputs = s.inputs := rfl
@[simp] theorem writeCtrl_resp (w : Word) (s : State) :
    (writeCtrl w s).resp = s.resp := rfl

/-! The host port's answer. -/

@[simp] theorem respond_params (r : Response) (s : State) :
    (respond r s).params = s.params := rfl
@[simp] theorem respond_lanes (r : Response) (s : State) :
    (respond r s).lanes = s.lanes := rfl
@[simp] theorem respond_lv (r : Response) (s : State) :
    (respond r s).lv = s.lv := rfl
@[simp] theorem respond_key (r : Response) (s : State) :
    (respond r s).key = s.key := rfl
@[simp] theorem respond_addr (r : Response) (s : State) :
    (respond r s).addr = s.addr := rfl
@[simp] theorem respond_doneIE (r : Response) (s : State) :
    (respond r s).doneIE = s.doneIE := rfl
@[simp] theorem respond_errIE (r : Response) (s : State) :
    (respond r s).errIE = s.errIE := rfl
@[simp] theorem respond_busy (r : Response) (s : State) :
    (respond r s).busy = s.busy := rfl
@[simp] theorem respond_done (r : Response) (s : State) :
    (respond r s).done = s.done := rfl
@[simp] theorem respond_err (r : Response) (s : State) :
    (respond r s).err = s.err := rfl
@[simp] theorem respond_errCode (r : Response) (s : State) :
    (respond r s).errCode = s.errCode := rfl
@[simp] theorem respond_errLane (r : Response) (s : State) :
    (respond r s).errLane = s.errLane := rfl
@[simp] theorem respond_errAddr (r : Response) (s : State) :
    (respond r s).errAddr = s.errAddr := rfl
@[simp] theorem respond_snapshot (r : Response) (s : State) :
    (respond r s).snapshot = s.snapshot := rfl
@[simp] theorem respond_window (r : Response) (s : State) :
    (respond r s).window = s.window := rfl
@[simp] theorem respond_doneNow (r : Response) (s : State) :
    (respond r s).doneNow = s.doneNow := rfl
@[simp] theorem respond_sram (r : Response) (s : State) :
    (respond r s).sram = s.sram := rfl
@[simp] theorem respond_turn (r : Response) (s : State) :
    (respond r s).turn = s.turn := rfl
@[simp] theorem respond_inputs (r : Response) (s : State) :
    (respond r s).inputs = s.inputs := rfl
@[simp] theorem respond_resp (r : Response) (s : State) :
    (respond r s).resp = some r := rfl

/-! One more cycle in the busy window. -/

@[simp] theorem growOlder_params (s : State) :
    (growOlder s).params = s.params := rfl
@[simp] theorem growOlder_lanes (s : State) :
    (growOlder s).lanes = s.lanes := rfl
@[simp] theorem growOlder_lv (s : State) :
    (growOlder s).lv = s.lv := rfl
@[simp] theorem growOlder_key (s : State) :
    (growOlder s).key = s.key := rfl
@[simp] theorem growOlder_addr (s : State) :
    (growOlder s).addr = s.addr := rfl
@[simp] theorem growOlder_doneIE (s : State) :
    (growOlder s).doneIE = s.doneIE := rfl
@[simp] theorem growOlder_errIE (s : State) :
    (growOlder s).errIE = s.errIE := rfl
@[simp] theorem growOlder_busy (s : State) :
    (growOlder s).busy = s.busy := rfl
@[simp] theorem growOlder_done (s : State) :
    (growOlder s).done = s.done := rfl
@[simp] theorem growOlder_err (s : State) :
    (growOlder s).err = s.err := rfl
@[simp] theorem growOlder_errCode (s : State) :
    (growOlder s).errCode = s.errCode := rfl
@[simp] theorem growOlder_errLane (s : State) :
    (growOlder s).errLane = s.errLane := rfl
@[simp] theorem growOlder_errAddr (s : State) :
    (growOlder s).errAddr = s.errAddr := rfl
@[simp] theorem growOlder_snapshot (s : State) :
    (growOlder s).snapshot = s.snapshot := rfl
@[simp] theorem growOlder_window (s : State) :
    (growOlder s).window = { s.window with age := s.window.age + 1 } := rfl
@[simp] theorem growOlder_doneNow (s : State) :
    (growOlder s).doneNow = s.doneNow := rfl
@[simp] theorem growOlder_sram (s : State) :
    (growOlder s).sram = s.sram := rfl
@[simp] theorem growOlder_turn (s : State) :
    (growOlder s).turn = s.turn := rfl
@[simp] theorem growOlder_inputs (s : State) :
    (growOlder s).inputs = s.inputs := rfl
@[simp] theorem growOlder_resp (s : State) :
    (growOlder s).resp = s.resp := rfl

/-! The engine's turn ends. -/

@[simp] theorem endEngineTurn_params (s : State) :
    (endEngineTurn s).params = s.params := rfl
@[simp] theorem endEngineTurn_lanes (s : State) :
    (endEngineTurn s).lanes = s.lanes := rfl
@[simp] theorem endEngineTurn_lv (s : State) :
    (endEngineTurn s).lv = s.lv := rfl
@[simp] theorem endEngineTurn_key (s : State) :
    (endEngineTurn s).key = s.key := rfl
@[simp] theorem endEngineTurn_addr (s : State) :
    (endEngineTurn s).addr = s.addr := rfl
@[simp] theorem endEngineTurn_doneIE (s : State) :
    (endEngineTurn s).doneIE = s.doneIE := rfl
@[simp] theorem endEngineTurn_errIE (s : State) :
    (endEngineTurn s).errIE = s.errIE := rfl
@[simp] theorem endEngineTurn_busy (s : State) :
    (endEngineTurn s).busy = s.busy := rfl
@[simp] theorem endEngineTurn_done (s : State) :
    (endEngineTurn s).done = s.done := rfl
@[simp] theorem endEngineTurn_err (s : State) :
    (endEngineTurn s).err = s.err := rfl
@[simp] theorem endEngineTurn_errCode (s : State) :
    (endEngineTurn s).errCode = s.errCode := rfl
@[simp] theorem endEngineTurn_errLane (s : State) :
    (endEngineTurn s).errLane = s.errLane := rfl
@[simp] theorem endEngineTurn_errAddr (s : State) :
    (endEngineTurn s).errAddr = s.errAddr := rfl
@[simp] theorem endEngineTurn_snapshot (s : State) :
    (endEngineTurn s).snapshot = s.snapshot := rfl
@[simp] theorem endEngineTurn_window (s : State) :
    (endEngineTurn s).window = s.window := rfl
@[simp] theorem endEngineTurn_doneNow (s : State) :
    (endEngineTurn s).doneNow = s.doneNow := rfl
@[simp] theorem endEngineTurn_sram (s : State) :
    (endEngineTurn s).sram = s.sram := rfl
@[simp] theorem endEngineTurn_turn (s : State) :
    (endEngineTurn s).turn = .host := rfl
@[simp] theorem endEngineTurn_inputs (s : State) :
    (endEngineTurn s).inputs = s.inputs := rfl
@[simp] theorem endEngineTurn_resp (s : State) :
    (endEngineTurn s).resp = s.resp := rfl

/-! The cycle ends. -/

@[simp] theorem endCycle_params (s : State) :
    (endCycle s).params = s.params := rfl
@[simp] theorem endCycle_lanes (s : State) :
    (endCycle s).lanes = s.lanes := rfl
@[simp] theorem endCycle_lv (s : State) :
    (endCycle s).lv = s.lv := rfl
@[simp] theorem endCycle_key (s : State) :
    (endCycle s).key = s.key := rfl
@[simp] theorem endCycle_addr (s : State) :
    (endCycle s).addr = s.addr := rfl
@[simp] theorem endCycle_doneIE (s : State) :
    (endCycle s).doneIE = s.doneIE := rfl
@[simp] theorem endCycle_errIE (s : State) :
    (endCycle s).errIE = s.errIE := rfl
@[simp] theorem endCycle_busy (s : State) :
    (endCycle s).busy = s.busy := rfl
@[simp] theorem endCycle_done (s : State) :
    (endCycle s).done = s.done := rfl
@[simp] theorem endCycle_err (s : State) :
    (endCycle s).err = s.err := rfl
@[simp] theorem endCycle_errCode (s : State) :
    (endCycle s).errCode = s.errCode := rfl
@[simp] theorem endCycle_errLane (s : State) :
    (endCycle s).errLane = s.errLane := rfl
@[simp] theorem endCycle_errAddr (s : State) :
    (endCycle s).errAddr = s.errAddr := rfl
@[simp] theorem endCycle_snapshot (s : State) :
    (endCycle s).snapshot = s.snapshot := rfl
@[simp] theorem endCycle_window (s : State) :
    (endCycle s).window = s.window := rfl
@[simp] theorem endCycle_doneNow (s : State) :
    (endCycle s).doneNow = false := rfl
@[simp] theorem endCycle_sram (s : State) :
    (endCycle s).sram = s.sram := rfl
@[simp] theorem endCycle_turn (s : State) :
    (endCycle s).turn = .engine := rfl
@[simp] theorem endCycle_inputs (s : State) :
    (endCycle s).inputs = s.inputs.tail := rfl
@[simp] theorem endCycle_resp (s : State) :
    (endCycle s).resp = s.resp := rfl

/-! Reset writes every register and keeps the SRAM (70_reset_and_hazards.md R119, R120). -/

@[simp] theorem resetRegisters_params (s : State) :
    (resetRegisters s).params = s.params := rfl
@[simp] theorem resetRegisters_lanes (s : State) :
    (resetRegisters s).lanes = Lanes.all 0#128 := rfl
@[simp] theorem resetRegisters_lv (s : State) :
    (resetRegisters s).lv = false := rfl
@[simp] theorem resetRegisters_key (s : State) :
    (resetRegisters s).key = ⟨0#32, 0#32, 0#32, 0#32⟩ := rfl
@[simp] theorem resetRegisters_addr (s : State) :
    (resetRegisters s).addr = Lanes.all 0#32 := rfl
@[simp] theorem resetRegisters_doneIE (s : State) :
    (resetRegisters s).doneIE = false := rfl
@[simp] theorem resetRegisters_errIE (s : State) :
    (resetRegisters s).errIE = false := rfl
@[simp] theorem resetRegisters_busy (s : State) :
    (resetRegisters s).busy = false := rfl
@[simp] theorem resetRegisters_done (s : State) :
    (resetRegisters s).done = false := rfl
@[simp] theorem resetRegisters_err (s : State) :
    (resetRegisters s).err = false := rfl
@[simp] theorem resetRegisters_errCode (s : State) :
    (resetRegisters s).errCode = .none := rfl
@[simp] theorem resetRegisters_errLane (s : State) :
    (resetRegisters s).errLane = 0#3 := rfl
@[simp] theorem resetRegisters_errAddr (s : State) :
    (resetRegisters s).errAddr = 0#32 := rfl
@[simp] theorem resetRegisters_snapshot (s : State) :
    (resetRegisters s).snapshot = none := rfl
@[simp] theorem resetRegisters_window (s : State) :
    (resetRegisters s).window = Window.empty := rfl
@[simp] theorem resetRegisters_doneNow (s : State) :
    (resetRegisters s).doneNow = false := rfl
@[simp] theorem resetRegisters_sram (s : State) :
    (resetRegisters s).sram = s.sram := rfl
@[simp] theorem resetRegisters_turn (s : State) :
    (resetRegisters s).turn = s.turn := rfl
@[simp] theorem resetRegisters_inputs (s : State) :
    (resetRegisters s).inputs = s.inputs := rfl
@[simp] theorem resetRegisters_resp (s : State) :
    (resetRegisters s).resp = s.resp := rfl

/-! A DONE clear (10_state.md R22, R27). -/

@[simp] theorem clearDone_done (s : State) : (clearDone s).done = (s.done && s.doneNow) := by
  cases s with
  | mk => unfold clearDone; dsimp only; split <;> simp_all
@[simp] theorem clearDone_params (s : State) : (clearDone s).params = s.params := by
  unfold clearDone; split <;> rfl
@[simp] theorem clearDone_lanes (s : State) : (clearDone s).lanes = s.lanes := by
  unfold clearDone; split <;> rfl
@[simp] theorem clearDone_lv (s : State) : (clearDone s).lv = s.lv := by
  unfold clearDone; split <;> rfl
@[simp] theorem clearDone_key (s : State) : (clearDone s).key = s.key := by
  unfold clearDone; split <;> rfl
@[simp] theorem clearDone_addr (s : State) : (clearDone s).addr = s.addr := by
  unfold clearDone; split <;> rfl
@[simp] theorem clearDone_doneIE (s : State) : (clearDone s).doneIE = s.doneIE := by
  unfold clearDone; split <;> rfl
@[simp] theorem clearDone_errIE (s : State) : (clearDone s).errIE = s.errIE := by
  unfold clearDone; split <;> rfl
@[simp] theorem clearDone_busy (s : State) : (clearDone s).busy = s.busy := by
  unfold clearDone; split <;> rfl
@[simp] theorem clearDone_err (s : State) : (clearDone s).err = s.err := by
  unfold clearDone; split <;> rfl
@[simp] theorem clearDone_errCode (s : State) : (clearDone s).errCode = s.errCode := by
  unfold clearDone; split <;> rfl
@[simp] theorem clearDone_errLane (s : State) : (clearDone s).errLane = s.errLane := by
  unfold clearDone; split <;> rfl
@[simp] theorem clearDone_errAddr (s : State) : (clearDone s).errAddr = s.errAddr := by
  unfold clearDone; split <;> rfl
@[simp] theorem clearDone_snapshot (s : State) : (clearDone s).snapshot = s.snapshot := by
  unfold clearDone; split <;> rfl
@[simp] theorem clearDone_window (s : State) : (clearDone s).window = s.window := by
  unfold clearDone; split <;> rfl
@[simp] theorem clearDone_doneNow (s : State) : (clearDone s).doneNow = s.doneNow := by
  unfold clearDone; split <;> rfl
@[simp] theorem clearDone_sram (s : State) : (clearDone s).sram = s.sram := by
  unfold clearDone; split <;> rfl
@[simp] theorem clearDone_turn (s : State) : (clearDone s).turn = s.turn := by
  unfold clearDone; split <;> rfl
@[simp] theorem clearDone_inputs (s : State) : (clearDone s).inputs = s.inputs := by
  unfold clearDone; split <;> rfl
@[simp] theorem clearDone_resp (s : State) : (clearDone s).resp = s.resp := by
  unfold clearDone; split <;> rfl

/-- A STATUS write touches DONE and the error fields only (10_state.md R27). -/
theorem writeStatus_frame (w : Word) (s : State) :
    writeStatus w s = { s with
      done := (writeStatus w s).done
      err := (writeStatus w s).err
      errCode := (writeStatus w s).errCode
      errLane := (writeStatus w s).errLane
      errAddr := (writeStatus w s).errAddr } := by
  unfold writeStatus clearDone clearError
  repeat' split
  all_goals rfl

end Sys2Proof.Machine
end

