-- ==== Sys2Proof/Laws/Ops.lean ====
section
/-! SUPPORT. What each shared operation can do, said once: the checks, the issue of a command, the bytes
the engine moves, the completion of a command. -/

namespace Sys2Proof.Machine

/-! The checks on effective addresses -/

theorem firstOutside_none {m : Nat} {ea : Lanes Nat} :
    firstOutside m ea = none ↔ ∀ i, ea.get i + 16 ≤ m := by
  simp [firstOutside, blockOutside]

theorem firstOutside_some {m : Nat} {ea : Lanes Nat} {i : Fin 8} (hi : m < ea.get i + 16)
    (hlow : ∀ j, j < i → ea.get j + 16 ≤ m) : firstOutside m ea = some i := by
  have hrest : ∀ j : Fin 8, j < i → blockOutside m (ea.get j) = false := by
    intro j hj; simpa [blockOutside] using hlow j hj
  have hat : blockOutside m (ea.get i) = true := by simpa [blockOutside] using hi
  unfold firstOutside laneIndices
  fin_cases i <;> simp only [List.find?] <;> simp_all

theorem firstOverlap_none {ea : Lanes Nat} :
    firstOverlap ea = none ↔
      ∀ i j : Fin 8, i < j → ea.get i + 16 ≤ ea.get j ∨ ea.get j + 16 ≤ ea.get i := by
  simp only [firstOverlap, List.find?_eq_none, List.any_eq_true, blocksOverlap, Bool.and_eq_true,
    decide_eq_true_eq, mem_laneIndices, true_and, not_exists, not_and, not_lt]
  constructor
  · intro h i j hij
    have := h j trivial i hij
    omega
  · intro h j _ i hij
    have := h i j hij
    omega

theorem firstOverlap_some {ea : Lanes Nat} {i j : Fin 8} (hij : i < j)
    (hov : ea.get i < ea.get j + 16 ∧ ea.get j < ea.get i + 16)
    (hlow : ∀ h k : Fin 8, h < k → k < j → ea.get h + 16 ≤ ea.get k ∨ ea.get k + 16 ≤ ea.get h) :
    firstOverlap ea = some j := by
  have hrest : ∀ k : Fin 8, k < j →
      (laneIndices.any fun h => h.val < k.val && blocksOverlap (ea.get h) (ea.get k)) = false := by
    intro k hk
    simp only [List.any_eq_false, blocksOverlap, Bool.and_eq_true, decide_eq_true_eq, not_and, not_lt]
    intro h _ hhk
    have := hlow h k hhk hk
    omega
  have hat : (laneIndices.any fun h => h.val < j.val && blocksOverlap (ea.get h) (ea.get j)) = true := by
    simp only [List.any_eq_true, blocksOverlap, Bool.and_eq_true, decide_eq_true_eq]
    exact ⟨i, mem_laneIndices i, hij, hov.1, hov.2⟩
  unfold firstOverlap
  generalize hp : (fun j : Fin 8 => laneIndices.any fun h => h.val < j.val && blocksOverlap (ea.get h) (ea.get j)) = p
  have hrest' : ∀ k : Fin 8, k < j → p k = false := fun k hk => by rw [← hp]; exact hrest k hk
  have hat' : p j = true := by rw [← hp]; exact hat
  clear hp hrest hat hlow hov hij
  unfold laneIndices
  fin_cases j <;> simp only [List.find?] <;> simp_all

/-- With C = 1 the blocks are adjacent, hence disjoint (40_marshalling.md R77). -/
theorem firstOverlap_contiguous (s : State) : firstOverlap (effectiveAddrs .contiguous s) = none := by
  rw [firstOverlap_none]
  intro i j hij
  simp only [effectiveAddrs, Lanes.get_ofFn]
  have : i.val < j.val := hij
  omega

/-! Issue (60_exceptions.md R102) -/

theorem cmdGate_ready {k : State → State} {s : State} (he : s.err = false) (hb : s.busy = false) :
    cmdGate k s = k s := by
  simp [cmdGate, he, hb]

theorem cmdGate_err {k : State → State} {s : State} (he : s.err = true) : cmdGate k s = s := by
  simp [cmdGate, he]

theorem cmdGate_busy {k : State → State} {s : State} (he : s.err = false) (hb : s.busy = true) :
    cmdGate k s = raiseError .cmdBusy 0#3 0 s := by
  simp [cmdGate, he, hb]

theorem lanesGate_lv {k : State → State} {s : State} (h : s.lv = true) : lanesGate k s = k s := by
  simp [lanesGate, h]

/-- What a CMD write can leave: the state itself, while ERR = 1; a rejection; or the acceptance of a
command that passed every check of 60_exceptions.md R102. -/
inductive Issued (op : Opcode) (s : State) : State → Prop where
  | discarded (h : s.err = true) : Issued op s s
  | rejected (code : ErrCode) (lane : BitVec 3) (addr : Nat) (he : s.err = false) (hc : code ≠ .none) :
      Issued op s (raiseError code lane addr s)
  | accepted (ea : Option (Lanes Nat)) (he : s.err = false) (hb : s.busy = false)
      (hlv : op ≠ .load8 → s.lv = true)
      (hea : Snapshot.addrsLegal s.params.memBytes ⟨op, s.key.block, ea⟩ = true) :
      Issued op s (acceptCmd op ea s)

theorem issued_cmdGate {op : Opcode} {s : State} {k : State → State}
    (h : s.err = false → s.busy = false → Issued op s (k s)) : Issued op s (cmdGate k s) := by
  unfold cmdGate
  split
  · exact .discarded ‹_›
  · rename_i he
    have he : s.err = false := by simpa using he
    split
    · exact .rejected _ _ _ he (by decide)
    · exact h he (by simpa using ‹¬ s.busy = true›)

theorem issued_lanesGate {op : Opcode} {s : State} {k : State → State} (he : s.err = false)
    (h : s.lv = true → Issued op s (k s)) : Issued op s (lanesGate k s) := by
  unfold lanesGate
  split
  · exact h ‹_›
  · exact .rejected _ _ _ he (by decide)

theorem issued_issueKeyed {op : Opcode} (hop : op.movesBytes = false) (s : State) :
    Issued op s (issueKeyed op s) := by
  refine issued_cmdGate fun he hb => issued_lanesGate he fun hlv => .accepted _ he hb (fun _ => hlv) ?_
  cases op <;> first | rfl | simp [Opcode.movesBytes] at hop

theorem issued_issueLoad8 (m : AddrMode) (s : State) : Issued .load8 s (issueLoad8 m s) := by
  refine issued_cmdGate fun he hb => ?_
  unfold rangeGate
  split
  · exact .rejected _ _ _ he (by decide)
  · refine .accepted _ he hb (fun h => absurd rfl h) ?_
    simp_all [Snapshot.addrsLegal]

theorem issued_issueStore8 (m : AddrMode) (s : State) : Issued .store8 s (issueStore8 m s) := by
  refine issued_cmdGate fun he hb => issued_lanesGate he fun hlv => ?_
  unfold rangeGate
  split
  · exact .rejected _ _ _ he (by decide)
  · unfold overlapGate
    split
    · exact .rejected _ _ _ he (by decide)
    · refine .accepted _ he hb (fun _ => hlv) ?_
      rename_i _ hr _ hov
      have : firstOverlap (effectiveAddrs m s) = none := by
        cases m
        · exact hov
        · exact firstOverlap_contiguous s
      simp [Snapshot.addrsLegal, hr, this]

/-- On the host's turn a command always answers a next state, one that a CMD write can leave. -/
theorem exec_host (i : Instr) {s : State} (h : s.turn = .host) :
    ∃ t, exec i s = .next t ∧ Issued i.opcode s t := by
  cases i <;> simp only [exec, execLoad8, execStore8, execXor8, execAesenc8, execAesenclast8, execAesdec8,
    execAesdeclast8, onTurn, h]
  · exact ⟨_, rfl, issued_issueLoad8 _ s⟩
  · exact ⟨_, rfl, issued_issueStore8 _ s⟩
  all_goals exact ⟨_, rfl, issued_issueKeyed rfl s⟩

/-- A CMD write always answers a next state; a word that is no command is never accepted. -/
theorem processCmd_cases (w : Word) {s : State} (h : s.turn = .host) :
    ∃ op t, processCmd w s = .next t ∧ Issued op s t := by
  unfold processCmd
  split
  · obtain ⟨t, ht, hi⟩ := exec_host _ h
    exact ⟨_, t, ht, hi⟩
  · exact ⟨.load8, _, rfl, issued_cmdGate fun he _ => .rejected _ _ _ he (by decide)⟩

/-! The bytes the engine moves (20_memory.md R53, R54) -/

theorem foldl_loadByte (ea : Lanes Nat) (ks : List Nat) (s : State) :
    ∃ m, ks.foldl (loadByte ea) s = { s with window := { s.window with moved := m } } := by
  induction ks generalizing s with
  | nil => exact ⟨s.window.moved, rfl⟩
  | cons k rest ih =>
    simp only [List.foldl_cons]
    unfold loadByte
    split
    · obtain ⟨m, hm⟩ := ih { s with window := { s.window with
        moved := setCell s.window.moved k (s.sram.read (transferAddr ea k)) } }
      exact ⟨m, hm⟩
    · exact ih s

theorem foldl_storeByte (ea : Lanes Nat) (ks : List Nat) (s : State) :
    ∃ m r, ks.foldl (storeByte ea) s = { s with sram := r, window := { s.window with moved := m } } := by
  induction ks generalizing s with
  | nil => exact ⟨s.window.moved, s.sram, rfl⟩
  | cons k rest ih =>
    simp only [List.foldl_cons]
    unfold storeByte
    split
    · obtain ⟨m, r, hm⟩ := ih { s with
        sram := s.sram.write (transferAddr ea k) (laneByte s.lanes k)
        window := { s.window with moved := setCell s.window.moved k (laneByte s.lanes k) } }
      exact ⟨m, r, hm⟩
    · exact ih s

/-- The engine's moves change the bytes moved and the SRAM, nothing else. -/
theorem moveBytes_frame {ks : List Nat} {s t : State} (h : moveBytes ks s = .next t) :
    ∃ m r, t = { s with sram := r, window := { s.window with moved := m } } := by
  have self : ∃ m r, s = { s with sram := r, window := { s.window with moved := m } } :=
    ⟨s.window.moved, s.sram, rfl⟩
  unfold moveBytes withAddrs at h
  repeat' split at h
  all_goals cases h
  all_goals first
    | exact self
    | (obtain ⟨m, hm⟩ := foldl_loadByte ‹_› ks s; exact ⟨m, s.sram, hm⟩)
    | exact foldl_storeByte _ ks s

theorem moveBytes_of_none {ks : List Nat} {s : State} (h : s.snapshot = none) : moveBytes ks s = .next s := by
  simp [moveBytes, h]

theorem moveBytes_of_keyed {ks : List Nat} {s : State} {sn : Snapshot} (h : s.snapshot = some sn)
    (hop : sn.op.movesBytes = false) : moveBytes ks s = .next s := by
  unfold moveBytes
  rw [h]
  cases hc : sn.op <;> simp_all [Opcode.movesBytes]

theorem usableAddrs_some {m : Nat} {ea : Lanes Nat} (h : ∀ i, ea.get i + 16 ≤ m) :
    usableAddrs m (some ea) = some ea := by
  simp [usableAddrs, firstOutside_none.2 h]

theorem moveBytes_of_load {ks : List Nat} {s : State} {sn : Snapshot} {ea : Lanes Nat}
    (h : s.snapshot = some sn) (hop : sn.op = .load8) (hea : sn.ea = some ea)
    (hr : ∀ i, ea.get i + 16 ≤ s.params.memBytes) :
    moveBytes ks s = .next (ks.foldl (loadByte ea) s) := by
  simp [moveBytes, h, hop, withAddrs, hea, usableAddrs_some hr]

theorem moveBytes_of_store {ks : List Nat} {s : State} {sn : Snapshot} {ea : Lanes Nat}
    (h : s.snapshot = some sn) (hop : sn.op = .store8) (hea : sn.ea = some ea)
    (hr : ∀ i, ea.get i + 16 ≤ s.params.memBytes) :
    moveBytes ks s = .next (ks.foldl (storeByte ea) s) := by
  simp [moveBytes, h, hop, withAddrs, hea, usableAddrs_some hr]

/-! Completion (10_state.md R37) -/

theorem onTurn_host {f : State → State} {g : State → Host.Outcome State Fault Refusal} {s : State}
    (h : s.turn = .host) : onTurn f g s = .next (f s) := by
  simp [onTurn, h]

theorem onTurn_engine {f : State → State} {g : State → Host.Outcome State Fault Refusal} {s : State}
    (h : s.turn = .engine) : onTurn f g s = g s := by
  simp [onTurn, h]

/-- What a completion can leave: the state itself, if no such command is in flight, or the state with the
command's effect on lanes, LV and SRAM and what every completion does. -/
inductive Completes (op : Opcode) (s : State) : State → Prop where
  | idle : Completes op s s
  | done (sn : Snapshot) (l : Lanes Block) (v : Bool) (r : Memory) (hb : s.busy = true)
      (hsn : s.snapshot = some sn) (hop : sn.op = op) (hl : op = .store8 → l = s.lanes)
      (hr : op ≠ .store8 → r = s.sram) (hv : v = (s.lv || op = .load8)) :
      Completes op s (finishCmd { s with lanes := l, lv := v, sram := r })

theorem whenInFlight_cases {op : Opcode} {s t : State} {k : Snapshot → Host.Outcome State Fault Refusal}
    (h : whenInFlight op s k = .next t) :
    t = s ∨ ∃ sn, s.busy = true ∧ s.snapshot = some sn ∧ sn.op = op ∧ k sn = .next t := by
  unfold whenInFlight at h
  split at h
  · cases h; exact .inl rfl
  · split at h
    · rename_i sn hsn hc
      exact .inr ⟨sn, hc.1, hsn, hc.2, h⟩
    · cases h; exact .inl rfl

theorem whenInFlight_of {op : Opcode} {s : State} {sn : Snapshot}
    {k : Snapshot → Host.Outcome State Fault Refusal} (hb : s.busy = true) (hsn : s.snapshot = some sn)
    (hop : sn.op = op) : whenInFlight op s k = k sn := by
  simp [whenInFlight, hsn, hb, hop]

theorem withAddrs_next {sn : Snapshot} {s t : State} {k : Lanes Nat → Host.Outcome State Fault Refusal}
    (h : withAddrs sn s k = .next t) :
    ∃ ea, usableAddrs s.params.memBytes sn.ea = some ea ∧ k ea = .next t := by
  unfold withAddrs at h
  split at h
  · exact ⟨_, ‹_›, h⟩
  · cases h

theorem completes_keyed {op : Opcode} {f : Block → Block → Block} {s t : State} (hs : op ≠ .store8)
    (hl : op ≠ .load8) (h : completeKeyed op f s = .next t) : Completes op s t := by
  rcases whenInFlight_cases h with rfl | ⟨sn, hb, hsn, hop, hk⟩
  · exact .idle
  · cases hk
    exact .done sn _ s.lv s.sram hb hsn hop (fun h => absurd h hs) (fun _ => rfl) (by simp [hl])

theorem completes_load8 {s t : State} (h : completeLoad8 s = .next t) : Completes .load8 s t := by
  rcases whenInFlight_cases h with rfl | ⟨sn, hb, hsn, hop, hk⟩
  · exact .idle
  · obtain ⟨ea, -, hk⟩ := withAddrs_next hk
    cases hk
    exact .done sn _ true s.sram hb hsn hop (fun h => by cases h) (fun _ => rfl) (by simp)

theorem completes_store8 {s t : State} (h : completeStore8 s = .next t) : Completes .store8 s t := by
  rcases whenInFlight_cases h with rfl | ⟨sn, hb, hsn, hop, hk⟩
  · exact .idle
  · obtain ⟨ea, -, hk⟩ := withAddrs_next hk
    cases hk
    exact .done sn s.lanes s.lv _ hb hsn hop (fun _ => rfl) (fun h => absurd rfl h) (by simp)

/-- On the engine's turn a command that answers a next state answers one that a completion can leave. -/
theorem exec_engine {i : Instr} {s t : State} (h : s.turn = .engine) (ht : exec i s = .next t) :
    Completes i.opcode s t := by
  cases i <;> simp only [exec, execLoad8, execStore8, execXor8, execAesenc8, execAesenclast8, execAesdec8,
    execAesdeclast8, onTurn_engine h] at ht
  · exact completes_load8 ht
  · exact completes_store8 ht
  all_goals exact completes_keyed (by decide) (by decide) ht

end Sys2Proof.Machine
end

