-- ==== Sys2Proof/Laws/PerInstr.lean ====
section
/-! SUPPORT. What holds of every command, one lemma per constructor. -/

namespace Sys2Proof.Laws.Legal

/-- A command's word is legal and stays below bit 5 (30_encoding.md R61, R65). -/
def Statement (i : Instr) : Prop := legalWord (encode i) = true ∧ (encode i).toNat < 32

theorem load8 (mode : AddrMode) : Statement (.load8 mode) := by
  unfold Statement
  cases mode <;> decide
theorem store8 (mode : AddrMode) : Statement (.store8 mode) := by
  unfold Statement
  cases mode <;> decide
theorem xor8 : Statement .xor8 := by
  unfold Statement
  decide
theorem aesenc8 : Statement .aesenc8 := by
  unfold Statement
  decide
theorem aesenclast8 : Statement .aesenclast8 := by
  unfold Statement
  decide
theorem aesdec8 : Statement .aesdec8 := by
  unfold Statement
  decide
theorem aesdeclast8 : Statement .aesdeclast8 := by
  unfold Statement
  decide

end Sys2Proof.Laws.Legal
end

