-- ==== Sys2Proof/Laws/Step.lean ====
section
/-! SUPPORT. What one step can do, said once: the engine's turn, the host's access, the end of a cycle. -/

namespace Sys2Proof.Machine

@[simp] theorem andThen_next (s : State) (k : State → Host.Outcome State Fault Refusal) :
    andThen (.next s) k = k s := rfl

theorem andThen_eq_next {o : Host.Outcome State Fault Refusal}
    {k : State → Host.Outcome State Fault Refusal} {t : State} :
    andThen o k = .next t ↔ ∃ s, o = .next s ∧ k s = .next t := by
  cases o <;> simp [andThen]

theorem step_engine {s : State} (h : s.turn = .engine) : step s = engineTurn s := by
  simp [step, takeTurn, h]

theorem step_host {s : State} (h : s.turn = .host) : step s = hostTurn s := by
  simp [step, takeTurn, h]

/-- What the engine's turn can do. -/
inductive EngineTurn (s : State) : State → Prop where
  | reset (h : s.cycle.rst = true) : EngineTurn s (endEngineTurn (resetRegisters s))
  | idle (h : s.cycle.rst = false) (hi : s.snapshot = none ∨ s.busy = false) : EngineTurn s (endEngineTurn s)
  | older (sn : Snapshot) (u : State) (h : s.cycle.rst = false) (hb : s.busy = true)
      (hsn : s.snapshot = some sn) (hm : moveBytes s.cycle.movesBefore s = .next u)
      (hd : completionDue s.cycle u = false) : EngineTurn s (endEngineTurn (growOlder u))
  | complete (sn : Snapshot) (u v : State) (h : s.cycle.rst = false) (hb : s.busy = true)
      (hsn : s.snapshot = some sn) (hm : moveBytes s.cycle.movesBefore s = .next u)
      (hd : completionDue s.cycle u = true) (hx : exec sn.op.instr u = .next v) :
      EngineTurn s (endEngineTurn v)

theorem step_engine_cases {s t : State} (h : s.turn = .engine) (ht : step s = .next t) : EngineTurn s t := by
  rw [step_engine h, engineTurn] at ht
  split at ht
  · cases ht; exact .reset ‹_›
  · rename_i hr
    have hr : s.cycle.rst = false := by simpa using hr
    split at ht
    · cases ht; exact .idle hr (.inl ‹_›)
    · split at ht
      · rename_i sn hsn hb
        rw [runEngine, andThen_eq_next] at ht
        obtain ⟨u, hu, ht⟩ := ht
        split at ht
        · rw [andThen_eq_next] at ht
          obtain ⟨v, hv, ht⟩ := ht
          cases ht
          exact .complete sn u v hr hb hsn hu ‹_› hv
        · cases ht
          exact .older sn u hr hb hsn hu (by simpa using ‹¬ completionDue s.cycle u = true›)
      · cases ht
        exact .idle hr (.inr (by simpa using ‹¬ s.busy = true›))

/-- What the host's access can do, its answer aside. -/
inductive Served (s : State) (c : Cycle) : State → Prop where
  | none (h : c.portAccess s.params = none) : Served s c { s with resp := none }
  | read (p : PortAccess) (h : c.portAccess s.params = some p) (r : Response)
      (hw : ∀ a, p.writesByte s.params.memBytes a = false) (hc : ∀ o d, p ≠ .csrWrite o 4 d) :
      Served s c (respond r s)
  | ignored (off : BitVec 8) (size : Nat) (d : Word) (h : c.portAccess s.params = some (.csrWrite off size d))
      (r : Response) (hi : c.rst = true ∨ csrAccessOk off size = false) : Served s c (respond r s)
  | command (w : Word) (op : Opcode) (t : State)
      (h : c.portAccess s.params = some (.csrWrite CsrName.cmd.offset 4 w)) (hr : c.rst = false)
      (hp : processCmd w s = .next t) (hi : Issued op s t) :
      Served s c (respond (plainAnswer false) t)
  | csrWrite (off : BitVec 8) (w : Word) (h : c.portAccess s.params = some (.csrWrite off 4 w))
      (hr : c.rst = false) (hok : csrAccessOk off 4 = true) (ho : off ≠ CsrName.cmd.offset) :
      Served s c (respond (plainAnswer false) (writeCsr off w s))
  | memWrite (a n : Nat) (d : Word) (h : c.portAccess s.params = some (.memWrite a n d))
      (hok : memAccessOk s.params.memBytes a n = true) :
      Served s c (respond (plainAnswer false) { s with sram := s.sram.writeLE a n d.toNat })

/-- The host's access always answers. -/
theorem serveAccess_cases {s : State} (c : Cycle) (h : s.turn = .host) :
    ∃ t, serveAccess c s = .next t ∧ Served s c t := by
  unfold serveAccess
  split
  · exact ⟨_, rfl, .none ‹_›⟩
  · rename_i p hp
    cases p with
    | csrRead off size =>
      simp only [servePort, serveCsrRead]
      split
      · exact ⟨_, rfl, .read _ hp _ (fun _ => rfl) (fun _ _ => by simp)⟩
      · exact ⟨_, rfl, .read _ hp _ (fun _ => rfl) (fun _ _ => by simp)⟩
    | csrWrite off size d =>
      simp only [servePort, serveCsrWrite]
      split
      · exact ⟨_, rfl, .ignored off size d hp _ (.inr (by simp_all))⟩
      · rename_i hok
        have hok : csrAccessOk off size = true := by simpa using hok
        have h4 : size = 4 := by simp [csrAccessOk] at hok; exact hok.1
        subst h4
        split
        · exact ⟨_, rfl, .ignored off 4 d hp _ (.inl ‹_›)⟩
        · rename_i hr
          have hr : c.rst = false := by simpa using hr
          split
          · rename_i ho
            subst ho
            obtain ⟨op, t, ht, hi⟩ := processCmd_cases d h
            exact ⟨_, by rw [ht]; rfl, .command d op t hp hr ht hi⟩
          · exact ⟨_, rfl, .csrWrite off d hp hr hok ‹_›⟩
    | memRead a n =>
      simp only [servePort, serveMemRead]
      split
      · exact ⟨_, rfl, .read _ hp _ (fun _ => rfl) (fun _ _ => by simp)⟩
      · exact ⟨_, rfl, .read _ hp _ (fun _ => rfl) (fun _ _ => by simp)⟩
    | memWrite a n d =>
      simp only [servePort, serveMemWrite]
      split
      · exact ⟨_, rfl, .memWrite a n d hp ‹_›⟩
      · rename_i hok
        refine ⟨_, rfl, .read _ hp _ (fun b => ?_) (fun _ _ => by simp)⟩
        simp only [PortAccess.writesByte]
        simp_all

/-- What the host's turn does: its access, the bytes moved late, the end of the cycle. -/
theorem step_host_cases {s t : State} (h : s.turn = .host) (ht : step s = .next t) :
    ∃ u v, Served s s.cycle u ∧ serveAccess s.cycle s = .next u ∧ moveBytes s.cycle.movesAfter u = .next v ∧
      t = endCycle v := by
  rw [step_host h, hostTurn, andThen_eq_next] at ht
  obtain ⟨u, hu, ht⟩ := ht
  obtain ⟨u', hu', hs⟩ := serveAccess_cases s.cycle h
  rw [hu'] at hu
  cases hu
  rw [endHostTurn, andThen_eq_next] at ht
  obtain ⟨v, hv, ht⟩ := ht
  cases ht
  exact ⟨u, v, hs, hu', hv, rfl⟩

/-- A CSR write other than of CMD writes host registers and STATUS fields only. -/
theorem writeCsr_frame (off : BitVec 8) (w : Word) (s : State) :
    writeCsr off w s = { s with
      key := (writeCsr off w s).key
      addr := (writeCsr off w s).addr
      doneIE := (writeCsr off w s).doneIE
      errIE := (writeCsr off w s).errIE
      done := (writeCsr off w s).done
      err := (writeCsr off w s).err
      errCode := (writeCsr off w s).errCode
      errLane := (writeCsr off w s).errLane
      errAddr := (writeCsr off w s).errAddr } := by
  unfold writeCsr
  split
  · rename_i r _
    cases r <;> simp only [writeReg] <;> try rfl
    unfold writeStatus clearDone clearError
    repeat' split
    all_goals rfl
  · rfl

end Sys2Proof.Machine
end

