-- ==== Sys2Proof/Laws/Transfer.lean ====
section
/-! SUPPORT. The block transfer, byte by byte: which SRAM address and lane byte each of the 128 transfer
bytes is, and all that the engine's moves and a completion do to them. -/

namespace Sys2Proof.Machine

theorem stillToMove_iff {m : List Host.Cell} {k : Nat} :
    stillToMove m k = true ↔ k < 128 ∧ cellAt m k = none := by
  unfold stillToMove
  rw [Bool.and_eq_true, decide_eq_true_iff, Option.isNone_iff_eq_none]
  rfl

theorem cellAt_mem {m : List Host.Cell} {k : Nat} {v : Byte} (h : cellAt m k = some v) : (k, v) ∈ m := by
  induction m with
  | nil => simp [cellAt] at h
  | cons c rest ih =>
    obtain ⟨a, w⟩ := c
    simp only [cellAt] at h
    split at h
    · cases h
      subst_vars
      exact List.mem_cons_self
    · exact List.mem_cons_of_mem _ (ih h)

/-- In a list of rising keys every entry is the one its key finds. -/
theorem cellAt_of_mem {m : List Host.Cell} {c : Host.Cell} (hr : risingCells m = true) (hc : c ∈ m) :
    cellAt m c.1 = some c.2 := by
  induction m with
  | nil => cases hc
  | cons d rest ih =>
    obtain ⟨a, w⟩ := d
    simp only [risingCells, Bool.and_eq_true, List.all_eq_true, decide_eq_true_eq] at hr
    rcases List.mem_cons.1 hc with rfl | h
    · simp [cellAt]
    · have := hr.1 _ h
      simp only [cellAt]
      rw [if_neg (by omega)]
      exact ih hr.2 h

/-- Transfer byte `16 * i + j` is byte `j` of block `i` (20_memory.md R44). -/
theorem transferAddr_block (ea : Lanes Nat) (i : Fin 8) {j : Nat} (hj : j < 16) :
    transferAddr ea (16 * i.val + j) = ea.get i + j := by
  have : Fin.ofNat 8 ((16 * i.val + j) / 16) = i := Fin.ext (by simp [Fin.ofNat]; omega)
  rw [transferAddr, this]
  omega

/-- Transfer byte `16 * i + j` is byte `j` of lane `i` (20_memory.md R44). -/
theorem laneByte_block (l : Lanes Block) (i : Fin 8) {j : Nat} (hj : j < 16) :
    laneByte l (16 * i.val + j) = Block.byte (l.get i) j := by
  have : Fin.ofNat 8 ((16 * i.val + j) / 16) = i := Fin.ext (by simp [Fin.ofNat]; omega)
  rw [laneByte, this]
  congr 1
  omega

/-- Every transfer byte is byte `j` of some lane `i`. -/
theorem transfer_byte_block {k : Nat} (hk : k < 128) : ∃ (i : Fin 8) (j : Nat), j < 16 ∧ k = 16 * i.val + j :=
  ⟨⟨k / 16, by omega⟩, k % 16, by omega, by simp; omega⟩

/-- Disjoint blocks: no two transfer bytes share an SRAM address. -/
theorem transferAddr_injective {ea : Lanes Nat}
    (hd : ∀ i j, i ≠ j → ea.get i + 16 ≤ ea.get j ∨ ea.get j + 16 ≤ ea.get i) {k k' : Nat} (hk : k < 128)
    (hk' : k' < 128) (h : transferAddr ea k = transferAddr ea k') : k = k' := by
  unfold transferAddr at h
  by_contra hne
  by_cases hq : k / 16 = k' / 16
  · rw [hq] at h
    omega
  · have : Fin.ofNat 8 (k / 16) ≠ Fin.ofNat 8 (k' / 16) := by
      intro he
      have := congrArg Fin.val he
      simp [Fin.ofNat] at this
      omega
    have := hd _ _ this
    omega

/-- All that reading bytes early does (20_memory.md R53). -/
theorem foldl_loadByte_moved (ea : Lanes Nat) (ks : List Nat) (s : State) :
    ∃ m, ks.foldl (loadByte ea) s = { s with window := { s.window with moved := m } } ∧
      (∀ k, cellAt m k = match cellAt s.window.moved k with
        | some v => some v
        | none => if k ∈ ks ∧ k < 128 then some (s.sram.read (transferAddr ea k)) else none) ∧
      (risingCells s.window.moved = true → risingCells m = true) ∧
      ∀ c ∈ m, c ∈ s.window.moved ∨ c.1 < 128 := by
  induction ks generalizing s with
  | nil =>
    refine ⟨s.window.moved, rfl, fun k => ?_, id, fun c h => .inl h⟩
    cases cellAt s.window.moved k <;> simp
  | cons k₀ rest ih =>
    simp only [List.foldl_cons]
    unfold loadByte
    split
    · rename_i h
      rw [stillToMove_iff] at h
      obtain ⟨m, hm, hc, hr, hmem⟩ := ih { s with window := { s.window with
        moved := setCell s.window.moved k₀ (s.sram.read (transferAddr ea k₀)) } }
      refine ⟨m, hm, fun k => ?_, fun h1 => hr (risingCells_setCell _ _ h1), fun c hcm => ?_⟩
      · rw [hc]
        simp only [cellAt_setCell]
        by_cases hk : k = k₀
        · subst hk
          simp [h.1, h.2]
        · cases cellAt s.window.moved k <;> simp [hk, Ne.symm hk]
      · rcases hmem c hcm with h1 | h1
        · rcases mem_setCell h1 with rfl | h1
          · exact .inr h.1
          · exact .inl h1
        · exact .inr h1
    · rename_i h
      obtain ⟨m, hm, hc, hr, hmem⟩ := ih s
      refine ⟨m, hm, fun k => ?_, hr, hmem⟩
      rw [hc]
      cases hh : cellAt s.window.moved k with
      | some v => rfl
      | none =>
        simp only [List.mem_cons]
        by_cases hk : k = k₀
        · subst hk
          rw [stillToMove_iff] at h
          simp only [hh, and_true] at h
          rw [if_neg (by omega), if_neg (by omega)]
        · simp [hk]

/-- All that writing bytes early does (20_memory.md R54). -/
theorem foldl_storeByte_moved (ea : Lanes Nat) (ks : List Nat) (s : State) :
    ∃ m r, ks.foldl (storeByte ea) s = { s with sram := r, window := { s.window with moved := m } } ∧
      (∀ k, cellAt m k = match cellAt s.window.moved k with
        | some v => some v
        | none => if k ∈ ks ∧ k < 128 then some (laneByte s.lanes k) else none) ∧
      (risingCells s.window.moved = true → risingCells m = true) ∧
      (∀ c ∈ m, c ∈ s.window.moved ∨ c.1 < 128 ∧ c.2 = laneByte s.lanes c.1) ∧
      ((∀ i j, i ≠ j → ea.get i + 16 ≤ ea.get j ∨ ea.get j + 16 ≤ ea.get i) → ∀ k, k < 128 →
        r.read (transferAddr ea k) = if k ∈ ks ∧ cellAt s.window.moved k = none then laneByte s.lanes k
          else s.sram.read (transferAddr ea k)) ∧
      (∀ a, r.read a = s.sram.read a ∨
        ∃ k, k < 128 ∧ a = transferAddr ea k ∧ r.read a = laneByte s.lanes k) ∧
      (∀ c ∈ r, c ∈ s.sram ∨ ∃ k, k < 128 ∧ c.1 = transferAddr ea k) ∧
      (s.sram.wf = true → r.wf = true) := by
  induction ks generalizing s with
  | nil =>
    refine ⟨s.window.moved, s.sram, rfl, fun k => ?_, id, fun c h => .inl h, fun _ k _ => by simp,
      fun a => .inl rfl, fun c h => .inl h, id⟩
    cases cellAt s.window.moved k <;> simp
  | cons k₀ rest ih =>
    simp only [List.foldl_cons]
    unfold storeByte
    split
    · rename_i h
      rw [stillToMove_iff] at h
      obtain ⟨m, r, hm, hc, hr, hmem, hrd, hw, hrc, hwf⟩ := ih { s with
        sram := s.sram.write (transferAddr ea k₀) (laneByte s.lanes k₀)
        window := { s.window with moved := setCell s.window.moved k₀ (laneByte s.lanes k₀) } }
      refine ⟨m, r, hm, fun k => ?_, fun h1 => hr (risingCells_setCell _ _ h1), fun c hcm => ?_,
        fun hd k hk => ?_, fun a => ?_, fun c hcr => ?_, fun h1 => hwf (Memory.wf_write _ _ h1)⟩
      · rw [hc]
        simp only [cellAt_setCell]
        by_cases hk : k = k₀
        · subst hk
          simp [h.1, h.2]
        · cases cellAt s.window.moved k <;> simp [hk, Ne.symm hk]
      · rcases hmem c hcm with h1 | h1
        · rcases mem_setCell h1 with rfl | h1
          · exact .inr ⟨h.1, rfl⟩
          · exact .inl h1
        · exact .inr h1
      · rw [hrd hd k hk]
        simp only [Memory.read_write, cellAt_setCell]
        by_cases hkk : k = k₀
        · subst hkk
          simp [h.2]
        · have : transferAddr ea k ≠ transferAddr ea k₀ := fun he => hkk (transferAddr_injective hd hk h.1 he)
          simp [hkk, Ne.symm hkk, Ne.symm this]
      · rcases hw a with h1 | h1
        · simp only [Memory.read_write] at h1
          by_cases ha : a = transferAddr ea k₀
          · subst ha
            exact .inr ⟨k₀, h.1, rfl, by simpa using h1⟩
          · exact .inl (by simpa [ha, Ne.symm ha] using h1)
        · exact .inr h1
      · rcases hrc c hcr with h1 | h1
        · rcases Memory.mem_write h1 with h2 | h2
          · exact .inr ⟨k₀, h.1, h2⟩
          · exact .inl h2
        · exact .inr h1
    · rename_i h
      obtain ⟨m, r, hm, hc, hr, hmem, hrd, hw, hrc, hwf⟩ := ih s
      refine ⟨m, r, hm, fun k => ?_, hr, hmem, fun hd k hk => ?_, hw, hrc, hwf⟩
      · rw [hc]
        cases hh : cellAt s.window.moved k with
        | some v => rfl
        | none =>
          simp only [List.mem_cons]
          by_cases hk : k = k₀
          · subst hk
            rw [stillToMove_iff] at h
            simp only [hh, and_true] at h
            rw [if_neg (by omega), if_neg (by omega)]
          · simp [hk]
      · rw [hrd hd k hk]
        by_cases hkk : k = k₀
        · subst hkk
          rw [stillToMove_iff] at h
          rw [if_neg, if_neg] <;> intro hx <;> exact h ⟨hk, hx.2⟩
        · simp [hkk]

/-- Byte `j` of a lane a LOAD8 leaves (20_memory.md R53). -/
theorem byte_loadedLanes (ea : Lanes Nat) (s : State) (i : Fin 8) {j : Nat} (hj : j < 16) :
    Block.byte ((loadedLanes ea s).get i) j =
      (cellAt s.window.moved (16 * i.val + j)).getD (s.sram.read (ea.get i + j)) := by
  simp only [loadedLanes, Lanes.get_ofFn]
  rw [Block.byte_ofBytes _ _ hj]

/-- The bytes of the SRAM a STORE8 leaves (20_memory.md R54). -/
theorem read_storedSram (ea : Lanes Nat) (s : State) :
    ((∀ i j, i ≠ j → ea.get i + 16 ≤ ea.get j ∨ ea.get j + 16 ≤ ea.get i) → ∀ k, k < 128 →
      (storedSram ea s).read (transferAddr ea k) =
        if cellAt s.window.moved k = none then laneByte s.lanes k else s.sram.read (transferAddr ea k)) ∧
    (∀ a, (storedSram ea s).read a = s.sram.read a ∨
      ∃ k, k < 128 ∧ a = transferAddr ea k ∧ (storedSram ea s).read a = laneByte s.lanes k) ∧
    ∀ c ∈ storedSram ea s, c ∈ s.sram ∨ ∃ k, k < 128 ∧ c.1 = transferAddr ea k := by
  have key : ∀ (ks : List Nat) (m r : Memory),
      r = ks.foldl (fun m k => if stillToMove s.window.moved k then
        Memory.write m (transferAddr ea k) (laneByte s.lanes k) else m) m →
      ((∀ i j, i ≠ j → ea.get i + 16 ≤ ea.get j ∨ ea.get j + 16 ≤ ea.get i) → ∀ k, k < 128 →
        r.read (transferAddr ea k) = if k ∈ ks ∧ cellAt s.window.moved k = none then laneByte s.lanes k
          else m.read (transferAddr ea k)) ∧
      (∀ a, r.read a = m.read a ∨ ∃ k, k < 128 ∧ a = transferAddr ea k ∧ r.read a = laneByte s.lanes k) ∧
      ∀ c ∈ r, c ∈ m ∨ ∃ k, k < 128 ∧ c.1 = transferAddr ea k := by
    intro ks
    induction ks with
    | nil =>
      rintro m r rfl
      exact ⟨fun _ k _ => by simp, fun a => .inl rfl, fun c h => .inl h⟩
    | cons k₀ rest ih =>
      intro m r hr
      simp only [List.foldl_cons] at hr
      split at hr
      · rename_i h
        rw [stillToMove_iff] at h
        obtain ⟨hrd, hw, hrc⟩ := ih _ r hr
        refine ⟨fun hd k hk => ?_, fun a => ?_, fun c hcr => ?_⟩
        · rw [hrd hd k hk]
          simp only [Memory.read_write]
          by_cases hkk : k = k₀
          · subst hkk
            simp [h.2]
          · have : transferAddr ea k ≠ transferAddr ea k₀ :=
              fun he => hkk (transferAddr_injective hd hk h.1 he)
            simp [hkk, Ne.symm this]
        · rcases hw a with h1 | h1
          · simp only [Memory.read_write] at h1
            by_cases ha : a = transferAddr ea k₀
            · subst ha
              exact .inr ⟨k₀, h.1, rfl, by simpa using h1⟩
            · exact .inl (by simpa [ha, Ne.symm ha] using h1)
          · exact .inr h1
        · rcases hrc c hcr with h1 | h1
          · rcases Memory.mem_write h1 with h2 | h2
            · exact .inr ⟨k₀, h.1, h2⟩
            · exact .inl h2
          · exact .inr h1
      · rename_i h
        obtain ⟨hrd, hw, hrc⟩ := ih _ r hr
        refine ⟨fun hd k hk => ?_, hw, hrc⟩
        rw [hrd hd k hk]
        by_cases hkk : k = k₀
        · subst hkk
          rw [stillToMove_iff] at h
          rw [if_neg, if_neg] <;> intro hx <;> exact h ⟨hk, hx.2⟩
        · simp [hkk]
  obtain ⟨h1, h2, h3⟩ := key (List.range transferBytes) s.sram (storedSram ea s) rfl
  refine ⟨fun hd k hk => ?_, h2, h3⟩
  rw [h1 hd k hk]
  simp [transferBytes, hk]

/-- The bytes after a host write of `n` bytes at `a` (20_memory.md R45). -/
theorem Memory.read_writeLE (n : Nat) : ∀ (m : Memory) (a d b : Nat), (m.writeLE a n d).read b =
    if a ≤ b ∧ b < a + n then BitVec.ofNat 8 (d / 2 ^ (8 * (b - a))) else m.read b := by
  induction n with
  | zero =>
    intro m a d b
    rw [if_neg (by omega)]
    rfl
  | succ n ih =>
    intro m a d b
    simp only [Memory.writeLE, ih, Memory.read_write]
    by_cases h : b = a
    · subst h
      simp
    · by_cases h2 : a + 1 ≤ b ∧ b < a + 1 + n
      · rw [if_pos h2, if_pos ⟨by omega, by omega⟩, Nat.div_div_eq_div_mul]
        congr 2
        rw [show 8 * (b - a) = 8 + 8 * (b - (a + 1)) by omega, pow_add]
        norm_num
      · rw [if_neg h2, if_neg (Ne.symm h), if_neg (by omega)]

/-- An entry of the memory after a host write lies in the written bytes or was there before. -/
theorem Memory.mem_writeLE (n : Nat) : ∀ (m : Memory) (a d : Nat) (c : Host.Cell), c ∈ m.writeLE a n d →
    c ∈ m ∨ a ≤ c.1 ∧ c.1 < a + n := by
  induction n with
  | zero => exact fun m a d c h => .inl h
  | succ n ih =>
    intro m a d c h
    rcases ih _ _ _ c h with h | h
    · rcases Memory.mem_write h with h | h
      · right
        omega
      · exact .inl h
    · right
      omega

end Sys2Proof.Machine
end

