-- ==== Sys2Proof/Tests/Slice0.lean ====
section
/-! SUPPORT. Tests of the model, expected values from spec/ (95_test_vectors.md unless said otherwise), and
a witness for the hypotheses of every obligation. -/

namespace Sys2Proof.Tests

open Sys2Proof.Machine Sys2Proof.Claims

/-! Small states -/

/-- `MEM_BYTES` = 0x1000, as every vector has it. -/
def params : Params := ⟨0x1000, 0, 0x10000, 1, 8⟩

/-- SRAM 0x100 .. 0x17F holds 0x00 .. 0x7F. -/
def ramp : Memory := (List.range 127).map fun k => (0x101 + k, BitVec.ofNat 8 (k + 1))

/-- The addresses `a + 16 * i`. -/
def row (a : Nat) : Lanes Nat := Lanes.ofFn fun i => a + 16 * i.val

/-- The lanes of state S1. -/
def s1Lanes : Lanes Block := Lanes.ofFn fun i => Block.ofBytes fun j => BitVec.ofNat 8 (16 * i.val + j)

/-- Reset, on the host's turn. -/
def atHost : State := { State.resetWith params with sram := ramp, turn := .host }

/-- S1, on the host's turn. -/
def s1 : State :=
  { atHost with lanes := s1Lanes, lv := true, addr := (row 0x100).map (BitVec.ofNat 32) }

/-- The ADDR registers written. -/
def addrs (l : Lanes Nat) (s : State) : State := { s with addr := l.map (BitVec.ofNat 32) }

/-- A cycle with one access. -/
def access (a : PortAccess) : Cycle := { Cycle.idle with access := some (.port a) }

/-- The host makes one access in this cycle. -/
def withAccess (a : PortAccess) (s : State) : State := { s with inputs := [access a] }

/-- A command in flight from S1, on the engine's turn. -/
def flying (op : Opcode) (k : Block) (ea : Option (Lanes Nat)) (inputs : List Cycle) : State :=
  { s1 with turn := .engine, busy := true, snapshot := some ⟨op, k, ea⟩, inputs := inputs }

/-- The key of the per-lane table of §2.4. -/
def key24 : Block := Block.b 0x0f0e0d0c0b0a09080706050403020100#128

/-- A cycle in which the command in flight completes as early as it may. -/
def early : Cycle := { Cycle.idle with finish := true }

def lanesOf : Host.Outcome State Fault Refusal → Option (Lanes Block)
  | .next t => some t.lanes
  | .fault _ => none
  | .refused _ => none

def lane (i : Fin 8) (o : Host.Outcome State Fault Refusal) : Option Block := (lanesOf o).map fun l => l.get i

/-- STATUS and ERRADDR of a next state. -/
def report : Host.Outcome State Fault Refusal → Option (Word × Word)
  | .next t => some (t.statusWord, t.errAddr)
  | .fault _ => none
  | .refused _ => none

def memOf : Host.Outcome State Fault Refusal → Option Memory
  | .next t => some t.sram
  | .fault _ => none
  | .refused _ => none

def respOf : Host.Outcome State Fault Refusal → Option Response
  | .next t => t.resp
  | .fault _ => none
  | .refused _ => none

/-! Decoding: `RSV || C || OP`, bit 31 first (30_encoding.md R61, R64) -/

theorem test_decode_load8 :
    decodeCmd 0b00000000000000000000000000000001#32 = .ok (.load8 .independent) ∧
    decodeCmd 0b00000000000000000000000000010001#32 = .ok (.load8 .contiguous) := by decide
theorem test_decode_store8 :
    decodeCmd 0b00000000000000000000000000000010#32 = .ok (.store8 .independent) ∧
    decodeCmd 0b00000000000000000000000000010010#32 = .ok (.store8 .contiguous) := by decide
theorem test_decode_xor8 : decodeCmd 0b00000000000000000000000000000011#32 = .ok .xor8 := by decide
theorem test_decode_aesenc8 : decodeCmd 0b00000000000000000000000000000100#32 = .ok .aesenc8 := by decide
theorem test_decode_aesenclast8 : decodeCmd 0b00000000000000000000000000000101#32 = .ok .aesenclast8 := by decide
theorem test_decode_aesdec8 : decodeCmd 0b00000000000000000000000000000110#32 = .ok .aesdec8 := by decide
theorem test_decode_aesdeclast8 : decodeCmd 0b00000000000000000000000000000111#32 = .ok .aesdeclast8 := by decide

/-- The illegal words of the decoding table of §2.1. -/
theorem test_decode_rejects :
    ∀ w ∈ [0x0#32, 0x13#32, 0x14#32, 0x15#32, 0x16#32, 0x17#32, 0x8#32, 0x9#32, 0xf#32, 0x10#32, 0x1f#32,
      0x20#32, 0x21#32, 0x80000001#32, 0xffffffff#32], ∀ s, processCmd w s = .next (rejectIllegal s) := by
  intro w hw s
  simp only [List.mem_cons, List.not_mem_nil, or_false] at hw
  rcases hw with rfl | rfl | rfl | rfl | rfl | rfl | rfl | rfl | rfl | rfl | rfl | rfl | rfl | rfl | rfl <;> rfl

/-- A table word is the command's word. -/
theorem test_table_words :
    decodeTableWord 32 0x12 = some (.store8 .contiguous) ∧ decodeTableWord 32 0x6 = some .aesdec8 ∧
    decodeTableWord 32 0x26 = none := by decide

/-! Well-formedness: an ill-formed term for each check -/

/-- OP out of range below and above, RSV, C (30_encoding.md R65). -/
theorem test_illformed_words :
    legalWord 0x0#32 = false ∧ legalWord 0x8#32 = false ∧ legalWord 0x00000021#32 = false ∧
    legalWord 0x13#32 = false ∧ legalWord 0x11#32 = true := by decide

/-- MEM_BYTES too small and too large, CSR_BASE not a multiple of 256, LAT_MIN = 0, LAT_MIN > LAT_MAX
(00_scope.md R5, R6; 10_state.md R18). -/
theorem test_illformed_params :
    ({ params with memBytes := 15 }).wellFormed = false ∧
    ({ params with memBytes := 2 ^ 32 + 1 }).wellFormed = false ∧
    ({ params with csrBase := 128 }).wellFormed = false ∧ ({ params with latMin := 0 }).wellFormed = false ∧
    ({ params with latMin := 9 }).wellFormed = false ∧ params.wellFormed = true ∧
    ({ params with memBytes := 16 }).wellFormed = true ∧
    ({ params with memBytes := 2 ^ 32 }).wellFormed = true := by decide

/-! LOAD8 -/

/-- L1: lanes 0 and 7. -/
theorem test_load8_bytes :
    lane 0 (exec (.load8 .contiguous) (flying .load8 0 (some (row 0x100)) [])) =
      some (Block.b 0x000102030405060708090a0b0c0d0e0f#128) ∧
    lane 7 (exec (.load8 .contiguous) (flying .load8 0 (some (row 0x100)) [])) =
      some (Block.b 0x707172737475767778797a7b7c7d7e7f#128) := by decide

/-- L5, L6 and L7. -/
theorem test_load8_range :
    report (processCmd 0x11#32 (addrs (row 0xf81) atHost)) = some (0x00007404#32, 0x00000ff1#32) ∧
    report (processCmd 0x11#32 (addrs (row 0xfffffff0) atHost)) = some (0x00000404#32, 0xfffffff0#32) ∧
    report (processCmd 0x01#32 (addrs ⟨0x0, 0x10, 0x20, 0x1000, 0x40, 0x50, 0xffffffff, 0x70⟩ atHost)) =
      some (0x00003404#32, 0x00001000#32) := by decide

/-! STORE8 -/

/-- S2: the first and the last byte of the destination, and the bytes next to it. -/
theorem test_store8_bytes :
    (memOf (exec (.store8 .independent) (flying .store8 0 (some (row 0x208)) []))).map
      (fun m => (m.read 0x207, m.read 0x209, m.read 0x287, m.read 0x288)) =
      some (0x00#8, 0x01#8, 0x7f#8, 0x00#8) := by decide +kernel

/-- S1, S3, S5 and S8. -/
theorem test_store8_rejected :
    report (processCmd 0x12#32 (addrs (row 0x200) atHost)) = some (0x00000304#32, 0x00000000#32) ∧
    report (processCmd 0x02#32 (addrs ⟨0x200, 0x300, 0x400, 0x20f, 0x500, 0x600, 0x700, 0x800⟩ s1)) =
      some (0x0000350c#32, 0x0000020f#32) ∧
    report (processCmd 0x02#32 (addrs ⟨0x200, 0x201, 0x220, 0x230, 0x240, 0x250, 0x260, 0xff1⟩ s1)) =
      some (0x0000740c#32, 0x00000ff1#32) ∧
    report (processCmd 0x02#32 (addrs ⟨0x200, 0x300, 0x201, 0x400, 0x500, 0x600, 0x700, 0x202⟩ s1)) =
      some (0x0000250c#32, 0x00000201#32) := by decide

/-! XOR8 and the rounds: lanes 0 and 7 of the table of §2.4 -/

theorem test_xor8 :
    lane 0 (exec .xor8 (flying .xor8 key24 none [])) = some (Block.b 0x0f0f0f0f0f0f0f0f0f0f0f0f0f0f0f0f#128) ∧
    lane 7 (exec .xor8 (flying .xor8 key24 none [])) =
      some (Block.b 0x7f7f7f7f7f7f7f7f7f7f7f7f7f7f7f7f#128) := by decide
theorem test_aesenc8 :
    lane 0 (exec .aesenc8 (flying .aesenc8 key24 none [])) =
      some (Block.b 0x6564514927673a59b7df5865249e205c#128) ∧
    lane 7 (exec .aesenc8 (flying .aesenc8 key24 none [])) =
      some (Block.b 0x19d90307896e5ae5cb6ac295c426a1e9#128) := by decide +kernel
theorem test_aesenclast8 :
    lane 0 (exec .aesenclast8 (flying .aesenclast8 key24 none [])) =
      some (Block.b 0x6c656a7af90ba27337d172c1fd7e6e2b#128) ∧
    lane 7 (exec .aesenclast8 (flying .aesenclast8 key24 none [])) =
      some (Block.b 0x5e93d7de99bcfa87bbf945f113a13921#128) := by decide
theorem test_aesdec8 :
    lane 0 (exec .aesdec8 (flying .aesdec8 key24 none [])) =
      some (Block.b 0x1cad9b10251320661049f7b6c5bf9a51#128) ∧
    lane 7 (exec .aesdec8 (flying .aesdec8 key24 none [])) =
      some (Block.b 0x5cafcb4437f7ab04cf8f1fd43833684d#128) := by decide +kernel
theorem test_aesdeclast8 :
    lane 0 (exec .aesdeclast8 (flying .aesdeclast8 key24 none [])) =
      some (Block.b 0x5dfdae343b03de96b8306fff8242a4d5#128) ∧
    lane 7 (exec .aesdeclast8 (flying .aesdeclast8 key24 none [])) =
      some (Block.b 0xdf1db00ec126830bc6391b6f02ad0e8f#128) := by decide

/-- The transforms alone, second row of §2.6. -/
theorem test_transforms :
    let v := Block.b 0x193de3bea0f4e22b9ac68d2ae9f84808#128
    subBytes v = Block.b 0xd42711aee0bf98f1b8b45de51e415230#128 ∧
    shiftRows v = Block.b 0x19f48d08a0c648be9af8e32be93de22a#128 ∧
    mixColumns v = Block.b 0x28e320929545f6bbd9ab23aa9ad29980#128 ∧
    invSubBytes v = Block.b 0x8e8b4d5a47ba3b0b37c7b495ebe1d4bf#128 ∧
    invShiftRows v = Block.b 0x19f88d2ba03d482a9af4e308e9c6e2be#128 ∧
    invMixColumns v = Block.b 0x083c004d0290616e1cafe6ae968195d3#128 := by decide

/-- P2: the first two keys of the decryption key sequence, `d[1] = InvMixColumns(K[9])`. -/
theorem test_decryption_key :
    invMixColumns (Block.b 0x549932d1f08557681093ed9cbe2c974e#128) =
      (⟨0xbe29aa13#32, 0xf6af8f9c#32, 0x80f570f7#32, 0x03bff700#32⟩ : KeyRegs).block := by decide

/-! Registers, STATUS, interrupt -/

/-- CS1, CS13, CS14, CS17, CS20 and CS23. -/
theorem test_csr_access :
    respOf (servePort false (.csrRead 0x00#8 4) atHost) = some ⟨0x41455338#32, false⟩ ∧
    readCsr 0x04#8 (writeCsr 0x04#8 0xFFFFFFFF#32 atHost) = 0x3#32 ∧
    readCsr 0x08#8 (writeCsr 0x08#8 0xFFFFFFFF#32 atHost) = 0x0#32 ∧
    readCsr 0x40#8 (writeCsr 0x40#8 0x55#32 atHost) = 0x0#32 ∧
    respOf (servePort false (.csrRead 0x02#8 4) atHost) = some ⟨0x0#32, true⟩ ∧
    respOf (servePort false (.csrWrite 0x04#8 1 0x3#32) atHost) = some ⟨0x0#32, true⟩ := by decide

/-- DONE = 1 and ERR = 1, as rows W1 to W7 start. -/
def wRow : State :=
  { s1 with done := true, err := true, errCode := .memRange, errAddr := 0xff1#32, doneIE := true, errIE := true }

/-- W1, W2, W3, W4 and W7: STATUS, ERRADDR and irq. -/
theorem test_status_clear :
    (wRow.statusWord, wRow.irq) = (0x40e#32, true) ∧
    (let t := writeStatus 0x2#32 wRow; (t.statusWord, t.errAddr, t.irq) = (0x40c#32, 0xff1#32, true)) ∧
    (let t := writeStatus 0x4#32 wRow; (t.statusWord, t.errAddr, t.irq) = (0xa#32, 0x0#32, true)) ∧
    (let t := writeStatus 0x6#32 wRow; (t.statusWord, t.errAddr, t.irq) = (0x8#32, 0x0#32, false)) ∧
    (let t := writeStatus 0xfffffff9#32 wRow; (t.statusWord, t.errAddr) = (0x40e#32, 0xff1#32)) := by decide

/-- I2, I3 and I7. -/
theorem test_irq :
    ({ s1 with done := true, doneIE := true }).irq = true ∧ ({ s1 with done := true, errIE := true }).irq = false ∧
    ({ s1 with err := true, errIE := true }).irq = true := by decide

/-! The host's SRAM port -/

/-- M1, M4, M6, M7, M9 and M10. -/
theorem test_host_memory :
    let m : State := { atHost with sram := (Memory.writeLE [] 0x100 4 0x33221100) }
    (m.sram.read 0x100, m.sram.read 0x103) = (0x00#8, 0x33#8) ∧
    respOf (servePort false (.memRead 0x102 2) m) = some ⟨0x3322#32, false⟩ ∧
    Memory.readLE (Memory.writeLE [] 0x104 2 0x5544) 0x104 4 = 0x5544 ∧
    respOf (servePort false (.memRead 0x101 2) m) = some ⟨0x0#32, true⟩ ∧
    respOf (servePort false (.memRead 0xffc 4) m) = some ⟨0x0#32, false⟩ ∧
    respOf (servePort false (.memRead 0x1000 1) m) = some ⟨0x0#32, true⟩ := by decide

/-! Steps: reset, same-cycle events, races -/

/-- RS3: a reset drops the STORE8 in flight, a byte written before it stays. -/
theorem test_reset_aborts :
    (match step { flying .store8 0 (some (row 0x208)) [{ Cycle.idle with rst := true }] with
        sram := Memory.write ramp 0x287 0x7f#8, window := ⟨3, [(127, 0x7f#8)]⟩ } with
      | .next t => (t.statusWord, t.snapshot, t.sram.read 0x287, t.sram.read 0x209, t.lv)
      | _ => (1#32, none, 0#8, 0#8, true)) = (0x0#32, none, 0x7f#8, 0x0#8, false) := by decide

/-- SC1: the completion and a write clearing DONE in one cycle leave DONE = 1. -/
theorem test_same_cycle_clear :
    (match step (flying .xor8 key24 none [{ access (.csrWrite 0x08#8 4 0x2#32) with finish := true }]) with
      | .next t => report (step t)
      | _ => none) = some (0xa#32, 0x0#32) := by decide

/-- SC3: one cycle too early, CMD_BUSY. -/
theorem test_busy : report (step { withAccess (.csrWrite 0x0C#8 4 0x4#32) (flying .xor8 key24 none []) with
    turn := .host }) = some (0x20d#32, 0x0#32) := by decide

/-- 20_memory.md R55: a source byte the LOAD8 has read before the host writes it keeps its old value, one it
has not read yet takes the new one. -/
theorem test_load_race :
    let go := fun (before : List Nat) =>
      match step (flying .load8 0 (some (row 0x100)) [{ access (.memWrite 0x105 1 0xee#32) with
          movesBefore := before }, early]) with
      | .next t => match step t with
        | .next u => lane 0 (step u)
        | _ => none
      | _ => none
    go [5] = some (Block.b 0x000102030405060708090a0b0c0d0e0f#128) ∧
    go [] = some (Block.b 0x0001020304ee060708090a0b0c0d0e0f#128) := by decide

/-- A command word where the machine takes its next one runs as the first after reset. -/
theorem test_fetch_word :
    step (State.reset.withFetchWord 32 0x4) =
      .next { State.reset with err := true, errCode := .lanesInvalid, resp := some ⟨0#32, false⟩ } := rfl

/-! Host programs (30_encoding.md R69, R70) -/

/-- A run in which only `o` is left, the machine at `s`. -/
def lastOp (o : HostOp) (s : State) : HostRun := HostRun.start { s with turn := .engine } [o]

/-- Operations left, answers, and whether the program is in error. -/
def runReport : Host.Outcome HostRun Fault Refusal → Option (List HostOp × List Response × Bool)
  | .next r => some (r.ops, r.answers, r.inError)
  | .fault _ => none
  | .refused _ => none

/-- R70: `wait` stays while BUSY = 1, ends in the cycle that completes the command, and stays where the host
pauses (STATUS as in SC1). -/
theorem test_wait :
    let s := flying .xor8 key24 none []
    runReport (runCycle ⟨true, false, [], []⟩ (lastOp .wait s)) = some ([.wait], [], false) ∧
    runReport (runCycle ⟨true, true, [], []⟩ (lastOp .wait s)) = some ([], [⟨0xa#32, false⟩], false) ∧
    runReport (runCycle ⟨false, true, [], []⟩ (lastOp .wait s)) = some ([.wait], [], false) := by decide

/-- R70: `check` reads STATUS once, and r[2] = 1 is the program's error (W1). -/
theorem test_check :
    runReport (runCycle ⟨true, true, [], []⟩ (lastOp .check wRow)) = some ([], [⟨0x40e#32, false⟩], true) ∧
    runReport (runCycle ⟨true, true, [], []⟩ (lastOp .check s1)) = some ([], [⟨0x8#32, false⟩], false) := by
  decide

/-- P5's line 2, P1's line 10, and `aes.enc8` with 10 rounds but not with 9. -/
theorem test_host_lines :
    (HostLine.setkey key24).ops = [.access (.csrWrite 0x10#8 4 0x0c0d0e0f#32),
      .access (.csrWrite 0x14#8 4 0x08090a0b#32), .access (.csrWrite 0x18#8 4 0x04050607#32),
      .access (.csrWrite 0x1c#8 4 0x00010203#32)] ∧
    (HostLine.load8c 0x100#32).ops = [.access (.csrWrite 0x20#8 4 0x100#32), .access (.csrWrite 0x0c#8 4 0x11#32)] ∧
    ((assemble [.aesEnc8 0 (List.replicate 9 0) 0]).map List.length) = some (11 * 6) ∧
    assemble [.aesEnc8 0 (List.replicate 8 0) 0] = none := by decide

/-! Witnesses: for every obligation with hypotheses, a concrete case that meets all of them -/

/-- A command in flight from S1, or one state with other LV, with bytes moved: the invariant holds. -/
theorem inv_flying {op : Opcode} {k : Block} {ea : Option (Lanes Nat)} {inputs : List Cycle} {lv : Bool}
    {turn : Agent} {m : List Host.Cell} (ha : (⟨op, k, ea⟩ : Snapshot).addrsLegal params.memBytes = true)
    (hl : op ≠ .load8 → lv = true) (hr : risingCells m = true) (hm : ∀ c ∈ m, c.1 < transferBytes)
    (hn : op.movesBytes = false → m = []) (hs : op = .store8 → ∀ c ∈ m, c.2 = laneByte s1Lanes c.1) :
    Inv { flying op k ea inputs with lv := lv, turn := turn, window := ⟨0, m⟩ } where
  params := show Tests.params.wellFormed = true by decide
  busy := rfl
  noError := fun _ => ⟨rfl, rfl, rfl⟩
  error := fun h => nomatch h
  lanesLoaded := fun sn h hop => by cases h; exact hl hop
  addrs := fun sn h => by cases h; exact ha
  sramWf := show ramp.wf = true by decide +kernel
  sramRange := show ∀ c ∈ ramp, c.1 < 0x1000 by decide +kernel
  windowClosed := fun h => nomatch h
  age := show 0 < 8 by decide
  movedRising := hr
  movedRange := hm
  movedNone := fun sn h hop => by cases h; exact hn hop
  movedLanes := fun sn h hop => by cases h; exact hs hop
  doneNow := fun h => nomatch h

/-- A keyed command in flight. -/
theorem inv_keyed {op : Opcode} (k : Block) (inputs : List Cycle) (hop : op.movesBytes = false) :
    Inv (flying op k none inputs) :=
  inv_flying (by cases op <;> first | rfl | exact absurd hop (by decide)) (fun _ => rfl) rfl
    (fun _ h => nomatch h) (fun _ => rfl) (fun _ _ h => nomatch h)

/-- A LOAD8 in flight with two bytes read, LV as it may be. -/
theorem inv_load (lv : Bool) (turn : Agent) (inputs : List Cycle) :
    Inv { flying .load8 0 (some (row 0x100)) inputs with
      lv := lv, turn := turn, window := ⟨0, [(0, 0x00#8), (127, 0x7f#8)]⟩ } :=
  inv_flying (by decide) (fun h => absurd rfl h) (by decide) (by decide) (fun h => nomatch h) (fun h => nomatch h)

/-- A STORE8 in flight with two bytes written. -/
theorem inv_store (turn : Agent) (inputs : List Cycle) :
    Inv { flying .store8 0 (some (row 0x200)) inputs with
      lv := true, turn := turn, window := ⟨0, [(0, 0x00#8), (127, 0x7f#8)]⟩ } :=
  inv_flying (by decide) (fun _ => rfl) (by decide) (by decide) (fun h => nomatch h) (fun _ => by decide +kernel)

theorem inRange_row {a : Nat} (h : a + 128 ≤ 0x1000) : InRange 0x1000 (row a) := by
  intro i
  simp only [row, Lanes.get_ofFn]
  omega

theorem disjoint_row (a : Nat) : Disjoint (row a) := by
  intro i j hij
  simp only [row, Lanes.get_ofFn]
  have : i.val ≠ j.val := fun h => hij (Fin.ext h)
  omega

/-- No access; a port access; CMD writes of a legal and of an illegal word. -/
theorem test_witness_StepRunsTheDecodedCommand :
    (atHost.turn = .host ∧ atHost.cycle.portAccess atHost.params = none) ∧
    (∀ a ∈ [PortAccess.csrRead 0x08#8 4, .csrWrite 0x20#8 4 0x5#32, .memRead 0x100 4, .memWrite 0xffc 4 0x5#32,
        .csrWrite 0x0C#8 4 0x11#32, .csrWrite 0x0C#8 4 0x8#32],
      let s := withAccess a atHost
      s.turn = .host ∧ s.cycle.rst = false ∧ s.cycle.portAccess s.params = some a) ∧
    decodeCmd 0x11#32 = .ok (.load8 .contiguous) := by decide

theorem test_witness_StepCompletesTheCommandInFlight :
    let s := flying .store8 0 (some (row 0xf80)) [{ early with movesBefore := [127, 3] }]
    InFlight ⟨.store8, 0, some (row 0xf80)⟩ s ∧ s.cycle.rst = false ∧
      ∃ t, moveBytes s.cycle.movesBefore s = .next t ∧ completionDue s.cycle t = true ∧
        (Instr.store8 .contiguous).opcode = .store8 :=
  ⟨⟨rfl, rfl, rfl⟩, rfl, _, rfl, rfl, rfl⟩

theorem test_witness_LegalWordsDecodeAndOthersAreIllegal :
    (¬ ∃ i, decodeCmd 0x8#32 = .ok i) ∧ Ready atHost :=
  ⟨fun ⟨_, h⟩ => (nomatch h), ⟨rfl, rfl, rfl⟩⟩

theorem test_witness_DecodeAndEncodeAgree :
    decodeCmd 0x12#32 = .ok (.store8 .contiguous) ∧ encode (.store8 .contiguous) = 0x12#32 := by decide

theorem test_witness_CmdWriteFollowsTheCheckOrder : s1.turn = .host ∧ wRow.turn = .host := by decide

theorem test_witness_CmdWriteIsDiscardedWhileErr : wRow.turn = .host ∧ wRow.err = true := by decide

theorem test_witness_CmdWriteIsRejectedWhileBusy :
    let s := { flying .xor8 0 none [] with turn := .host }
    s.turn = .host ∧ s.err = false ∧ s.busy = true := by decide

theorem test_witness_RejectionIsPrecise :
    s1.turn = .host ∧ s1.err = false ∧ ∃ t, processCmd 0x8#32 s1 = .next t ∧ t.err = true :=
  ⟨rfl, rfl, _, rfl, rfl⟩

/-- The last legal batch, in both modes. -/
theorem test_witness_Load8IsAcceptedInRange :
    Ready (addrs (row 0xf80) atHost) ∧ ∀ m, InRange 0x1000 (effectiveAddrs m (addrs (row 0xf80) atHost)) := by
  refine ⟨⟨rfl, rfl, rfl⟩, fun m i => ?_⟩
  revert i
  cases m <;> decide

/-- Blocks exactly 16 bytes apart, and the last legal batch with C = 1 and every ADDR alike (S9). -/
theorem test_witness_Store8IsAcceptedInRangeAndDisjoint :
    (let s := addrs (row 0x208) s1
     Ready s ∧ s.lv = true ∧ InRange s.params.memBytes (effectiveAddrs .independent s) ∧
      Disjoint (effectiveAddrs .independent s)) ∧
    (let s := addrs (Lanes.all 0xf80) s1
     Ready s ∧ s.lv = true ∧ InRange s.params.memBytes (effectiveAddrs .contiguous s)) := by
  refine ⟨⟨⟨rfl, rfl, rfl⟩, rfl, ?_, ?_⟩, ⟨rfl, rfl, rfl⟩, rfl, ?_⟩
  · intro i; revert i; decide
  · intro i j; revert i j; decide
  · intro i; revert i; decide

theorem test_witness_KeyedCommandsAreAccepted :
    transformsLanes .aesdec8 ∧ transformsLanes .xor8 ∧ Ready s1 ∧ s1.lv = true :=
  ⟨.inr (.inr (.inr (.inl rfl))), .inl rfl, ⟨rfl, rfl, rfl⟩, rfl⟩

theorem test_witness_LaneReadersAreRejectedWithoutLanes :
    Instr.opcode (.store8 .independent) ≠ .load8 ∧ Instr.opcode .xor8 ≠ .load8 ∧ Ready atHost ∧
      atHost.lv = false := ⟨by decide, by decide, ⟨rfl, rfl, rfl⟩, rfl⟩

/-- L5's addresses: only lane 7 is out, by one byte; L7's: lanes 3 and 6 are out. -/
theorem test_witness_MemRangeReportsTheLowestLane :
    (let s := addrs (row 0xf81) s1
     Ready s ∧ s.params.memBytes < (effectiveAddrs .contiguous s).get 7 + 16 ∧
      (∀ j, j < 7 → (effectiveAddrs .contiguous s).get j + 16 ≤ s.params.memBytes) ∧ s.lv = true) ∧
    (let s := addrs ⟨0x0, 0x10, 0x20, 0x1000, 0x40, 0x50, 0xffffffff, 0x70⟩ s1
     Ready s ∧ s.params.memBytes < (effectiveAddrs .independent s).get 3 + 16 ∧
      ∀ j, j < 3 → (effectiveAddrs .independent s).get j + 16 ≤ s.params.memBytes) :=
  ⟨⟨⟨rfl, rfl, rfl⟩, by decide, by decide, rfl⟩, ⟨rfl, rfl, rfl⟩, by decide, by decide⟩

/-- S3: lane 3 overlaps lane 0 by one byte. -/
theorem test_witness_StoreOverlapReportsTheSmallestLane :
    let s := addrs ⟨0x200, 0x300, 0x400, 0x20f, 0x500, 0x600, 0x700, 0x800⟩ s1
    Ready s ∧ s.lv = true ∧ InRange s.params.memBytes (effectiveAddrs .independent s) ∧ (0 : Fin 8) < 3 ∧
      ((s.addr.get 0).toNat < (s.addr.get 3).toNat + 16 ∧ (s.addr.get 3).toNat < (s.addr.get 0).toNat + 16) ∧
      ∀ h k : Fin 8, h < k → k < 3 → (s.addr.get h).toNat + 16 ≤ (s.addr.get k).toNat ∨
        (s.addr.get k).toNat + 16 ≤ (s.addr.get h).toNat := by
  refine ⟨⟨rfl, rfl, rfl⟩, rfl, ?_, by decide, by decide, by decide⟩
  intro i; revert i; decide

/-- ADDR0 = 2^32 - 16: lane 1 with C = 1 would pass 2^32 (L6); lane 7 of L5 passes MEM_BYTES. -/
theorem test_witness_EffectiveAddressesDoNotWrap :
    (let s := addrs (row 0xf81) s1
     Ready s ∧ s.lv = true ∧ s.params.memBytes < (effectiveAddrs .contiguous s).get 7 + 16) ∧
    (let s := addrs (Lanes.all 0xfffffff0) s1
     s.params.wellFormed = true ∧ 2 ^ 32 < (effectiveAddrs .contiguous s).get 1 + 16) ∧
    ∃ t, exec .xor8 s1 = .next t :=
  ⟨⟨⟨rfl, rfl, rfl⟩, rfl, by decide⟩, ⟨by decide, by decide⟩, _, rfl⟩

/-- The last legal batch. -/
theorem test_witness_Load8CompletionLoadsEveryLane :
    InFlight ⟨.load8, 0, some (row 0xf80)⟩ (flying .load8 0 (some (row 0xf80)) []) ∧ InRange 0x1000 (row 0xf80) :=
  ⟨⟨rfl, rfl, rfl⟩, inRange_row (by decide)⟩

theorem test_witness_Store8CompletionWritesEveryBlock :
    InFlight ⟨.store8, 0, some (row 0xf80)⟩ (flying .store8 0 (some (row 0xf80)) []) ∧
      InRange 0x1000 (row 0xf80) ∧ Disjoint (row 0xf80) :=
  ⟨⟨rfl, rfl, rfl⟩, inRange_row (by decide), disjoint_row _⟩

/-- A word with the OP that is not the command's, a host turn, and the command in flight. -/
theorem test_witness_Xor8CompletionXorsTheKey :
    (0x13#32).extractLsb' 0 4 = (0x3#32).extractLsb' 0 4 ∧ 0x13#32 ≠ 0x3#32 ∧ Ready s1 ∧
      InFlight ⟨.xor8, key24, none⟩ (flying .xor8 key24 none []) ∧ Opcode.xor8 = Instr.xor8.opcode :=
  ⟨by decide, by decide, ⟨rfl, rfl, rfl⟩, ⟨rfl, rfl, rfl⟩, rfl⟩
theorem test_witness_Aesenc8CompletionAppliesTheRound :
    (0x24#32).extractLsb' 0 4 = (0x4#32).extractLsb' 0 4 ∧ 0x24#32 ≠ 0x4#32 ∧ Ready s1 ∧
      InFlight ⟨.aesenc8, key24, none⟩ (flying .aesenc8 key24 none []) ∧ Opcode.aesenc8 = Instr.aesenc8.opcode :=
  ⟨by decide, by decide, ⟨rfl, rfl, rfl⟩, ⟨rfl, rfl, rfl⟩, rfl⟩
theorem test_witness_Aesenclast8CompletionAppliesTheFinalRound :
    (0x15#32).extractLsb' 0 4 = (0x5#32).extractLsb' 0 4 ∧ 0x15#32 ≠ 0x5#32 ∧ Ready s1 ∧
      InFlight ⟨.aesenclast8, key24, none⟩ (flying .aesenclast8 key24 none []) ∧
      Opcode.aesenclast8 = Instr.aesenclast8.opcode :=
  ⟨by decide, by decide, ⟨rfl, rfl, rfl⟩, ⟨rfl, rfl, rfl⟩, rfl⟩
theorem test_witness_Aesdec8CompletionAppliesTheInverseRound :
    (0x80000006#32).extractLsb' 0 4 = (0x6#32).extractLsb' 0 4 ∧ 0x80000006#32 ≠ 0x6#32 ∧ Ready s1 ∧
      InFlight ⟨.aesdec8, key24, none⟩ (flying .aesdec8 key24 none []) ∧ Opcode.aesdec8 = Instr.aesdec8.opcode :=
  ⟨by decide, by decide, ⟨rfl, rfl, rfl⟩, ⟨rfl, rfl, rfl⟩, rfl⟩
theorem test_witness_Aesdeclast8CompletionAppliesTheFinalInverseRound :
    (0x17#32).extractLsb' 0 4 = (0x7#32).extractLsb' 0 4 ∧ 0x17#32 ≠ 0x7#32 ∧ Ready s1 ∧
      InFlight ⟨.aesdeclast8, key24, none⟩ (flying .aesdeclast8 key24 none []) ∧
      Opcode.aesdeclast8 = Instr.aesdeclast8.opcode :=
  ⟨by decide, by decide, ⟨rfl, rfl, rfl⟩, ⟨rfl, rfl, rfl⟩, rfl⟩

theorem test_witness_Xor8TwiceRestoresTheLanes :
    let s := flying .xor8 key24 none []
    ∃ t s', InFlight ⟨.xor8, key24, none⟩ s ∧ exec .xor8 s = .next t ∧ InFlight ⟨.xor8, key24, none⟩ s' ∧
      s'.lanes = t.lanes :=
  ⟨_, { flying .xor8 key24 none [] with lanes := s1Lanes.map fun v => v ^^^ key24 }, ⟨rfl, rfl, rfl⟩, rfl,
    ⟨rfl, rfl, rfl⟩, rfl⟩

/-- A LOAD8 that has read two bytes, then a STORE8 to the same blocks. -/
theorem test_witness_LoadThenStoreLeavesTheSram :
    let ea := row 0x100
    let s := { flying .load8 0 (some ea) [] with window := ⟨0, [(0, 0x00#8), (127, 0x7f#8)]⟩ }
    ∃ t s', InFlight ⟨.load8, 0, some ea⟩ s ∧ TransferAgrees s ∧ exec (.load8 .contiguous) s = .next t ∧
      InFlight ⟨.store8, 0, some ea⟩ s' ∧ Disjoint ea ∧ InRange s'.params.memBytes ea ∧ s'.lanes = t.lanes ∧
      ∀ (i : Fin 8) (j : Nat), j < 16 → s'.sram.read (ea.get i + j) = s.sram.read (ea.get i + j) := by
  refine ⟨_, { flying .store8 0 (some (row 0x100)) [] with
      lanes := loadedLanes (row 0x100)
        { flying .load8 0 (some (row 0x100)) [] with window := ⟨0, [(0, 0x00#8), (127, 0x7f#8)]⟩ } },
    ⟨rfl, rfl, rfl⟩, ?_, rfl, ⟨rfl, rfl, rfl⟩, disjoint_row _, inRange_row (by decide), rfl, fun _ _ _ => rfl⟩
  intro sn ea h1 h2
  cases h1
  cases h2
  decide +kernel

/-- Also with eight equal lanes. -/
theorem test_witness_LanesAreIndependent :
    transformsLanes .aesenc8 ∧ InFlight ⟨.aesenc8, key24, none⟩ (flying .aesenc8 key24 none []) ∧
      InFlight ⟨.aesenc8, key24, none⟩ { flying .aesenc8 key24 none [] with lanes := Lanes.all key24 } ∧
      Opcode.aesenc8 = Instr.aesenc8.opcode :=
  ⟨.inr (.inl rfl), ⟨rfl, rfl, rfl⟩, ⟨rfl, rfl, rfl⟩, rfl⟩

/-- The bounds of bytes, rows and columns: the last byte is row 3 of column 3. -/
theorem test_witness_byte_bounds :
    15 < 16 ∧ 3 < 4 ∧ (let v := Block.b 0x000102030405060708090a0b0c0d0e0f#128
      (aesEntry v 3 3, aesEntry v 0 0, Block.byte v 15) = (0x0f#8, 0x00#8, 0x0f#8)) := by decide

theorem test_witness_DecryptionSequenceInvertsEncryption :
    9 ∈ [9, 11, 13] ∧ 11 ∈ [9, 11, 13] ∧ 13 ∈ [9, 11, 13] := by decide

theorem test_witness_ResetMeetsTheInvariant :
    params.wellFormed = true ∧ (⟨16, 0, 0, 1, 1⟩ : Params).wellFormed = true := by decide

theorem test_witness_EveryStepGoesOnAndKeepsTheInvariant :
    Inv (flying .aesdec8 key24 none []) ∧
      Inv { flying .load8 0 (some (row 0x100)) [] with
        lv := false, turn := .host, window := ⟨0, [(0, 0x00#8), (127, 0x7f#8)]⟩ } :=
  ⟨inv_keyed _ _ rfl, inv_load _ _ _⟩

theorem test_witness_ResetEdgeSetsEveryRegister :
    let s := flying .store8 0 (some (row 0x208)) [{ Cycle.idle with rst := true }]
    s.turn = .engine ∧ s.cycle.rst = true := by decide

theorem test_witness_CsrAccessesDoNothingInReset :
    let s := fun (a : PortAccess) => { atHost with inputs := [{ access a with rst := true }] }
    ∀ a ∈ [PortAccess.csrRead 0x00#8 4, .csrWrite 0x0C#8 4 0x1#32], (s a).turn = .host ∧
      (s a).cycle.rst = true ∧ (s a).snapshot = none ∧ (s a).cycle.portAccess (s a).params = some a := by decide

/-- Bytes 0 and 127 are moved, 128 is none. -/
theorem test_witness_LoadReadsEachByteOnce :
    (flying .load8 0 (some (row 0xf80)) []).snapshot = some ⟨.load8, 0, some (row 0xf80)⟩ ∧
      InRange 0x1000 (row 0xf80) ∧ (0 ∈ [0, 127, 128] ∧ 0 < 128) ∧ (127 ∈ [0, 127, 128] ∧ 127 < 128) :=
  ⟨rfl, inRange_row (by decide), by decide, by decide⟩
theorem test_witness_StoreWritesEachByteOnce :
    (flying .store8 0 (some (row 0xf80)) []).snapshot = some ⟨.store8, 0, some (row 0xf80)⟩ ∧
      InRange 0x1000 (row 0xf80) ∧ Disjoint (row 0xf80) ∧ 16 * (7 : Fin 8).val + 15 ∈ [0, 127, 128] :=
  ⟨rfl, inRange_row (by decide), disjoint_row _, by decide⟩

/-- A LOAD8 in flight; the host writes the byte just past its last source byte, 0x17F. -/
theorem test_witness_NoRaceKeepsTheTransferExact :
    let s := { flying .load8 0 (some (row 0x100)) [access (.memWrite 0x180 1 0xee#32)] with
      lv := true, turn := .host, window := ⟨0, [(0, 0x00#8), (127, 0x7f#8)]⟩ }
    Inv s ∧ TransferAgrees s ∧ HostLeavesBatch s ∧ (∃ t, step s = .next t) ∧
      s.snapshot = some ⟨.load8, 0, some (row 0x100)⟩ ∧ s.inBatch 0x100 = true ∧ s.inBatch 0x17f = true := by
  refine ⟨inv_load _ _ _, ?_, ?_, ⟨_, rfl⟩, rfl, by decide, by decide⟩
  · intro sn ea h1 h2
    cases h1
    cases h2
    decide +kernel
  · intro _ t ht a ha
    cases ht
    have : a < 0x180 := by
      simp only [State.inBatch, flying, List.any_eq_true, Bool.and_eq_true, decide_eq_true_eq, row,
        Lanes.get_ofFn] at ha
      obtain ⟨i, -, hi⟩ := ha
      omega
    simp only [PortAccess.writesByte, Bool.and_eq_false_iff, decide_eq_false_iff_not]
    right
    left
    omega

theorem test_witness_NoRaceTransferCompletesExactly :
    (let s := { flying .load8 0 (some (row 0x100)) [] with
       lv := true, turn := .engine, window := ⟨0, [(0, 0x00#8), (127, 0x7f#8)]⟩ }
     Inv s ∧ TransferAgrees s ∧ InFlight ⟨.load8, 0, some (row 0x100)⟩ s) ∧
    (let s := flying .store8 0 (some (row 0x200)) []
     Inv s ∧ TransferAgrees s ∧ InFlight ⟨.store8, 0, some (row 0x200)⟩ s) := by
  refine ⟨⟨inv_load _ _ _, ?_, rfl, rfl, rfl⟩, ?_, ?_, rfl, rfl, rfl⟩
  · intro sn ea h1 h2
    cases h1
    cases h2
    decide +kernel
  · exact inv_flying (by decide) (fun _ => rfl) rfl (fun _ h => nomatch h) (fun h => nomatch h)
      (fun _ _ h => nomatch h)
  · exact fun _ _ _ _ _ h => nomatch h

/-- Completion at LAT_MIN, no completion, and completion at LAT_MAX = 1. -/
theorem test_witness_CompletionFallsBetweenTheLatencies :
    (let s := flying .xor8 0 none [early]
     Inv s ∧ s.cycle.rst = false ∧ ∃ t, step s = .next t ∧ t.busy = false ∧ s.window.age + 1 = s.params.latMin) ∧
    (let s := flying .xor8 0 none []
     Inv s ∧ s.cycle.rst = false ∧ ∃ t, step s = .next t ∧ t.busy = true) ∧
    (let s := { flying .xor8 0 none [] with window := ⟨7, []⟩ }
     Inv s ∧ s.cycle.rst = false ∧ s.window.age + 1 = s.params.latMax ∧ ∃ t, step s = .next t) :=
  ⟨⟨inv_keyed _ _ rfl, rfl, _, rfl, rfl, rfl⟩, ⟨inv_keyed _ _ rfl, rfl, _, rfl, rfl⟩,
    { inv_keyed (op := .xor8) 0 [] rfl with
      windowClosed := fun h => nomatch h
      age := show 7 < 8 by decide
      movedRising := rfl
      movedRange := fun _ h => nomatch h
      movedNone := fun _ _ _ => rfl
      movedLanes := fun _ _ _ _ h => nomatch h },
    rfl, rfl, _, rfl⟩

theorem test_witness_EveryAcceptedCommandCompletes :
    let s := flying .xor8 key24 none [access (.csrWrite 0x0C#8 4 0x4#32)]
    Inv s ∧ s.turn = .engine ∧ s.busy = true ∧
      ∀ c ∈ s.inputs.take (s.params.latMax - s.window.age), c.rst = false :=
  ⟨inv_keyed _ _ rfl, rfl, rfl, by decide⟩

/-- Two states with other lanes, another key and another SRAM; and an XOR8 and a LOAD8 in flight, of one age. -/
theorem test_witness_ControlDependsOnNoData :
    (let s := flying .xor8 key24 none [early]
     let s' := { flying .xor8 0 none [early] with lanes := Lanes.all 0, sram := [] }
     s ≠ s' ∧ withoutData s = withoutData s' ∧ ∃ t, step s = .next t) ∧
    (let s := flying .xor8 key24 none [early]
     let s' := { flying .load8 0 (some (row 0x100)) [{ early with movesBefore := [3] }] with
       lv := false, turn := .engine, window := ⟨0, [(0, 0x00#8), (127, 0x7f#8)]⟩ }
     Inv s ∧ Inv s' ∧ s.turn = .engine ∧ s'.turn = .engine ∧ s.busy = true ∧ s'.busy = true ∧
       s.cycle.rst = false ∧ s'.cycle.rst = false ∧ s.cycle.finish = s'.cycle.finish ∧ s.params = s'.params ∧
       s.window.age = s'.window.age) :=
  ⟨⟨by decide +kernel, rfl, _, rfl⟩, inv_keyed _ _ rfl, inv_load _ _ _, rfl, rfl, rfl, rfl, rfl, rfl, rfl, rfl, rfl⟩

theorem test_witness_UnloadedLanesAreNeverRead :
    let s := { flying .load8 0 (some (row 0x100)) [early] with
      lv := false, turn := .engine, window := ⟨0, [(0, 0x00#8), (127, 0x7f#8)]⟩ }
    Inv s ∧ s.lv = false ∧ ∃ t, step s = .next t ∧ t.lv = true :=
  ⟨inv_load _ _ _, rfl, _, rfl, rfl⟩

theorem test_witness_LanesChangeOnlyAtCompletion :
    ∃ t, step (flying .xor8 key24 none [early]) = .next t ∧ t.lanes ≠ s1Lanes :=
  ⟨_, rfl, by decide +kernel⟩

/-- The engine's turn with a completion, and a host's turn with a CMD write and with a STATUS write. -/
theorem test_witness_StatusChangesOnlyByItsEvents :
    (let s := flying .xor8 key24 none [early]
     s.cycle.rst = false ∧ s.turn = .engine ∧ ∃ t, step s = .next t) ∧
    ∀ a ∈ [PortAccess.csrWrite 0x0C#8 4 0x3#32, .csrWrite 0x08#8 4 0x6#32],
      (withAccess a wRow).cycle.rst = false ∧ (withAccess a wRow).turn = .host ∧
        ∃ t, step (withAccess a wRow) = .next t := by
  refine ⟨⟨rfl, rfl, _, rfl⟩, fun a ha => ?_⟩
  simp only [List.mem_cons, List.not_mem_nil, or_false] at ha
  rcases ha with rfl | rfl <;> exact ⟨rfl, rfl, _, rfl⟩

theorem not_addr7 {off : BitVec 8} (h : 0x3C#8 ≠ off) (w : Word) :
    some (PortAccess.csrWrite 0x3C#8 4 0x5#32) ≠ some (.csrWrite off 4 w) := by
  intro he
  injection he with he
  injection he with ho
  exact h ho

theorem test_witness_HostRegistersChangeOnlyByTheirWrites :
    (let s := flying .xor8 key24 none [early]
     s.cycle.rst = false ∧ s.turn = .engine ∧ ∃ t, step s = .next t) ∧
    (let s := withAccess (.csrWrite 0x3C#8 4 0x5#32) s1
     s.cycle.rst = false ∧ s.turn = .host ∧ (∃ t, step s = .next t) ∧
      (∀ w, s.cycle.portAccess s.params ≠ some (.csrWrite (BitVec.ofNat 8 (0x20 + 4 * (0 : Fin 8).val)) 4 w)) ∧
      (∀ w, s.cycle.portAccess s.params ≠ some (.csrWrite (BitVec.ofNat 8 (0x10 + 4 * (3 : Fin 4).val)) 4 w)) ∧
      ∀ w, s.cycle.portAccess s.params ≠ some (.csrWrite 0x04#8 4 w)) :=
  ⟨⟨rfl, rfl, _, rfl⟩, rfl, rfl, ⟨_, rfl⟩, not_addr7 (by decide), not_addr7 (by decide), not_addr7 (by decide)⟩

/-- A host write to the last byte, and the last byte of a STORE8. -/
theorem test_witness_SramChangesOnlyByHostOrStore :
    (∃ t, step (withAccess (.memWrite 0xfff 1 0xee#32) atHost) = .next t ∧
      t.sram.read 0xfff ≠ (withAccess (.memWrite 0xfff 1 0xee#32) atHost).sram.read 0xfff) ∧
    ∃ t, step (flying .store8 0 (some (row 0xf80)) [{ Cycle.idle with movesBefore := [127] }]) = .next t ∧
      t.sram.read 0xfff ≠ ramp.read 0xfff :=
  ⟨⟨_, rfl, by decide +kernel⟩, _, rfl, by decide +kernel⟩

theorem test_witness_SnapshotSurvivesTheHost :
    let s := withAccess (.csrWrite 0x0C#8 4 0x1#32) { flying .xor8 key24 none [] with turn := .host }
    s.turn = .host ∧ s.busy = true ∧ ∃ t, step s = .next t := ⟨rfl, rfl, _, rfl⟩

/-- The same cycle completes an XOR8 and writes STATUS, or CMD (AESENC8). -/
theorem test_witness_CompletionComesBeforeTheHost :
    ∀ a ∈ [PortAccess.csrWrite 0x08#8 4 0x2#32, .csrWrite 0x0C#8 4 0x4#32],
      let s := flying .xor8 key24 none [{ access a with finish := true }]
      Inv s ∧ s.turn = .engine ∧ s.cycle.rst = false ∧ s.busy = true ∧ s.err = false ∧
        s.cycle.portAccess s.params = some a ∧ transformsLanes .aesenc8 ∧ decodeCmd 0x4#32 = .ok .aesenc8 ∧
        ∃ t u, step s = .next t ∧ t.busy = false ∧ t.lv = true ∧ step t = .next u := by
  intro a ha
  simp only [List.mem_cons, List.not_mem_nil, or_false] at ha
  rcases ha with rfl | rfl <;>
    exact ⟨inv_keyed _ _ rfl, rfl, rfl, rfl, rfl, rfl, .inr (.inl rfl), rfl, _, _, rfl, rfl, rfl, rfl⟩

/-- The first and the last offset; the second clause leaves CMD out. -/
theorem test_witness_HostRegistersReadBack :
    ∀ off ∈ [0x00#8, 0x04#8, 0x3C#8, 0xFC#8], off.toNat % 4 = 0 ∧ off ≠ 0x0C#8 := by decide

/-- KEY3's byte 3 is key byte 15 (R15's example). -/
theorem test_witness_KeyIsItsFourWords :
    3 < 4 ∧ Block.byte (⟨0x16157e2b#32, 0xa6d2ae28#32, 0x8815f7ab#32, 0x3c4fcf09#32⟩ : KeyRegs).block 15 = 0x3c#8 := by
  decide

/-- The first and the last offset of each clause. -/
theorem test_witness_ReadOnlyAndReservedOffsetsIgnoreWrites :
    (∀ off ∈ [0x00#8, 0x0C#8, 0x40#8, 0x44#8, 0xFC#8], off.toNat % 4 = 0) ∧ 0x44 ≤ (0x44#8).toNat ∧
      0x44 ≤ (0xFC#8).toNat := by decide

/-- The last byte, halfword and word. -/
theorem test_witness_HostMemoryIsLittleEndian :
    ∀ n ∈ [1, 2, 4], (n = 1 ∨ n = 2 ∨ n = 4) ∧ (0x1000 - n) % n = 0 ∧ 0x1000 - n + n ≤ atHost.params.memBytes := by
  decide

/-- A size, an offset; a size, a misaligned address, one byte past the end. -/
theorem test_witness_BadHostAccessIsABusError :
    (2 ≠ 4 ∨ (0x08#8).toNat % 4 ≠ 0) ∧ (4 ≠ 4 ∨ (0x0E#8).toNat % 4 ≠ 0) ∧ (3 ≠ 1 ∧ 3 ≠ 2 ∧ 3 ≠ 4) ∧
      0x101 % 2 ≠ 0 ∧ atHost.params.memBytes < 0x1000 + 1 := by decide

theorem test_witness_IrqIsTheEnabledSources : wRow.doneNow = false := rfl

/-- The first and the last SRAM byte, the CSR window below the SRAM window. -/
theorem test_witness_HostWindowsLeadToThePorts :
    ∀ a ∈ [0, 0xfff], a < params.memBytes ∧
      (params.sramBase + a < params.csrBase ∨ params.csrBase + 256 ≤ params.sramBase + a) := by decide

end Sys2Proof.Tests
end

section
/-! PROOFS of family 10_state: STATUS (O47, O52, O53) and the words of KEY (O55), over what the layer `Laws`
says of the shared operations. -/

namespace Sys2Proof.Machine

open Sys2Proof.Claims

/-! A STATUS write, as one update of the state (10_state.md R22, R27) -/

theorem clearDone_eq (s : State) :
    clearDone s = { s with done := if s.doneNow = false then false else s.done } := by
  unfold clearDone
  split
  · rename_i hnow
    rw [if_neg (by simp [hnow])]
  · rename_i hnow
    rw [if_pos (by simpa using hnow)]

theorem writeStatus_eq (w : Word) (s : State) :
    writeStatus w s = { s with
      done := if w.getLsbD 1 = true ∧ s.doneNow = false then false else s.done
      err := if w.getLsbD 2 then false else s.err
      errCode := if w.getLsbD 2 then .none else s.errCode
      errLane := if w.getLsbD 2 then 0#3 else s.errLane
      errAddr := if w.getLsbD 2 then 0#32 else s.errAddr } := by
  unfold writeStatus clearError
  rw [clearDone_eq]
  cases w.getLsbD 1 <;> cases w.getLsbD 2 <;> simp

/-- Settles O53: outside reset the port hands the word to `writeStatus` and answers. -/
theorem statusWriteClearsByBit : Obligations.StatusWriteClearsByBit := by
  intro s w
  have hserve : servePort false (.csrWrite 0x08#8 4 w) s =
      .next (respond (plainAnswer false) (writeStatus w s)) := rfl
  exact ⟨0#32, by rw [hserve, writeStatus_eq]; rfl⟩

/-! The fields of a STATUS read (10_state.md R28) -/

/-- A field of a word, put at bit `k`, is what the word holds there. -/
theorem extractLsb'_field {n k : Nat} (v : BitVec n) (h : k + n ≤ 32) :
    (v.setWidth 32 <<< k : Word).extractLsb' k n = v := by
  apply BitVec.eq_of_getLsbD_eq
  intro i hi
  have h32 : k + i < 32 := by omega
  simp [hi, h32]

/-- Outside a field's bits the word that holds it there and nothing else is 0. -/
theorem extractLsb'_beside_field {n k i l : Nat} (v : BitVec n) (h : i + l ≤ k ∨ k + n ≤ i) :
    (v.setWidth 32 <<< k : Word).extractLsb' i l = 0#l := by
  apply BitVec.eq_of_getLsbD_eq
  intro j hj
  by_cases hk : i + j < k
  · simp [hk]
  · have hn : v.getLsbD (i + j - k) = false := BitVec.getLsbD_of_ge _ _ (by omega)
    simp [hn]

theorem extractLsb'_above_field {n i l : Nat} (v : BitVec n) (h : n ≤ i) :
    (v.setWidth 32 : Word).extractLsb' i l = 0#l := by
  simpa using extractLsb'_beside_field (k := 0) (l := l) v (.inr (by omega))

theorem State.statusWord_done (s : State) : s.statusWord.getLsbD 1 = s.done := by
  simp [State.statusWord, bitWord]

theorem State.statusWord_err (s : State) : s.statusWord.getLsbD 2 = s.err := by
  simp [State.statusWord, bitWord]

theorem State.statusWord_lv (s : State) : s.statusWord.getLsbD 3 = s.lv := by
  simp [State.statusWord, bitWord]

/-- Settles O52: STATUS is the or of its fields; cut out a field's bits, and every other field is 0 there. -/
theorem statusReadsItsFields : Obligations.StatusReadsItsFields := by
  intro s
  refine ⟨s.statusWord, rfl, rfl, rfl, ?_, ?_, s.statusWord_busy, s.statusWord_done, s.statusWord_err,
    s.statusWord_lv, ?_, ?_⟩
  all_goals
    unfold State.statusWord bitWord
    simp (disch := omega) only [BitVec.extractLsb'_or, extractLsb'_field, extractLsb'_beside_field,
      extractLsb'_above_field, BitVec.or_zero, BitVec.zero_or]

/-! The words of KEY (10_state.md R15) -/

theorem byte_eq_blockWord (v : Block) (w : Nat) {b : Nat} (hb : b < 4) :
    Block.byte v (4 * w + b) = (blockWord v w).extractLsb' (8 * b) 8 := by
  have hidx : 32 * w + 8 * b = 8 * (4 * w + b) := by omega
  apply BitVec.eq_of_getLsbD_eq
  intro i hi
  have h32 : 8 * b + i < 32 := by omega
  simp [Block.byte, blockWord, hi, h32, ← Nat.add_assoc, hidx]

/-- Blocks are equal when every word is. -/
theorem block_eq_of_blockWord {v u : Block} (h : ∀ w, w < 4 → blockWord v w = blockWord u w) : v = u := by
  refine Block.eq_of_byte fun j hj => ?_
  have hb : j % 4 < 4 := Nat.mod_lt _ (by decide)
  rw [← Nat.div_add_mod j 4, byte_eq_blockWord v _ hb, byte_eq_blockWord u _ hb, h (j / 4) (by omega)]

theorem blockWord_keyBlock (k : KeyRegs) {w : Nat} (hw : w < 4) : blockWord k.block w = k.word w := by
  have happend : blockWord k.block w = (k.k3 ++ k.k2 ++ k.k1 ++ k.k0).extractLsb' (32 * w) 32 := rfl
  rw [happend]
  interval_cases w <;>
    simp (disch := omega) only [BitVec.extractLsb'_append_eq_of_le, BitVec.extractLsb'_append_eq_of_add_le] <;>
    exact BitVec.extractLsb'_eq_self

/-- The four words of a block, as `setkey` writes them (30_encoding.md R70). -/
def keyRegsOf (v : Block) : KeyRegs := ⟨blockWord v 0, blockWord v 1, blockWord v 2, blockWord v 3⟩

theorem word_keyRegsOf (v : Block) {w : Nat} (hw : w < 4) : (keyRegsOf v).word w = blockWord v w := by
  interval_cases w <;> rfl

theorem block_keyRegsOf (v : Block) : (keyRegsOf v).block = v :=
  block_eq_of_blockWord fun w hw => by rw [blockWord_keyBlock _ hw, word_keyRegsOf v hw]

/-- Settles O55: key byte `4w + b` is byte `b` of word `w` of the key, which is KEYw; the words that `setkey`
writes are those of the key. -/
theorem keyIsItsFourWords : Obligations.KeyIsItsFourWords := by
  refine ⟨fun k w b hw hb => ?_, fun _ => rfl, by decide, fun k => ⟨keyRegsOf k, block_keyRegsOf k, rfl⟩⟩
  rw [byte_eq_blockWord _ _ hb, blockWord_keyBlock k hw]

/-! What changes the STATUS fields (10_state.md R29) -/

@[simp] theorem statusFields_growOlder (s : State) : statusFields (growOlder s) = statusFields s := rfl
@[simp] theorem statusFields_endEngineTurn (s : State) : statusFields (endEngineTurn s) = statusFields s := rfl
@[simp] theorem statusFields_endCycle (s : State) : statusFields (endCycle s) = statusFields s := rfl

theorem statusFields_moveBytes {ks : List Nat} {s t : State} (h : moveBytes ks s = .next t) :
    statusFields t = statusFields s := by
  obtain ⟨m, r, rfl⟩ := moveBytes_frame h
  rfl

/-- Only a register's own offset names it (10_state.md R18). -/
theorem CsrName.offset_of_ofOffset {off : BitVec 8} {r : CsrName} (h : CsrName.ofOffset off = some r) :
    r.offset = off := by
  apply BitVec.eq_of_toNat_eq
  unfold CsrName.ofOffset at h
  dsimp only at h
  repeat' split at h
  all_goals cases h
  all_goals
    simp only [CsrName.offset, BitVec.toNat_ofNat, Fin.val_ofNat]
    omega

theorem statusFields_writeCsr {off : BitVec 8} (h : off ≠ CsrName.status.offset) (w : Word) (s : State) :
    statusFields (writeCsr off w s) = statusFields s := by
  unfold writeCsr
  split
  · rename_i r hr
    cases r with
    | status => exact absurd (CsrName.offset_of_ofOffset hr).symm h
    | _ => rfl
  · rfl

/-- A CMD write leaves the STATUS fields, sets BUSY, or sets the error fields. -/
theorem statusFields_issued {op : Opcode} {s t : State} (h : Issued op s t) :
    statusFields t = statusFields s ∨ statusFields t = statusFields { s with busy := true } ∨
      ∃ c n a, c ≠ .none ∧ statusFields t = statusFields (rejected c n a s) := by
  cases h with
  | discarded _ => exact .inl rfl
  | rejected c n a _ hc => exact .inr (.inr ⟨c, n, a, hc, rfl⟩)
  | accepted _ _ _ _ _ => exact .inr (.inl rfl)

/-- A completion leaves the STATUS fields, if no such command is in flight, or ends the one that is. -/
theorem statusFields_completes {op : Opcode} {s t : State} (h : Completes op s t) :
    statusFields t = statusFields s ∨ ∃ sn, s.snapshot = some sn ∧
      statusFields t = statusFields { s with busy := false, done := true, lv := s.lv || sn.op = .load8 } := by
  cases h with
  | idle => exact .inl rfl
  | done sn l v r _ hsn hop _ _ hv =>
    subst hv hop
    exact .inr ⟨sn, hsn, rfl⟩

theorem statusFields_engineTurn {s t : State} (h : EngineTurn s t) (hturn : s.turn = .engine)
    (hrst : s.cycle.rst = false) :
    statusFields t = statusFields s ∨ ∃ sn, s.busy = true ∧ s.snapshot = some sn ∧
      statusFields t = statusFields { s with busy := false, done := true, lv := s.lv || sn.op = .load8 } := by
  cases h with
  | reset hr => simp [hrst] at hr
  | idle _ _ => exact .inl rfl
  | older _ u _ _ _ hm _ => exact .inl (by simpa using statusFields_moveBytes hm)
  | complete _ u v _ hb _ hm _ hx =>
    obtain ⟨m, r, rfl⟩ := moveBytes_frame hm
    rcases statusFields_completes (exec_engine (by exact hturn) hx) with hv | ⟨sn, hsn, hv⟩
    · exact .inl hv
    · exact .inr ⟨sn, hb, hsn, hv⟩

theorem statusFields_served {s u : State} {c : Cycle} (h : Served s c u) :
    statusFields u = statusFields s ∨
    (∃ w, c.portAccess s.params = some (.csrWrite 0x0C#8 4 w) ∧
      (statusFields u = statusFields { s with busy := true } ∨
        ∃ e n a, e ≠ .none ∧ statusFields u = statusFields (rejected e n a s))) ∨
    ∃ w, c.portAccess s.params = some (.csrWrite 0x08#8 4 w) ∧
      statusFields u = statusFields (writeStatus w s) := by
  cases h with
  | command w op t hp _ _ hi => exact (statusFields_issued hi).imp_right fun ht => .inl ⟨w, hp, ht⟩
  | csrWrite off w hp _ _ _ =>
    by_cases hoff : off = CsrName.status.offset
    · subst hoff
      exact .inr (.inr ⟨w, hp, rfl⟩)
    · exact .inl (statusFields_writeCsr hoff w s)
  | none _ | read _ _ _ _ _ | ignored _ _ _ _ _ _ | memWrite _ _ _ _ _ => exact .inl rfl

/-- Settles O47: on either turn the event is read off the inversion lemma of the step; the bytes the engine
moves leave the fields alone. -/
theorem statusChangesOnlyByItsEvents : Obligations.StatusChangesOnlyByItsEvents := by
  intro s t hrst hstep
  refine ⟨fun hturn => statusFields_engineTurn (step_engine_cases hturn hstep) hturn hrst, fun hturn => ?_⟩
  obtain ⟨u, v, hserved, -, hmoved, rfl⟩ := step_host_cases hturn hstep
  rw [statusFields_endCycle, statusFields_moveBytes hmoved]
  exact statusFields_served hserved

end Sys2Proof.Machine
end

section
/-! PROOFS of family 30_encoding: the legal command words (O3) and the effective addresses (O16). -/

namespace Sys2Proof

/-! Decoding, field by field (30_encoding.md R61, R64) -/

theorem Opcode.ofCode_eq_some_iff {c : BitVec 4} {op : Opcode} : Opcode.ofCode c = some op ↔ c = op.code := by
  constructor
  · intro h
    apply BitVec.eq_of_toNat_eq
    unfold Opcode.ofCode at h
    split at h <;> cases h <;> assumption
  · rintro rfl
    cases op <;> rfl

theorem Opcode.isSome_ofCode (c : BitVec 4) : (Opcode.ofCode c).isSome ↔ 1 ≤ c.toNat ∧ c.toNat ≤ 7 := by
  revert c
  decide

/-- The codes in use are 1 to 7. -/
theorem Opcode.exists_code_iff {c : BitVec 4} : (∃ op : Opcode, c = op.code) ↔ 1 ≤ c.toNat ∧ c.toNat ≤ 7 := by
  simp only [← Opcode.ofCode_eq_some_iff, ← Option.isSome_iff_exists, Opcode.isSome_ofCode]

theorem Opcode.code_eq_one_iff {op : Opcode} : op.code = 1#4 ↔ op = .load8 := by cases op <;> decide

theorem Opcode.code_eq_two_iff {op : Opcode} : op.code = 2#4 ↔ op = .store8 := by cases op <;> decide

theorem Instr.ofPlain_eq_ok_iff {i j : Instr} {c : Bool} : Instr.ofPlain i c = .ok j ↔ i = j ∧ c = false := by
  cases c <;> simp [Instr.ofPlain]

/-- An operation and a C bit make the command that has them, if there is one. -/
theorem Instr.ofFields_eq_ok_iff {op : Opcode} {c : Bool} {i : Instr} :
    Instr.ofFields op c = .ok i ↔ i.opcode = op ∧ i.modeBit = c := by
  constructor
  · intro h
    cases op <;> simp only [Instr.ofFields, Except.ok.injEq, Instr.ofPlain_eq_ok_iff] at h
    case load8 | store8 => subst h; cases c <;> exact ⟨rfl, rfl⟩
    all_goals obtain ⟨rfl, rfl⟩ := h; exact ⟨rfl, rfl⟩
  · rintro ⟨rfl, rfl⟩
    cases i with
    | load8 m | store8 m => cases m <;> rfl
    | _ => rfl

/-- A command with C = 0 has any operation, one with C = 1 is a LOAD8 or a STORE8 (30_encoding.md R64). -/
theorem Instr.exists_fields_iff {op : Opcode} {c : Bool} :
    (∃ i : Instr, i.opcode = op ∧ i.modeBit = c) ↔ c = false ∨ op = .load8 ∨ op = .store8 := by
  constructor
  · rintro ⟨i, rfl, rfl⟩
    cases i <;> simp [Instr.opcode, Instr.modeBit]
  · rintro (rfl | rfl | rfl)
    · exact ⟨op.instr, by cases op <;> exact ⟨rfl, rfl⟩⟩
    · exact ⟨.load8 (AddrMode.ofBit c), by cases c <;> exact ⟨rfl, rfl⟩⟩
    · exact ⟨.store8 (AddrMode.ofBit c), by cases c <;> exact ⟨rfl, rfl⟩⟩

theorem decodeCmd_eq_ok_iff {w : Word} {i : Instr} :
    decodeCmd w = .ok i ↔
      w.extractLsb' 0 4 = i.opcode.code ∧ w.extractLsb' 5 27 = 0#27 ∧ w.getLsbD 4 = i.modeBit := by
  rw [← Opcode.ofCode_eq_some_iff]
  unfold decodeCmd
  cases Opcode.ofCode (w.extractLsb' 0 4) with
  | none => simp
  | some op =>
    by_cases hr : w.extractLsb' 5 27 = 0#27
    · simp only [hr, if_true, Instr.ofFields_eq_ok_iff, Option.some.injEq, true_and]
      exact and_congr eq_comm eq_comm
    · simp [hr]

/-- A word decodes when some operation has its OP, RSV is 0, and that operation allows its C bit. -/
theorem exists_decodeCmd_eq_ok_iff {w : Word} :
    (∃ i, decodeCmd w = .ok i) ↔
      (1 ≤ (w.extractLsb' 0 4).toNat ∧ (w.extractLsb' 0 4).toNat ≤ 7) ∧ w.extractLsb' 5 27 = 0#27 ∧
        (w.getLsbD 4 = false ∨ w.extractLsb' 0 4 = 1#4 ∨ w.extractLsb' 0 4 = 2#4) := by
  simp only [decodeCmd_eq_ok_iff]
  constructor
  · rintro ⟨i, hop, hr, hc⟩
    rw [hop, Opcode.code_eq_one_iff, Opcode.code_eq_two_iff]
    exact ⟨Opcode.exists_code_iff.1 ⟨_, rfl⟩, hr, Instr.exists_fields_iff.1 ⟨i, rfl, hc.symm⟩⟩
  · rintro ⟨hop, hr, hc⟩
    obtain ⟨op, hop⟩ := Opcode.exists_code_iff.2 hop
    rw [hop, Opcode.code_eq_one_iff, Opcode.code_eq_two_iff] at hc
    obtain ⟨i, rfl, hi⟩ := Instr.exists_fields_iff.2 hc
    exact ⟨i, hop, hr, hi.symm⟩

/-! The words of the commands (30_encoding.md R61, R64) -/

/-- A word is its three fields. -/
theorem word_eq_fields (w : Word) :
    w = (w.extractLsb' 5 27 ++ BitVec.ofBool (w.getLsbD 4)) ++ w.extractLsb' 0 4 := by
  apply BitVec.eq_of_getLsbD_eq
  intro k hk
  simp only [BitVec.getLsbD_append, BitVec.getLsbD_extractLsb', BitVec.getLsbD_ofBool]
  by_cases hlow : k < 4
  · simp [hlow]
  · by_cases hc : k = 4
    · simp [hc]
    · have hsum : 5 + (k - 4 - 1) = k := by omega
      have hrsv : ¬ k - 4 < 1 ∧ k - 4 - 1 < 27 := by omega
      simp [hlow, hsum, hrsv]

theorem decodeCmd_encode (i : Instr) : decodeCmd (encode i) = .ok i := by
  cases i with
  | load8 m | store8 m => cases m <;> decide
  | _ => decide

theorem decodeCmd_eq_ok_iff_encode {w : Word} {i : Instr} : decodeCmd w = .ok i ↔ encode i = w := by
  constructor
  · intro h
    obtain ⟨hop, hr, hc⟩ := decodeCmd_eq_ok_iff.1 h
    rw [word_eq_fields w, hop, hr, hc]
    rfl
  · rintro rfl
    exact decodeCmd_encode i

/-- The nine commands, each addressing mode on its own, in the order of the table of R64. -/
def Instr.all : List Instr :=
  [.load8 .independent, .load8 .contiguous, .store8 .independent, .store8 .contiguous,
    .xor8, .aesenc8, .aesenclast8, .aesdec8, .aesdeclast8]

theorem Instr.mem_all (i : Instr) : i ∈ Instr.all := by
  cases i with
  | load8 m | store8 m => cases m <;> decide
  | _ => decide

theorem exists_decodeCmd_eq_ok_iff_mem {w : Word} :
    (∃ i, decodeCmd w = .ok i) ↔ w ∈ Instr.all.map encode := by
  simp [decodeCmd_eq_ok_iff_encode, Instr.mem_all]

theorem Params.memBytes_le {p : Params} (h : p.wellFormed = true) : p.memBytes ≤ 2 ^ 32 := by
  simp only [Params.wellFormed, Bool.and_eq_true, decide_eq_true_eq] at h
  obtain ⟨⟨⟨-, hmax⟩, -⟩, -⟩ := h
  exact hmax

namespace Machine

open Sys2Proof.Claims

theorem processCmd_undecodable {w : Word} (h : ¬ ∃ i, decodeCmd w = .ok i) (s : State) :
    processCmd w s = .next (rejectIllegal s) := by
  unfold processCmd
  split
  · exact absurd ⟨_, ‹_›⟩ h
  · rfl

/-- Settles O3: the fields by the decoder's inverse on each field, the nine words by its inverse `encode`. -/
theorem legalWordsDecodeAndOthersAreIllegal : Obligations.LegalWordsDecodeAndOthersAreIllegal := by
  refine fun w => ⟨exists_decodeCmd_eq_ok_iff, exists_decodeCmd_eq_ok_iff_mem, fun h s ⟨_, he, hb⟩ => ?_⟩
  rw [processCmd_undecodable h, rejectIllegal, cmdGate_ready he hb]
  rfl

/-! Effective addresses (30_encoding.md R63) -/

theorem get_effectiveAddrs_independent (s : State) (i : Fin 8) :
    (effectiveAddrs .independent s).get i = (s.addr.get i).toNat := by
  simp [effectiveAddrs]

theorem get_effectiveAddrs_contiguous (s : State) (i : Fin 8) :
    (effectiveAddrs .contiguous s).get i = (s.addr.get 0).toNat + 16 * i.val := by
  simp [effectiveAddrs]

theorem get_effectiveAddrs_le (s : State) (m : AddrMode) (i : Fin 8) :
    (effectiveAddrs m s).get i ≤ 2 ^ 32 - 1 + 112 := by
  cases m with
  | independent =>
    have := (s.addr.get i).isLt
    rw [get_effectiveAddrs_independent]
    omega
  | contiguous =>
    have := (s.addr.get 0).isLt
    rw [get_effectiveAddrs_contiguous]
    omega

/-- Any lane out of range ends the range check in MEM_RANGE, whichever lane it then reports. -/
theorem rangeGate_errCode {ea : Lanes Nat} {s : State} {i : Fin 8} (h : s.params.memBytes < ea.get i + 16)
    (k : State → State) : (rangeGate ea k s).errCode = .memRange := by
  unfold rangeGate
  split
  · rfl
  · exact absurd (firstOutside_none.1 ‹_› i) (by omega)

theorem exec_load8_ready {s : State} (h : Ready s) (m : AddrMode) :
    exec (.load8 m) s = .next (rangeGate (effectiveAddrs m s)
      (acceptCmd .load8 (some (effectiveAddrs m s))) s) := by
  obtain ⟨hturn, he, hb⟩ := h
  simp only [exec, execLoad8, onTurn_host hturn, issueLoad8, cmdGate_ready he hb]

theorem exec_store8_ready {s : State} (h : Ready s) (hlv : s.lv = true) (m : AddrMode) :
    exec (.store8 m) s = .next (rangeGate (effectiveAddrs m s)
      (overlapGate m (effectiveAddrs m s) (acceptCmd .store8 (some (effectiveAddrs m s)))) s) := by
  obtain ⟨hturn, he, hb⟩ := h
  simp only [exec, execStore8, onTurn_host hturn, issueStore8, cmdGate_ready he hb, lanesGate_lv hlv]

/-- No command, issued or completing, changes an ADDR register. -/
theorem exec_addr {i : Instr} {s t : State} (h : exec i s = .next t) : t.addr = s.addr := by
  cases hturn : s.turn with
  | engine => cases exec_engine hturn h <;> rfl
  | host =>
    obtain ⟨u, hu, hi⟩ := exec_host i hturn
    cases h.symm.trans hu
    cases hi <;> rfl

/-- Settles O16: an address past `2^32` is past every MEM_BYTES, as these are at most `2^32`. -/
theorem effectiveAddressesDoNotWrap : Obligations.EffectiveAddressesDoNotWrap := by
  refine ⟨get_effectiveAddrs_independent, get_effectiveAddrs_contiguous, get_effectiveAddrs_le, ?_, ?_,
    fun _ _ _ => exec_addr⟩
  · intro s m i hready hlv hout op hop
    simp only [List.mem_cons, List.not_mem_nil, or_false] at hop
    rcases hop with rfl | rfl
    · exact ⟨_, exec_load8_ready hready m, rangeGate_errCode hout _⟩
    · exact ⟨_, exec_store8_ready hready hlv m, rangeGate_errCode hout _⟩
  · intro s i hwf hpast
    exact (Params.memBytes_le hwf).trans_lt hpast

end Machine
end Sys2Proof
end

section
/-! PROOFS of family 41_xor: XOR8 (O19) and its involution (O24), over what is said once of a command that
transforms every lane with the key. -/

namespace Sys2Proof

/-! The word of a command without addressing modes (30_encoding.md R61, R64) -/

theorem Opcode.code_injective : Function.Injective Opcode.code := fun _ _ h =>
  Option.some.inj <| (Opcode.ofCode_eq_some_iff.2 rfl).symm.trans (Opcode.ofCode_eq_some_iff.2 h)

/-- A command that moves no bytes has no addressing mode: its operation names it. -/
theorem Instr.instr_opcode {i : Instr} (h : i.opcode.movesBytes = false) : i.opcode.instr = i := by
  cases i with
  | load8 _ | store8 _ => cases h
  | _ => rfl

/-- Of the words with the OP of a command that moves no bytes, only the command's own decodes. -/
theorem eq_encode_of_op {i j : Instr} {w : Word} (hi : i.opcode.movesBytes = false)
    (hop : w.extractLsb' 0 4 = i.opcode.code) (hj : decodeCmd w = .ok j) : w = encode i := by
  obtain ⟨hcode, -, -⟩ := decodeCmd_eq_ok_iff.1 hj
  have hopcode : j.opcode = i.opcode := Opcode.code_injective (hcode.symm.trans hop)
  have hji : j = i := by rw [← Instr.instr_opcode hi, ← hopcode, Instr.instr_opcode (hopcode ▸ hi)]
  rw [← hji, decodeCmd_eq_ok_iff_encode.1 hj]

namespace Machine

open Sys2Proof.Claims

/-! A command that transforms every lane with the key (40_marshalling.md R71, R72) -/

/-- Its checks in the order of 60_exceptions.md R102, then its acceptance. -/
theorem issueKeyed_eq (op : Opcode) (s : State) :
    issueKeyed op s = if s.err then s else if s.busy then rejected .cmdBusy 0#3 0 s
      else if s.lv then accepted op none s else rejected .lanesInvalid 0#3 0 s := rfl

theorem completeKeyed_inFlight {sn : Snapshot} {s : State} (h : InFlight sn s) (f : Block → Block → Block) :
    completeKeyed sn.op f s = .next (completed { s with lanes := s.lanes.map fun v => f v sn.key }) := by
  obtain ⟨-, hbusy, hsn⟩ := h
  rw [completeKeyed, whenInFlight_of hbusy hsn rfl]
  rfl

/-- A command made of the shared issue and completion does what `KeyedCommand` asks; the four rounds have this
shape too. -/
theorem keyedCommand_of_exec {i : Instr} {f : Block → Block → Block} (hi : i.opcode.movesBytes = false)
    (hexec : exec i = onTurn (issueKeyed i.opcode) (completeKeyed i.opcode f)) :
    KeyedCommand (encode i) i f := by
  refine ⟨decodeCmd_encode i, fun w s hop hne ⟨_, herr, hbusy⟩ => ?_, fun s hturn => ?_,
    fun s sn hfly hop => ?_⟩
  · have hcode : (encode i).extractLsb' 0 4 = i.opcode.code :=
      (decodeCmd_eq_ok_iff.1 (decodeCmd_encode i)).1
    have hill : ¬ ∃ j, decodeCmd w = .ok j := fun ⟨_, hj⟩ => hne (eq_encode_of_op hi (hop.trans hcode) hj)
    rw [processCmd_undecodable hill, rejectIllegal, cmdGate_ready herr hbusy]
    rfl
  · rw [hexec, onTurn_host hturn, issueKeyed_eq]
  · have hturn : s.turn = .engine := hfly.1
    rw [hexec, onTurn_engine hturn, ← hop, completeKeyed_inFlight hfly]

/-! XOR8 (41_xor.md R80, R81) -/

theorem addRoundKey_addRoundKey (v k : Block) : addRoundKey (addRoundKey v k) k = v := by
  simp [addRoundKey]

theorem keyedCommand_xor8 : KeyedCommand 0x00000003#32 .xor8 addRoundKey :=
  keyedCommand_of_exec (i := .xor8) rfl rfl

theorem exec_xor8_inFlight {sn : Snapshot} {s : State} (h : InFlight sn s) (hop : sn.op = .xor8) :
    exec .xor8 s = .next (completed { s with lanes := s.lanes.map fun v => addRoundKey v sn.key }) := by
  obtain ⟨-, -, -, hcompletes⟩ := keyedCommand_xor8
  exact hcompletes s sn h hop

/-- Settles O19: XOR8 is a keyed command whose lane function is XOR, its own inverse with unit 0. -/
theorem xor8CompletionXorsTheKey : Obligations.Xor8CompletionXorsTheKey :=
  ⟨keyedCommand_xor8, fun _ => ⟨BitVec.xor_zero, BitVec.xor_self⟩, by decide⟩

/-- Settles O24: each completion adds the one key to every lane, and adding it twice cancels. -/
theorem xor8TwiceRestoresTheLanes : Obligations.Xor8TwiceRestoresTheLanes := by
  intro s t s' sn sn' hfly hop hexec hfly' hop' hkey hlanes
  rw [exec_xor8_inFlight hfly hop] at hexec
  cases hexec
  refine ⟨_, exec_xor8_inFlight hfly' hop', Lanes.eq_of_get fun i => ?_⟩
  simp [completed, hlanes, hkey, addRoundKey_addRoundKey]

end Machine
end Sys2Proof
end

section
/-! PROOFS of family 42_aes_rounds: the AES transformations (O27 to O32) and the four round commands (O20 to
O23). A transformation is read entry by entry of the state matrix; MixColumns is undone by linearity. -/

namespace Sys2Proof

/-! The field GF(2^8): products are XORs of `xtime` powers, and linear (42_aes_rounds.md R83) -/

theorem xtime_eq (a : Byte) : xtime a = if a.getLsbD 7 then (a <<< 1) ^^^ 0x1B#8 else a <<< 1 := by
  revert a
  decide

/-- What sorts an XOR of bytes, with `BitVec.xor_assoc` and `BitVec.xor_comm`. -/
theorem byte_xor_left_comm (a b c : Byte) : a ^^^ (b ^^^ c) = b ^^^ (a ^^^ c) := by
  rw [← BitVec.xor_assoc, BitVec.xor_comm a, BitVec.xor_assoc]

theorem xtime_xor (a b : Byte) : xtime (a ^^^ b) = xtime a ^^^ xtime b := by
  simp only [xtime_eq, BitVec.getLsbD_xor, BitVec.shiftLeft_xor_distrib]
  cases a.getLsbD 7 <;> cases b.getLsbD 7 <;>
    simp [BitVec.xor_assoc, BitVec.xor_comm, byte_xor_left_comm]

theorem xtimes_xor (k : Nat) (a b : Byte) : xtimes k (a ^^^ b) = xtimes k a ^^^ xtimes k b := by
  induction k with
  | zero => rfl
  | succ k ih => simp only [xtimes, ih, xtime_xor]

theorem xtimes_eq_iterate (k : Nat) (a : Byte) : xtimes k a = xtime^[k] a := by
  induction k with
  | zero => rfl
  | succ k ih => rw [xtimes, ih, Function.iterate_succ_apply']

theorem gmulBits_eq_foldl (a b : Byte) (n : Nat) : gmulBits a b n =
    (List.range n).foldl (fun acc k => if b.getLsbD k then acc ^^^ xtime^[k] a else acc) 0#8 := by
  induction n with
  | zero => rfl
  | succ n ih =>
    simp only [gmulBits, ih, xtimes_eq_iterate, List.range_succ, List.foldl_append, List.foldl_cons,
      List.foldl_nil]
    split <;> simp

theorem gmulBits_xor (a b c : Byte) (n : Nat) :
    gmulBits (a ^^^ b) c n = gmulBits a c n ^^^ gmulBits b c n := by
  induction n with
  | zero => simp [gmulBits]
  | succ n ih =>
    simp only [gmulBits, ih, xtimes_xor]
    split
    · ac_rfl
    · simp

theorem gmul_xor (a b c : Byte) : gmul (a ^^^ b) c = gmul a c ^^^ gmul b c := gmulBits_xor a b c 8

/-! The products the rules need (42_aes_rounds.md R83) -/

theorem gmul_one (a : Byte) : gmul a 1#8 = a := by
  simp [gmul, gmulBits, xtimes]

theorem gmul_two (a : Byte) : gmul a 2#8 = xtime a := by
  simp [gmul, gmulBits, xtimes]

theorem gmul_three (a : Byte) : gmul a 3#8 = xtime a ^^^ a := by
  simp [gmul, gmulBits, xtimes, BitVec.xor_comm]

theorem gmul_nine (a : Byte) : gmul a 0x09#8 = a ^^^ xtime (xtime (xtime a)) := by
  simp [gmul, gmulBits, xtimes]

theorem gmul_eleven (a : Byte) : gmul a 0x0b#8 = a ^^^ xtime a ^^^ xtime (xtime (xtime a)) := by
  simp [gmul, gmulBits, xtimes]

theorem gmul_thirteen (a : Byte) : gmul a 0x0d#8 = a ^^^ xtime (xtime a) ^^^ xtime (xtime (xtime a)) := by
  simp [gmul, gmulBits, xtimes]

theorem gmul_fourteen (a : Byte) : gmul a 0x0e#8 = xtime a ^^^ xtime (xtime a) ^^^ xtime (xtime (xtime a)) := by
  simp [gmul, gmulBits, xtimes]

/-- Settles O27: the product and the rule's formula are one recursion over the bits of `b`. -/
theorem fieldProductsFollowXtime : Obligations.FieldProductsFollowXtime :=
  ⟨fun a => ⟨gmul_one a, gmul_two a, gmul_three a⟩, xtime_eq, fun a b => gmulBits_eq_foldl a b 8, gmul_xor,
    by decide⟩

/-! The state matrix (42_aes_rounds.md R82) -/

theorem aesEntry_ofAesEntries (f : Nat → Nat → Byte) {r c : Nat} (hr : r < 4) (hc : c < 4) :
    aesEntry (ofAesEntries f) r c = f r c := by
  have hrow : (r + 4 * c) % 4 = r := by omega
  have hcol : (r + 4 * c) / 4 = c := by omega
  rw [aesEntry, ofAesEntries, Block.byte_ofBytes _ _ (by omega), hrow, hcol]

theorem eq_of_aesEntry {v w : Block} (h : ∀ r c, r < 4 → c < 4 → aesEntry v r c = aesEntry w r c) :
    v = w := by
  refine Block.eq_of_byte fun j hj => ?_
  have hentry := h (j % 4) (j / 4) (by omega) (by omega)
  rwa [aesEntry, aesEntry, Nat.mod_add_div] at hentry

theorem aesEntry_xor (v w : Block) (r c : Nat) :
    aesEntry (v ^^^ w) r c = aesEntry v r c ^^^ aesEntry w r c :=
  Block.byte_xor v w (r + 4 * c)

/-! SubBytes and InvSubBytes (42_aes_rounds.md R84, R85) -/

theorem byte_subBytes (v : Block) {j : Nat} (hj : j < 16) :
    Block.byte (subBytes v) j = sbox (Block.byte v j) :=
  Block.byte_ofBytes _ j hj

theorem byte_invSubBytes (v : Block) {j : Nat} (hj : j < 16) :
    Block.byte (invSubBytes v) j = invSbox (Block.byte v j) :=
  Block.byte_ofBytes _ j hj

/-- The inverse of the affine map `sboxAffine`. -/
def sboxInvAffine (s : Byte) : Byte := s.rotateLeft 1 ^^^ s.rotateLeft 3 ^^^ s.rotateLeft 6 ^^^ 0x05#8

theorem sboxAffine_sboxInvAffine (s : Byte) : sboxAffine (sboxInvAffine s) = s := by
  revert s
  decide

/-- Behind the affine map the table holds the multiplicative inverse, 0 for 0. -/
theorem gmul_sboxInvAffine_sbox (a : Byte) :
    (a = 0#8 ∧ sboxInvAffine (sbox a) = 0#8) ∨ gmul a (sboxInvAffine (sbox a)) = 1#8 := by
  revert a
  decide +kernel

/-- Settles O28: the inverse of `a` is what the inverse affine map makes of the table's entry. -/
theorem subBytesIsInverseThenAffine : Obligations.SubBytesIsInverseThenAffine :=
  ⟨fun v _ hj => byte_subBytes v hj, by decide,
    fun a => ⟨sboxInvAffine (sbox a), gmul_sboxInvAffine_sbox a, (sboxAffine_sboxInvAffine (sbox a)).symm⟩⟩

@[simp] theorem invSbox_sbox (a : Byte) : invSbox (sbox a) = a := by
  revert a
  decide

@[simp] theorem sbox_invSbox (a : Byte) : sbox (invSbox a) = a := by
  revert a
  decide

@[simp] theorem invSubBytes_subBytes (v : Block) : invSubBytes (subBytes v) = v :=
  Block.eq_of_byte fun j hj => by rw [byte_invSubBytes _ hj, byte_subBytes _ hj, invSbox_sbox]

@[simp] theorem subBytes_invSubBytes (v : Block) : subBytes (invSubBytes v) = v :=
  Block.eq_of_byte fun j hj => by rw [byte_subBytes _ hj, byte_invSubBytes _ hj, sbox_invSbox]

/-- Settles O29: the two tables are inverse permutations, checked entry by entry. -/
theorem invSubBytesInvertsSubBytes : Obligations.InvSubBytesInvertsSubBytes :=
  ⟨fun v _ hj => byte_invSubBytes v hj, fun a => ⟨invSbox_sbox a, sbox_invSbox a⟩, by decide,
    fun v => ⟨invSubBytes_subBytes v, subBytes_invSubBytes v⟩⟩

/-! ShiftRows and InvShiftRows (42_aes_rounds.md R86, R87) -/

theorem aesEntry_shiftRows (v : Block) {r c : Nat} (hr : r < 4) (hc : c < 4) :
    aesEntry (shiftRows v) r c = aesEntry v r ((c + r) % 4) :=
  aesEntry_ofAesEntries _ hr hc

theorem aesEntry_invShiftRows (v : Block) {r c : Nat} (hr : r < 4) (hc : c < 4) :
    aesEntry (invShiftRows v) r c = aesEntry v r ((c + 4 - r) % 4) :=
  aesEntry_ofAesEntries _ hr hc

theorem byte_shiftRows (v : Block) {j : Nat} (hj : j < 16) : Block.byte (shiftRows v) j =
    Block.byte v ([0, 5, 10, 15, 4, 9, 14, 3, 8, 13, 2, 7, 12, 1, 6, 11].getD j 0) := by
  rw [shiftRows, ofAesEntries, Block.byte_ofBytes _ _ hj]
  interval_cases j <;> rfl

theorem byte_invShiftRows (v : Block) {j : Nat} (hj : j < 16) : Block.byte (invShiftRows v) j =
    Block.byte v ([0, 13, 10, 7, 4, 1, 14, 11, 8, 5, 2, 15, 12, 9, 6, 3].getD j 0) := by
  rw [invShiftRows, ofAesEntries, Block.byte_ofBytes _ _ hj]
  interval_cases j <;> rfl

@[simp] theorem invShiftRows_shiftRows (v : Block) : invShiftRows (shiftRows v) = v := by
  refine eq_of_aesEntry fun r c hr hc => ?_
  have hback : ((c + 4 - r) % 4 + r) % 4 = c := by omega
  rw [aesEntry_invShiftRows _ hr hc, aesEntry_shiftRows _ hr (by omega), hback]

@[simp] theorem shiftRows_invShiftRows (v : Block) : shiftRows (invShiftRows v) = v := by
  refine eq_of_aesEntry fun r c hr hc => ?_
  have hback : ((c + r) % 4 + 4 - r) % 4 = c := by omega
  rw [aesEntry_shiftRows _ hr hc, aesEntry_invShiftRows _ hr (by omega), hback]

/-- Settles O30: rotating row `r` by `r` columns right undoes rotating it left. -/
theorem shiftRowsRotatesTheRows : Obligations.ShiftRowsRotatesTheRows :=
  ⟨fun v _ _ hr hc => ⟨rfl, aesEntry_shiftRows v hr hc, aesEntry_invShiftRows v hr hc⟩,
    fun v _ hj => ⟨byte_shiftRows v hj, byte_invShiftRows v hj⟩,
    fun v => ⟨invShiftRows_shiftRows v, shiftRows_invShiftRows v⟩⟩

/-! The byte steps and the row steps commute (42_aes_rounds.md R90) -/

theorem aesEntry_subBytes (v : Block) {r c : Nat} (hr : r < 4) (hc : c < 4) :
    aesEntry (subBytes v) r c = sbox (aesEntry v r c) :=
  byte_subBytes v (by omega)

theorem aesEntry_invSubBytes (v : Block) {r c : Nat} (hr : r < 4) (hc : c < 4) :
    aesEntry (invSubBytes v) r c = invSbox (aesEntry v r c) :=
  byte_invSubBytes v (by omega)

theorem subBytes_shiftRows (v : Block) : subBytes (shiftRows v) = shiftRows (subBytes v) := by
  refine eq_of_aesEntry fun r c hr hc => ?_
  rw [aesEntry_subBytes _ hr hc, aesEntry_shiftRows _ hr hc, aesEntry_shiftRows _ hr hc,
    aesEntry_subBytes _ hr (by omega)]

theorem invSubBytes_invShiftRows (v : Block) : invSubBytes (invShiftRows v) = invShiftRows (invSubBytes v) := by
  refine eq_of_aesEntry fun r c hr hc => ?_
  rw [aesEntry_invSubBytes _ hr hc, aesEntry_invShiftRows _ hr hc, aesEntry_invShiftRows _ hr hc,
    aesEntry_invSubBytes _ hr (by omega)]

/-- Settles O32: one step maps bytes and the other moves them, so each order gives the same round. -/
theorem subBytesCommutesWithShiftRows : Obligations.SubBytesCommutesWithShiftRows :=
  ⟨fun _ _ => rfl, subBytes_shiftRows, invSubBytes_invShiftRows,
    fun v k => by rw [aesenc, subBytes_shiftRows]⟩

/-- The final inverse round's steps undo the final round's. -/
theorem invSubBytes_invShiftRows_subBytes_shiftRows (v : Block) :
    invSubBytes (invShiftRows (subBytes (shiftRows v))) = v := by
  rw [subBytes_shiftRows, invShiftRows_shiftRows, invSubBytes_subBytes]

/-! MixColumns and InvMixColumns (42_aes_rounds.md R88, R89) -/

theorem aesEntry_mixColumns (v : Block) {r c : Nat} (hr : r < 4) (hc : c < 4) :
    aesEntry (mixColumns v) r c =
      mixColumnRow (aesEntry v 0 c) (aesEntry v 1 c) (aesEntry v 2 c) (aesEntry v 3 c) r :=
  aesEntry_ofAesEntries _ hr hc

theorem aesEntry_invMixColumns (v : Block) {r c : Nat} (hr : r < 4) (hc : c < 4) :
    aesEntry (invMixColumns v) r c =
      invMixColumnRow (aesEntry v 0 c) (aesEntry v 1 c) (aesEntry v 2 c) (aesEntry v 3 c) r :=
  aesEntry_ofAesEntries _ hr hc

theorem invMixColumnRow_xor (a0 a1 a2 a3 b0 b1 b2 b3 : Byte) (r : Nat) :
    invMixColumnRow (a0 ^^^ b0) (a1 ^^^ b1) (a2 ^^^ b2) (a3 ^^^ b3) r =
      invMixColumnRow a0 a1 a2 a3 r ^^^ invMixColumnRow b0 b1 b2 b3 r := by
  unfold invMixColumnRow
  split <;> simp only [gmul_xor] <;> ac_rfl

theorem invMixColumns_xor (v w : Block) : invMixColumns (v ^^^ w) = invMixColumns v ^^^ invMixColumns w := by
  refine eq_of_aesEntry fun r c hr hc => ?_
  simp only [aesEntry_xor, aesEntry_invMixColumns _ hr hc, invMixColumnRow_xor]

/-- InvMixColumns of the four columns that MixColumns makes of a column with the one entry `a`. Written in powers
of `xtime` each is `a` or cancels, with no reduction by the field's polynomial. -/
theorem invMixColumnRow_single (a : Byte) {r : Nat} (hr : r < 4) :
    invMixColumnRow (gmul a 2#8) a a (gmul a 3#8) r = (if r = 0 then a else 0#8) ∧
    invMixColumnRow (gmul a 3#8) (gmul a 2#8) a a r = (if r = 1 then a else 0#8) ∧
    invMixColumnRow a (gmul a 3#8) (gmul a 2#8) a r = (if r = 2 then a else 0#8) ∧
    invMixColumnRow a a (gmul a 3#8) (gmul a 2#8) r = (if r = 3 then a else 0#8) := by
  refine ⟨?_, ?_, ?_, ?_⟩ <;> interval_cases r
  all_goals
    simp [invMixColumnRow, gmul_two, gmul_three, gmul_nine, gmul_eleven, gmul_thirteen, gmul_fourteen, xtime_xor,
      BitVec.xor_assoc, BitVec.xor_comm, byte_xor_left_comm]

/-- The column `f` is the XOR of its single entries, and InvMixColumns is linear. -/
theorem invMixColumnRow_mixColumnRow (f : Nat → Byte) {r : Nat} (hr : r < 4) :
    invMixColumnRow (mixColumnRow (f 0) (f 1) (f 2) (f 3) 0) (mixColumnRow (f 0) (f 1) (f 2) (f 3) 1)
      (mixColumnRow (f 0) (f 1) (f 2) (f 3) 2) (mixColumnRow (f 0) (f 1) (f 2) (f 3) 3) r = f r := by
  obtain ⟨h0, -⟩ := invMixColumnRow_single (f 0) hr
  obtain ⟨-, h1, -⟩ := invMixColumnRow_single (f 1) hr
  obtain ⟨-, -, h2, -⟩ := invMixColumnRow_single (f 2) hr
  obtain ⟨-, -, -, h3⟩ := invMixColumnRow_single (f 3) hr
  simp only [mixColumnRow, invMixColumnRow_xor, h0, h1, h2, h3]
  interval_cases r <;> simp

@[simp] theorem invMixColumns_mixColumns (v : Block) : invMixColumns (mixColumns v) = v := by
  refine eq_of_aesEntry fun r c hr hc => ?_
  simp only [aesEntry_invMixColumns _ hr hc, aesEntry_mixColumns _ _ hc, Nat.reduceLT]
  exact invMixColumnRow_mixColumnRow (fun i => aesEntry v i c) hr

/-- Settles O31: the columns are the definition read at each row, and the second map undoes the first. -/
theorem invMixColumnsInvertsMixColumns : Obligations.InvMixColumnsInvertsMixColumns := by
  refine ⟨fun v c hc => ?_, by decide, by decide, invMixColumns_mixColumns⟩
  have hmix := fun r (hr : r < 4) => aesEntry_mixColumns v hr hc
  have hinv := fun r (hr : r < 4) => aesEntry_invMixColumns v hr hc
  exact ⟨hmix 0 (by decide), hmix 1 (by decide), hmix 2 (by decide), hmix 3 (by decide),
    hinv 0 (by decide), hinv 1 (by decide), hinv 2 (by decide), hinv 3 (by decide)⟩

/-! The rounds on one lane (42_aes_rounds.md R92 to R95) -/

theorem aesenclast_zero (v : Block) : aesenclast v 0#128 = subBytes (shiftRows v) := by
  rw [aesenclast, addRoundKey, BitVec.xor_zero]

/-- Inside the inverse cipher AESDEC8 meets a lane whose byte and row steps are still to be undone. -/
theorem aesdec_aesenclast (v k : Block) : aesdec (aesenclast v 0#128) k = invMixColumns v ^^^ k := by
  rw [aesenclast_zero, aesdec, invSubBytes_invShiftRows_subBytes_shiftRows, addRoundKey]

/-- A middle round is undone under InvMixColumns of its key: InvMixColumns is linear. -/
theorem aesdec_aesenclast_aesenc (k v : Block) :
    aesdec (aesenclast (aesenc v k) 0#128) (invMixColumns k) = aesenclast v 0#128 := by
  rw [aesdec_aesenclast, aesenc, addRoundKey, invMixColumns_xor, invMixColumns_mixColumns, BitVec.xor_assoc,
    BitVec.xor_self, BitVec.xor_zero, aesenclast_zero]

/-- AddRoundKey with AESENCLAST8's key, then AESDECLAST8 with key 0, undoes AESENCLAST8. -/
theorem aesdeclast_aesenclast (x k : Block) : aesdeclast (addRoundKey (aesenclast x k) k) 0#128 = x := by
  rw [aesenclast, Machine.addRoundKey_addRoundKey, aesdeclast, invSubBytes_invShiftRows_subBytes_shiftRows,
    addRoundKey, BitVec.xor_zero]

namespace Machine

open Sys2Proof.Claims

/-! The four commands (42_aes_rounds.md R92 to R95) -/

theorem keyedCommand_aesenc8 : KeyedCommand 0x00000004#32 .aesenc8 aesenc :=
  keyedCommand_of_exec (i := .aesenc8) rfl rfl

theorem keyedCommand_aesenclast8 : KeyedCommand 0x00000005#32 .aesenclast8 aesenclast :=
  keyedCommand_of_exec (i := .aesenclast8) rfl rfl

theorem keyedCommand_aesdec8 : KeyedCommand 0x00000006#32 .aesdec8 aesdec :=
  keyedCommand_of_exec (i := .aesdec8) rfl rfl

theorem keyedCommand_aesdeclast8 : KeyedCommand 0x00000007#32 .aesdeclast8 aesdeclast :=
  keyedCommand_of_exec (i := .aesdeclast8) rfl rfl

/-- Settles O20: AESENC8 is a keyed command, and its lane function gives the rule's values. -/
theorem aesenc8CompletionAppliesTheRound : Obligations.Aesenc8CompletionAppliesTheRound :=
  ⟨keyedCommand_aesenc8, by decide +kernel⟩

/-- Settles O21: AESENCLAST8 is a keyed command, and its lane function gives the rule's values. -/
theorem aesenclast8CompletionAppliesTheFinalRound : Obligations.Aesenclast8CompletionAppliesTheFinalRound :=
  ⟨keyedCommand_aesenclast8, by decide +kernel⟩

/-- Settles O22: AESDEC8 is a keyed command; under AESENC8's own key, here 1, it does not undo that round on a
lane of zeros, under InvMixColumns of the key it undoes every middle round. -/
theorem aesdec8CompletionAppliesTheInverseRound : Obligations.Aesdec8CompletionAppliesTheInverseRound :=
  ⟨keyedCommand_aesdec8, by decide +kernel, by decide +kernel, ⟨1#128, 0#128, by decide +kernel⟩,
    aesdec_aesenclast_aesenc, by decide +kernel⟩

/-- Settles O23: AESDECLAST8 is a keyed command, and its steps undo those of AESENCLAST8. -/
theorem aesdeclast8CompletionAppliesTheFinalInverseRound :
    Obligations.Aesdeclast8CompletionAppliesTheFinalInverseRound :=
  ⟨keyedCommand_aesdeclast8, by decide, aesdeclast_aesenclast, by decide⟩

end Machine
end Sys2Proof
end

section
/-! PROOFS of family 60_exceptions: the checks of a CMD write (O6, O7) and the interrupt output (O59). -/

namespace Sys2Proof.Machine

open Sys2Proof.Claims

/-! A CMD write as the model makes its checks: ERR and BUSY first, then those of the command
(60_exceptions.md R102 to R107) -/

/-- The checks of a command past ERR and BUSY, and its acceptance after them. -/
def checksPastGate (i : Instr) (s : State) : State :=
  match i with
  | .load8 m => rangeGate (effectiveAddrs m s) (acceptCmd .load8 (some (effectiveAddrs m s))) s
  | .store8 m => lanesGate (rangeGate (effectiveAddrs m s) (overlapGate m (effectiveAddrs m s)
      (acceptCmd .store8 (some (effectiveAddrs m s))))) s
  | .xor8 | .aesenc8 | .aesenclast8 | .aesdec8 | .aesdeclast8 => lanesGate (acceptCmd i.opcode none) s

/-- What a CMD write does past ERR and BUSY, for what its word decodes to. -/
def checksOf (d : Except DecodeError Instr) (s : State) : State :=
  match d with
  | .ok i => checksPastGate i s
  | .error _ => raiseError .illegalCmd 0#3 0 s

theorem exec_host_eq_cmdGate (i : Instr) {s : State} (h : s.turn = .host) :
    exec i s = .next (cmdGate (checksPastGate i) s) := by
  cases i with
  | load8 m | store8 m => exact onTurn_host h
  | _ => exact onTurn_host h

/-- Whatever the word, a CMD write meets ERR and BUSY before any other check. -/
theorem processCmd_eq_cmdGate (w : Word) {s : State} (h : s.turn = .host) :
    processCmd w s = .next (cmdGate (checksOf (decodeCmd w)) s) := by
  unfold processCmd
  cases decodeCmd w with
  | ok i => exact exec_host_eq_cmdGate i h
  | error e => rfl

/-- Settles O7: ERR is the first check of the gate that every CMD write meets. -/
theorem cmdWriteIsDiscardedWhileErr : Obligations.CmdWriteIsDiscardedWhileErr := by
  intro w s hturn herr
  rw [processCmd_eq_cmdGate w hturn, cmdGate_err herr]

/-! The address checks of R102, which searches the lanes of a function, and the model's on eight lanes -/

theorem effectiveAddrs_eq_ofFn (m : AddrMode) (s : State) :
    effectiveAddrs m s = Lanes.ofFn fun i =>
      if m.bit then (s.addr.get 0).toNat + 16 * i.val else (s.addr.get i).toNat := by
  cases m <;> rfl

theorem firstOutside_ofFn (n : Nat) (f : Fin 8 → Nat) :
    firstOutside n (Lanes.ofFn f) =
      ([0, 1, 2, 3, 4, 5, 6, 7] : List (Fin 8)).find? fun i => n < f i + 16 := by
  simp only [firstOutside, Lanes.get_ofFn]
  rfl

/-- R102 takes the distance of two addresses, the model compares the ends of their blocks. -/
theorem blocksOverlap_eq_natAbs (a b : Nat) :
    blocksOverlap a b = decide (((a : Int) - (b : Int)).natAbs < 16) := by
  rw [Bool.eq_iff_iff]
  simp only [blocksOverlap, Bool.and_eq_true, decide_eq_true_eq]
  omega

/-- No lane comes before lane 0, so the search for the overlapping lane may begin at lane 1. -/
theorem firstOverlap_ofFn (f : Fin 8 → Nat) :
    firstOverlap (Lanes.ofFn f) =
      ([1, 2, 3, 4, 5, 6, 7] : List (Fin 8)).find? fun j =>
        ([0, 1, 2, 3, 4, 5, 6, 7] : List (Fin 8)).any fun i =>
          i.val < j.val && ((f i : Int) - (f j : Int)).natAbs < 16 := by
  simp only [firstOverlap, Lanes.get_ofFn, blocksOverlap_eq_natAbs]
  rfl

/-! The pseudocode of R102 makes the model's checks -/

theorem cmdWriteChecks_err (w : Word) {s : State} (he : s.err = true) : cmdWriteChecks w s = s := by
  simp [cmdWriteChecks, he]

theorem cmdWriteChecks_busy (w : Word) {s : State} (he : s.err = false) (hb : s.busy = true) :
    cmdWriteChecks w s = raiseError .cmdBusy 0#3 0 s := by
  unfold cmdWriteChecks
  rw [he, hb]
  rfl

theorem cmdWriteChecks_undecodable {w : Word} {s : State} (he : s.err = false) (hb : s.busy = false)
    (hw : ¬ ∃ i, decodeCmd w = .ok i) : cmdWriteChecks w s = raiseError .illegalCmd 0#3 0 s := by
  rw [exists_decodeCmd_eq_ok_iff, and_assoc] at hw
  unfold cmdWriteChecks
  rw [he, hb]
  exact if_pos hw

/-- For the word of a command the rule's OP, C and addresses are the command's. -/
theorem cmdWriteChecks_decoded {w : Word} {s : State} {i : Instr} (he : s.err = false) (hb : s.busy = false)
    (hw : decodeCmd w = .ok i) : cmdWriteChecks w s = checksPastGate i s := by
  obtain ⟨hop, -, hc⟩ := decodeCmd_eq_ok_iff.1 hw
  have hlegal := exists_decodeCmd_eq_ok_iff.1 ⟨i, hw⟩
  rw [and_assoc] at hlegal
  unfold cmdWriteChecks
  extract_lets op c ea range overlap
  replace hop : op = i.opcode.code := hop
  have hea (m : AddrMode) (hm : c = m.bit) : effectiveAddrs m s = Lanes.ofFn ea := by
    simp only [effectiveAddrs_eq_ofFn, ea, hm]
  have hrange (hmoves : op = 1#4 ∨ op = 2#4) :
      range = firstOutside s.params.memBytes (Lanes.ofFn ea) := by
    rw [firstOutside_ofFn]
    exact if_pos hmoves
  rw [he, hb, if_neg Bool.false_ne_true, if_neg Bool.false_ne_true, if_neg (not_not.2 hlegal), hop]
  cases i with
  | load8 m =>
    have hoverlap : overlap = none := if_neg (by simp [hop, Instr.opcode, Opcode.code])
    rw [hrange (.inl hop), hoverlap, checksPastGate, hea m hc, rangeGate]
    simp only [Lanes.get_ofFn]
    cases firstOutside s.params.memBytes (Lanes.ofFn ea) <;> rfl
  | store8 m =>
    have hoverlap : overlap = overlapOf m (Lanes.ofFn ea) := by
      cases m with
      | independent => rw [overlapOf, firstOverlap_ofFn]; exact if_pos ⟨hop, hc⟩
      | contiguous => exact if_neg fun ⟨_, hplain⟩ => Bool.false_ne_true (hplain.symm.trans hc)
    rw [hrange (.inr hop), hoverlap, checksPastGate, hea m hc, lanesGate, rangeGate, overlapGate]
    simp only [Lanes.get_ofFn]
    cases s.lv with
    | false => rfl
    | true =>
      cases firstOutside s.params.memBytes (Lanes.ofFn ea) with
      | some i => rfl
      | none => cases overlapOf m (Lanes.ofFn ea) <;> rfl
  | _ =>
    have hnorange : range = none := if_neg (by simp [hop, Instr.opcode, Opcode.code])
    have hoverlap : overlap = none := if_neg (by simp [hop, Instr.opcode, Opcode.code])
    rw [hnorange, hoverlap, checksPastGate, lanesGate]
    cases s.lv <;> rfl

theorem cmdWriteChecks_eq_cmdGate (w : Word) (s : State) :
    cmdWriteChecks w s = cmdGate (checksOf (decodeCmd w)) s := by
  cases he : s.err with
  | true => rw [cmdWriteChecks_err w he, cmdGate_err he]
  | false =>
  cases hb : s.busy with
  | true => rw [cmdWriteChecks_busy w he hb, cmdGate_busy he hb]
  | false =>
  rw [cmdGate_ready he hb]
  cases hw : decodeCmd w with
  | ok i => exact cmdWriteChecks_decoded he hb hw
  | error e => exact cmdWriteChecks_undecodable he hb (by simp [hw])

/-- Settles O6: the rule's pseudocode and the model have the same checks behind the same gate. -/
theorem cmdWriteFollowsTheCheckOrder : Obligations.CmdWriteFollowsTheCheckOrder := by
  intro w s hturn
  rw [processCmd_eq_cmdGate w hturn, cmdWriteChecks_eq_cmdGate]

/-! The interrupt output (60_exceptions.md R109) -/

/-- A STATUS write masks each source of the interrupt with its own bit. -/
theorem irq_writeStatus (w : Word) {s : State} (h : s.doneNow = false) :
    (writeStatus w s).irq =
      ((!w.getLsbD 1 && (s.done && s.doneIE)) || (!w.getLsbD 2 && (s.err && s.errIE))) := by
  rw [writeStatus_eq]
  cases w.getLsbD 1 <;> cases w.getLsbD 2 <;> simp [State.irq, h]

/-- Settles O59: 6 masks both sources, 2 the completion and 4 the error. -/
theorem irqIsTheEnabledSources : Obligations.IrqIsTheEnabledSources := by
  refine ⟨fun _ => rfl, fun s hnow => ?_⟩
  have hwrite (w : Word) : writeCsr 0x08#8 w s = writeStatus w s := rfl
  simp [hwrite, irq_writeStatus _ hnow]

end Sys2Proof.Machine
end

section
/-! PROOFS of family 70_reset_and_hazards: what the engine's turn leaves under reset (O36), over the layer
`Laws` says of `resetRegisters`. -/

namespace Sys2Proof.Machine

/-- Reset goes before whatever else the engine's turn would do, a completion that is due too
(70_reset_and_hazards.md R118). -/
theorem step_engine_rst {s : State} (hturn : s.turn = .engine) (hrst : s.cycle.rst = true) :
    step s = .next (endEngineTurn (resetRegisters s)) := by
  rw [step_engine hturn, engineTurn, if_pos hrst]

theorem readCsr_id (s : State) : readCsr 0x00#8 s = 0x41455338#32 := rfl

/-- With no source pending the enables do not matter (60_exceptions.md R109). -/
theorem irq_eq_false {s : State} (hdone : s.done = false) (herr : s.err = false) : s.irq = false := by
  simp [State.irq, hdone, herr]

/-- Settles O36: the reset edge answers the registers of `resetRegisters`; irq is 0 because DONE and ERR are. -/
theorem resetEdgeSetsEveryRegister : Obligations.ResetEdgeSetsEveryRegister := by
  intro s hturn hrst
  refine ⟨_, step_engine_rst hturn hrst, ?_⟩
  have hirq : (endEngineTurn (resetRegisters s)).irq = false := irq_eq_false (by simp) (by simp)
  simp [hirq, readCsr_id]

end Sys2Proof.Machine
end

section
/-! PROOFS of family other, the commands: decoding (O4, O5) and the checks and acceptance of a CMD write
(O8 to O15), over the gate of family 60_exceptions. -/

namespace Sys2Proof

theorem Instr.wellFormed_eq_true (i : Instr) : i.wellFormed = true := by
  cases i with
  | load8 m | store8 m => cases m <;> rfl
  | _ => rfl

/-- Settles O4: a word decodes to a command iff it is the command's encoding. -/
theorem decodeAndEncodeAgree : Obligations.DecodeAndEncodeAgree :=
  ⟨fun i => ⟨i.wellFormed_eq_true, decodeCmd_encode i⟩,
    fun _ _ hdecode => (decodeCmd_eq_ok_iff_encode.1 hdecode).symm⟩

/-- Settles O5: the decoder run on thirteen words. -/
theorem tableWordsDecode : Obligations.TableWordsDecode := by
  unfold Obligations.TableWordsDecode
  decide

namespace Machine

open Sys2Proof.Claims

/-! Rejection (60_exceptions.md R99 to R106) -/

/-- Settles O8: BUSY is the second check of the gate that every CMD write meets. -/
theorem cmdWriteIsRejectedWhileBusy : Obligations.CmdWriteIsRejectedWhileBusy := by
  intro w s hturn herr hbusy
  rw [processCmd_eq_cmdGate w hturn, cmdGate_busy herr hbusy]
  rfl

/-- Settles O9: of what a CMD write can leave, only the rejection has ERR = 1 where it was 0. -/
theorem rejectionIsPrecise : Obligations.RejectionIsPrecise := by
  intro w s t hturn herr hcmd hterr
  obtain ⟨op, u, hu, hissued⟩ := processCmd_cases w hturn
  cases hcmd.symm.trans hu
  cases hissued with
  | discarded h => simp [herr] at h
  | rejected code lane addr _ hcode => exact ⟨rfl, hcode⟩
  | accepted _ _ _ _ _ => simp [herr] at hterr

theorem exec_ready {s : State} (h : Ready s) (i : Instr) : exec i s = .next (checksPastGate i s) := by
  obtain ⟨hturn, herr, hbusy⟩ := h
  rw [exec_host_eq_cmdGate i hturn, cmdGate_ready herr hbusy]

theorem lanesGate_noLanes {k : State → State} {s : State} (h : s.lv = false) :
    lanesGate k s = raiseError .lanesInvalid 0#3 0 s := by
  simp [lanesGate, h]

/-- Every command but LOAD8 meets LV before its other checks. -/
theorem checksPastGate_noLanes {i : Instr} (hi : i.opcode ≠ .load8) {s : State} (h : s.lv = false) :
    checksPastGate i s = raiseError .lanesInvalid 0#3 0 s := by
  cases i with
  | load8 _ => exact absurd rfl hi
  | _ => exact lanesGate_noLanes h

/-- Settles O13: LV is the first check past ERR and BUSY. -/
theorem laneReadersAreRejectedWithoutLanes : Obligations.LaneReadersAreRejectedWithoutLanes := by
  intro s i hi hready hlv
  rw [exec_ready hready, checksPastGate_noLanes hi hlv]
  rfl

theorem rangeGate_outside {ea : Lanes Nat} {s : State} {i : Fin 8}
    (h : firstOutside s.params.memBytes ea = some i) (k : State → State) :
    rangeGate ea k s = raiseError .memRange (BitVec.ofNat 3 i.val) (ea.get i) s := by
  simp [rangeGate, h]

theorem rangeGate_inRange {ea : Lanes Nat} {s : State} (h : InRange s.params.memBytes ea)
    (k : State → State) : rangeGate ea k s = k s := by
  simp [rangeGate, firstOutside_none.2 h]

theorem overlapGate_overlap {m : AddrMode} {ea : Lanes Nat} {j : Fin 8} (h : overlapOf m ea = some j)
    (k : State → State) (s : State) :
    overlapGate m ea k s = raiseError .storeOverlap (BitVec.ofNat 3 j.val) (ea.get j) s := by
  simp [overlapGate, h]

theorem overlapGate_disjoint {m : AddrMode} {ea : Lanes Nat} (h : overlapOf m ea = none)
    (k : State → State) (s : State) : overlapGate m ea k s = k s := by
  simp [overlapGate, h]

/-- Settles O14: both commands come to the range check, whose search stops at the lowest lane outside. -/
theorem memRangeReportsTheLowestLane : Obligations.MemRangeReportsTheLowestLane := by
  intro s m i hready hout hlow
  have hfirst := firstOutside_some hout hlow
  refine ⟨?_, fun hlv => ?_⟩
  · rw [exec_load8_ready hready, rangeGate_outside hfirst]
    rfl
  · rw [exec_store8_ready hready hlv, rangeGate_outside hfirst]
    rfl

/-- Settles O15: past the range check the overlap search stops at the smallest overlapping lane. -/
theorem storeOverlapReportsTheSmallestLane : Obligations.StoreOverlapReportsTheSmallestLane := by
  intro s i j hready hlv hrange hij hover hlow
  have hfirst : overlapOf .independent (effectiveAddrs .independent s) = some j :=
    firstOverlap_some hij (by simpa only [get_effectiveAddrs_independent] using hover)
      (by simpa only [get_effectiveAddrs_independent] using hlow)
  rw [exec_store8_ready hready hlv, rangeGate_inRange hrange, overlapGate_overlap hfirst,
    get_effectiveAddrs_independent]
  rfl

/-! Acceptance (60_exceptions.md R107) -/

theorem firstOverlap_none_iff_disjoint {ea : Lanes Nat} : firstOverlap ea = none ↔ Disjoint ea := by
  rw [firstOverlap_none]
  constructor
  · intro h i j hij
    rcases lt_or_gt_of_ne hij with hlt | hgt
    · exact h i j hlt
    · exact (h j i hgt).symm
  · exact fun h i j hij => h i j hij.ne

/-- With C = 1 no overlap is searched for, and there is none. -/
theorem overlapOf_none {m : AddrMode} {s : State}
    (h : m = .independent → Disjoint (effectiveAddrs m s)) :
    overlapOf m (effectiveAddrs m s) = none ∧ Disjoint (effectiveAddrs m s) := by
  cases m with
  | independent => exact ⟨firstOverlap_none_iff_disjoint.2 (h rfl), h rfl⟩
  | contiguous => exact ⟨rfl, firstOverlap_none_iff_disjoint.1 (firstOverlap_contiguous s)⟩

/-- Settles O10: the range check is LOAD8's only one. -/
theorem load8IsAcceptedInRange : Obligations.Load8IsAcceptedInRange := by
  intro s m hready hrange
  rw [exec_load8_ready hready, rangeGate_inRange hrange]
  rfl

/-- Settles O11: in range and disjoint, a STORE8 with LV = 1 passes its three checks. -/
theorem store8IsAcceptedInRangeAndDisjoint : Obligations.Store8IsAcceptedInRangeAndDisjoint := by
  intro s m hready hlv hrange hdisjoint
  obtain ⟨hnone, hdisjoint⟩ := overlapOf_none hdisjoint
  refine ⟨?_, hdisjoint⟩
  rw [exec_store8_ready hready hlv, rangeGate_inRange hrange, overlapGate_disjoint hnone]
  rfl

/-- A command that transforms the lanes applies one function to every lane and the snapshot's key, by the
completion that `KeyedCommand` gives. -/
theorem exists_keyedCommand {i : Instr} (h : transformsLanes i) : ∃ w f, KeyedCommand w i f := by
  rcases h with rfl | rfl | rfl | rfl | rfl
  · exact ⟨_, _, keyedCommand_xor8⟩
  · exact ⟨_, _, keyedCommand_aesenc8⟩
  · exact ⟨_, _, keyedCommand_aesenclast8⟩
  · exact ⟨_, _, keyedCommand_aesdec8⟩
  · exact ⟨_, _, keyedCommand_aesdeclast8⟩

/-- Settles O12: the issue clause of a keyed command, past ERR, BUSY and LV. -/
theorem keyedCommandsAreAccepted : Obligations.KeyedCommandsAreAccepted := by
  intro s i hi ⟨hturn, herr, hbusy⟩ hlv
  obtain ⟨w, f, -, -, hissue, -⟩ := exists_keyedCommand hi
  simp [hissue s hturn, herr, hbusy, hlv]

end Machine
end Sys2Proof
end

section
/-! PROOFS of family other, completion: LOAD8 (O17), STORE8 (O18), the one after the other (O25), the lanes'
independence (O26), and the lane functions of a whole encryption and decryption (O33). -/

namespace Sys2Proof

/-! The inverse cipher on one lane (42_aes_rounds.md R96, R97) -/

/-- AESENCLAST8's key is gone after AddRoundKey with the same key. -/
theorem addRoundKey_aesenclast (v k : Block) : addRoundKey (aesenclast v k) k = aesenclast v 0#128 := by
  rw [aesenclast, Machine.addRoundKey_addRoundKey, aesenclast_zero]

theorem aesdeclast_aesenclast_zero (v k : Block) : aesdeclast (aesenclast v 0#128) k = addRoundKey v k := by
  rw [aesenclast_zero, aesdeclast, invSubBytes_invShiftRows_subBytes_shiftRows]

/-- The middle rounds are undone from the last to the first, each under InvMixColumns of its key. -/
theorem foldl_aesdec_foldl_aesenc (ks : List Block) (x : Block) :
    (ks.reverse.map invMixColumns).foldl aesdec (aesenclast (ks.foldl aesenc x) 0#128) =
      aesenclast x 0#128 := by
  induction ks generalizing x with
  | nil => rfl
  | cons k ks ih =>
    simp only [List.reverse_cons, List.map_append, List.map_cons, List.map_nil, List.foldl_append,
      List.foldl_cons, List.foldl_nil, ih, aesdec_aesenclast_aesenc]

open Sys2Proof.Claims

theorem decryptLane_encryptLane (k0 kN : Block) (ks : List Block) (v : Block) :
    decryptLane kN (ks.reverse.map invMixColumns) k0 (encryptLane k0 ks kN v) = v := by
  rw [decryptLane, encryptLane, addRoundKey_aesenclast, foldl_aesdec_foldl_aesenc,
    aesdeclast_aesenclast_zero, Machine.addRoundKey_addRoundKey]

theorem invMixColumns_zero : invMixColumns 0#128 = 0#128 := by decide

/-- Middle keys of 0 are their own InvMixColumns; so with 1 as the only other key the unmodified sequence goes
wrong in the last of its middle rounds, whatever their number. -/
theorem decryptLane_unmodified (n : Nat) :
    decryptLane 0#128 (1#128 :: List.replicate n 0#128).reverse 0#128
      (encryptLane 0#128 (1#128 :: List.replicate n 0#128) 0#128 0#128) =
    aesdeclast (aesdec (aesenclast (aesenc 0#128 1#128) 0#128) 1#128) 0#128 := by
  have hzeros : (List.replicate n 0#128).reverse =
      (List.replicate n 0#128).reverse.map invMixColumns := by
    simp [invMixColumns_zero]
  have hxor : addRoundKey 0#128 0#128 = 0#128 := by decide
  rw [decryptLane, encryptLane, addRoundKey_aesenclast, hxor, List.reverse_cons, List.foldl_append, hzeros]
  simp only [List.foldl_cons, List.foldl_nil, foldl_aesdec_foldl_aesenc]

/-- Settles O33: InvMixColumns of a middle key undoes its round; with the keys 1, 0, .., 0 left as they are, a
lane of zeros does not come back. -/
theorem decryptionSequenceInvertsEncryption : Obligations.DecryptionSequenceInvertsEncryption := by
  refine ⟨decryptLane_encryptLane, fun n hn => ?_⟩
  have hpos : n - 1 + 1 = n := by
    simp only [List.mem_cons, List.not_mem_nil, or_false] at hn
    omega
  refine ⟨0#128, 0#128, 1#128 :: List.replicate (n - 1) 0#128, 0#128, by simpa using hpos, ?_⟩
  rw [decryptLane_unmodified]
  decide +kernel

theorem Lanes.map_all {α β : Type} (f : α → β) (a : α) : (Lanes.all a).map f = Lanes.all (f a) := rfl

theorem Claims.InFlight.turn {sn : Machine.Snapshot} {s : Machine.State} (h : InFlight sn s) :
    s.turn = .engine := h.1
theorem Claims.InFlight.busy {sn : Machine.Snapshot} {s : Machine.State} (h : InFlight sn s) :
    s.busy = true := h.2.1
theorem Claims.InFlight.snapshot {sn : Machine.Snapshot} {s : Machine.State} (h : InFlight sn s) :
    s.snapshot = some sn := h.2.2

namespace Machine

/-! LOAD8 and STORE8 in flight (40_marshalling.md R76, R78) -/

theorem withAddrs_inRange {sn : Snapshot} {s : State} {ea : Lanes Nat} (hea : sn.ea = some ea)
    (hr : InRange s.params.memBytes ea) (k : Lanes Nat → Host.Outcome State Fault Refusal) :
    withAddrs sn s k = k ea := by
  simp [withAddrs, hea, usableAddrs_some hr]

theorem exec_load8_inFlight {sn : Snapshot} {s : State} {ea : Lanes Nat} (h : InFlight sn s)
    (hop : sn.op = .load8) (hea : sn.ea = some ea) (hr : InRange s.params.memBytes ea) (m : AddrMode) :
    exec (.load8 m) s = .next (completed { s with lanes := loadedLanes ea s, lv := true }) := by
  rw [exec, execLoad8, onTurn_engine h.turn, completeLoad8, whenInFlight_of h.busy h.snapshot hop,
    withAddrs_inRange hea hr]
  rfl

theorem exec_store8_inFlight {sn : Snapshot} {s : State} {ea : Lanes Nat} (h : InFlight sn s)
    (hop : sn.op = .store8) (hea : sn.ea = some ea) (hr : InRange s.params.memBytes ea) (m : AddrMode) :
    exec (.store8 m) s = .next (completed { s with sram := storedSram ea s }) := by
  rw [exec, execStore8, onTurn_engine h.turn, completeStore8, whenInFlight_of h.busy h.snapshot hop,
    withAddrs_inRange hea hr]
  rfl

/-- Settles O17: the lanes are `loadedLanes`, read byte by byte. -/
theorem load8CompletionLoadsEveryLane : Obligations.Load8CompletionLoadsEveryLane := by
  intro s m sn ea hfly hop hea hr
  exact ⟨_, exec_load8_inFlight hfly hop hea hr m, fun i j hj => byte_loadedLanes ea s i hj⟩

/-- Outside the blocks lies no transfer byte. -/
theorem ne_transferAddr {ea : Lanes Nat} {a : Nat} (h : ∀ i, a < ea.get i ∨ ea.get i + 16 ≤ a) {k : Nat}
    (hk : k < 128) : a ≠ transferAddr ea k := by
  obtain ⟨i, j, hj, rfl⟩ := transfer_byte_block hk
  rw [transferAddr_block ea i hj]
  have := h i
  omega

/-- An address lies in a block or outside all of them. -/
theorem block_or_outside (ea : Lanes Nat) (a : Nat) :
    (∃ i j, j < 16 ∧ a = ea.get i + j) ∨ ∀ i, a < ea.get i ∨ ea.get i + 16 ≤ a := by
  by_cases h : ∃ i, ea.get i ≤ a ∧ a < ea.get i + 16
  · obtain ⟨i, hlow, hhigh⟩ := h
    exact .inl ⟨i, a - ea.get i, by omega, by omega⟩
  · refine .inr fun i => ?_
    have := not_exists.1 h i
    omega

/-- The destination bytes a completing STORE8 leaves (20_memory.md R54). -/
theorem read_storedSram_block {ea : Lanes Nat} (hd : Disjoint ea) (s : State) (i : Fin 8) {j : Nat}
    (hj : j < 16) : (storedSram ea s).read (ea.get i + j) =
      if (cellAt s.window.moved (16 * i.val + j)).isSome then s.sram.read (ea.get i + j)
      else Block.byte (s.lanes.get i) j := by
  obtain ⟨hbytes, -, -⟩ := read_storedSram ea s
  have hk : 16 * i.val + j < 128 := by omega
  rw [← transferAddr_block ea i hj, hbytes hd _ hk, laneByte_block _ i hj]
  cases cellAt s.window.moved (16 * i.val + j) <;> rfl

theorem read_storedSram_outside {ea : Lanes Nat} (s : State) {a : Nat}
    (h : ∀ i, a < ea.get i ∨ ea.get i + 16 ≤ a) : (storedSram ea s).read a = s.sram.read a := by
  obtain ⟨-, hframe, -⟩ := read_storedSram ea s
  rcases hframe a with hsame | ⟨k, hk, ha, -⟩
  · exact hsame
  · exact absurd ha (ne_transferAddr h hk)

/-- Settles O18: the SRAM is `storedSram`, read inside the blocks and outside. -/
theorem store8CompletionWritesEveryBlock : Obligations.Store8CompletionWritesEveryBlock := by
  intro s m sn ea hfly hop hea hr hd
  exact ⟨_, exec_store8_inFlight hfly hop hea hr m, fun i j hj => read_storedSram_block hd s i hj,
    fun a ha => read_storedSram_outside s ha⟩

/-! LOAD8, then STORE8 to the same blocks (40_marshalling.md R79) -/

theorem usableAddrs_eq_some {n : Nat} {o : Option (Lanes Nat)} {ea : Lanes Nat}
    (h : usableAddrs n o = some ea) : o = some ea := by
  unfold usableAddrs at h
  split at h
  · cases h
  · split at h
    · exact h
    · cases h

/-- A LOAD8 that answers a next state has left the bytes of its blocks in the lanes. -/
theorem lanes_exec_load8 {sn : Snapshot} {s t : State} {ea : Lanes Nat} {m : AddrMode} (h : InFlight sn s)
    (hop : sn.op = .load8) (hea : sn.ea = some ea) (ht : exec (.load8 m) s = .next t) :
    t.lanes = loadedLanes ea s := by
  rw [exec, execLoad8, onTurn_engine h.turn, completeLoad8, whenInFlight_of h.busy h.snapshot hop] at ht
  obtain ⟨ea', hea', hnext⟩ := withAddrs_next ht
  cases (usableAddrs_eq_some hea').symm.trans hea
  cases hnext
  rfl

/-- While the bytes moved agree with the SRAM, it does not matter which source bytes were read early. -/
theorem byte_loadedLanes_of_agrees {sn : Snapshot} {s : State} {ea : Lanes Nat} (hagree : TransferAgrees s)
    (hsn : s.snapshot = some sn) (hea : sn.ea = some ea) (i : Fin 8) {j : Nat} (hj : j < 16) :
    Block.byte ((loadedLanes ea s).get i) j = s.sram.read (ea.get i + j) := by
  rw [byte_loadedLanes ea s i hj]
  cases hcell : cellAt s.window.moved (16 * i.val + j) with
  | none => rfl
  | some v =>
    have hv := hagree sn ea hsn hea _ (cellAt_mem hcell)
    rw [transferAddr_block ea i hj] at hv
    exact hv.symm

/-- Settles O25: each byte that STORE8 writes is the byte LOAD8 read at that address. -/
theorem loadThenStoreLeavesTheSram : Obligations.LoadThenStoreLeavesTheSram := by
  intro s t s' sn sn' ea m m' hfly hop hea hagree hload hfly' hop' hea' hd hr hlanes hsame
  refine ⟨_, exec_store8_inFlight hfly' hop' hea' hr m', fun a => ?_⟩
  change (storedSram ea s').read a = s'.sram.read a
  rcases block_or_outside ea a with ⟨i, j, hj, rfl⟩ | hout
  · have hbyte : Block.byte (s'.lanes.get i) j = s'.sram.read (ea.get i + j) := by
      rw [hlanes, lanes_exec_load8 hfly hop hea hload, hsame i j hj]
      exact byte_loadedLanes_of_agrees hagree hfly.snapshot hea i hj
    rw [read_storedSram_block hd s' i hj, hbyte, ite_self]
  · exact read_storedSram_outside s' hout

/-! XOR8 and the rounds, lane by lane (42_aes_rounds.md R98) -/

theorem map_swapLanes (f : Block → Block) (i j : Fin 8) (l : Lanes Block) :
    (swapLanes i j l).map f = swapLanes i j (l.map f) := by
  refine Lanes.eq_of_get fun k => ?_
  simp only [swapLanes, Lanes.get_map, Lanes.get_ofFn]
  split
  · rfl
  · split <;> rfl

/-- Settles O26: the completion maps one function over the lanes. -/
theorem lanesAreIndependent : Obligations.LanesAreIndependent := by
  intro s sn c hc hfly hop
  obtain ⟨w, f, -, -, -, hcompletes⟩ := exists_keyedCommand hc
  refine ⟨_, hcompletes s sn hfly hop, fun v hv => ⟨f v sn.key, by rw [hv, Lanes.map_all]⟩, fun i j => ?_⟩
  have hswapped : InFlight sn { s with lanes := swapLanes i j s.lanes } := hfly
  rw [hcompletes _ sn hswapped hop, map_swapLanes]

end Machine
end Sys2Proof
end

section
/-! PROOFS of family other, the invariant: it holds after reset (O34), and from each of its states a step goes
on and keeps it (O35). Each update of the state keeps it, and so does each turn made of them. -/

namespace Sys2Proof

theorem Params.wellFormed_iff {p : Params} : p.wellFormed = true ↔
    ((16 ≤ p.memBytes ∧ p.memBytes ≤ 2 ^ 32) ∧ p.csrBase % 256 = 0) ∧
      1 ≤ p.latMin ∧ p.latMin ≤ p.latMax := by
  simp only [Params.wellFormed, Bool.and_eq_true, decide_eq_true_eq, beq_iff_eq]

theorem Config.params_wellFormed : Config.params.wellFormed = true := by
  rw [Params.wellFormed_iff]
  simp only [Config.params]
  omega

theorem Params.latMax_pos {p : Params} (h : p.wellFormed = true) : 0 < p.latMax := by
  rw [Params.wellFormed_iff] at h
  omega

/-- Of the operations that move bytes there are two. -/
theorem Opcode.movesBytes_iff {op : Opcode} : op.movesBytes = true ↔ op = .load8 ∨ op = .store8 := by
  simp [Opcode.movesBytes]

theorem Opcode.opcode_instr (op : Opcode) : op.instr.opcode = op := by cases op <;> rfl

namespace Machine

open Sys2Proof.Claims

/-! Reset (70_reset_and_hazards.md R119) -/

theorem inv_resetWith {p : Params} (h : p.wellFormed = true) : Inv (State.resetWith p) where
  params := h
  busy := rfl
  noError := fun _ => ⟨rfl, rfl, rfl⟩
  error := nofun
  lanesLoaded := nofun
  addrs := nofun
  sramWf := rfl
  sramRange := nofun
  windowClosed := fun _ => rfl
  age := p.latMax_pos h
  movedRising := rfl
  movedRange := nofun
  movedNone := nofun
  movedLanes := nofun
  doneNow := nofun

/-- Settles O34: the parameters of `State.reset` are any that the rules allow. -/
theorem resetMeetsTheInvariant : Obligations.ResetMeetsTheInvariant :=
  ⟨inv_resetWith Config.params_wellFormed, fun _ => inv_resetWith⟩

/-! The updates of the state keep the invariant -/

theorem Inv.resetRegisters {s : State} (h : Inv s) : Inv (resetRegisters s) :=
  { inv_resetWith h.params with
    sramWf := h.sramWf
    sramRange := h.sramRange
    doneNow := nofun }

theorem Inv.answer {s : State} (h : Inv s) (r : Option Response) : Inv { s with resp := r } := { h with }

theorem Inv.endEngineTurn {s : State} (h : Inv s) : Inv (endEngineTurn s) :=
  { h with doneNow := fun hnow => ⟨(h.doneNow hnow).1, rfl⟩ }

theorem Inv.endCycle {s : State} (h : Inv s) : Inv (endCycle s) := { h with doneNow := nofun }

theorem Inv.raiseError {s : State} (h : Inv s) {code : ErrCode} (hcode : code ≠ .none) (lane : BitVec 3)
    (addr : Nat) : Inv (raiseError code lane addr s) :=
  { h with noError := nofun, error := fun _ => hcode }

theorem Inv.acceptCmd {s : State} (h : Inv s) {op : Opcode} {ea : Option (Lanes Nat)}
    (hlv : op ≠ .load8 → s.lv = true)
    (hea : Snapshot.addrsLegal s.params.memBytes ⟨op, s.key.block, ea⟩ = true) : Inv (acceptCmd op ea s) :=
  { h with
    busy := rfl
    lanesLoaded := by rintro _ ⟨⟩; exact hlv
    addrs := by rintro _ ⟨⟩; exact hea
    windowClosed := nofun
    age := Params.latMax_pos h.params
    movedRising := rfl
    movedRange := nofun
    movedNone := fun _ _ _ => rfl
    movedLanes := nofun }

/-- A CMD write keeps the invariant. -/
theorem Inv.issued {op : Opcode} {s t : State} (h : Inv s) (hi : Issued op s t) : Inv t := by
  cases hi with
  | discarded _ => exact h
  | rejected _ _ _ _ hcode => exact h.raiseError hcode _ _
  | accepted _ _ _ hlv hea => exact h.acceptCmd hlv hea

theorem Inv.clearDone {s : State} (h : Inv s) : Inv (clearDone s) := by
  unfold Machine.clearDone
  split
  · exact h
  · rename_i hnow
    exact { h with doneNow := fun hnow' => absurd hnow' hnow }

theorem Inv.clearError {s : State} (h : Inv s) : Inv (clearError s) :=
  { h with noError := fun _ => ⟨rfl, rfl, rfl⟩, error := nofun }

theorem Inv.writeStatus {s : State} (h : Inv s) (w : Word) : Inv (writeStatus w s) := by
  have hdone : Inv (if w.getLsbD 1 then Machine.clearDone s else s) := by
    split
    · exact h.clearDone
    · exact h
  unfold Machine.writeStatus
  dsimp only
  split
  · exact hdone.clearError
  · exact hdone

theorem Inv.writeCsr {s : State} (h : Inv s) (off : BitVec 8) (w : Word) : Inv (writeCsr off w s) := by
  unfold Machine.writeCsr
  split
  · rename_i r _
    cases r with
    | status => exact h.writeStatus w
    | id | cmd | errAddr => exact h
    | ctrl | key _ | addr _ => exact { h with }
  · exact h

theorem Inv.memWrite {s : State} (h : Inv s) {a n : Nat} (hok : memAccessOk s.params.memBytes a n = true)
    (d : Nat) : Inv { s with sram := s.sram.writeLE a n d } :=
  { h with
    sramWf := Memory.wf_writeLE a n d h.sramWf
    sramRange := fun c hc => by
      have hend : a + n ≤ s.params.memBytes := by
        simp only [memAccessOk, Bool.and_eq_true, decide_eq_true_eq] at hok
        exact hok.2
      rcases Memory.mem_writeLE n _ _ _ _ hc with hold | hnew
      · exact h.sramRange c hold
      · exact hnew.2.trans_le hend }

/-- The host's access keeps the invariant. -/
theorem Inv.served {s u : State} {c : Cycle} (h : Inv s) (hu : Served s c u) : Inv u := by
  cases hu with
  | none _ => exact h.answer none
  | read _ _ r _ _ => exact h.answer (some r)
  | ignored _ _ _ _ r _ => exact h.answer (some r)
  | command _ _ _ _ _ _ hi => exact (h.issued hi).answer (some _)
  | csrWrite off w _ _ _ _ => exact (h.writeCsr off w).answer (some _)
  | memWrite a n d _ hok => exact (h.memWrite hok d.toNat).answer (some _)

/-! The addresses of the command in flight (60_exceptions.md R102) -/

/-- A LOAD8 or STORE8 in flight has its eight addresses inside the SRAM, a STORE8 disjoint ones. -/
theorem Inv.transferAddrs {s : State} {sn : Snapshot} (h : Inv s) (hsn : s.snapshot = some sn)
    (hop : sn.op.movesBytes = true) : ∃ ea, sn.ea = some ea ∧ InRange s.params.memBytes ea ∧
      (sn.op = .store8 → Disjoint ea) := by
  have haddrs := h.addrs sn hsn
  obtain ⟨op, key, o⟩ := sn
  cases op with
  | load8 =>
    cases o with
    | none => cases haddrs
    | some ea =>
      simp only [Snapshot.addrsLegal, Option.isNone_iff_eq_none] at haddrs
      exact ⟨ea, rfl, firstOutside_none.1 haddrs, nofun⟩
  | store8 =>
    cases o with
    | none => cases haddrs
    | some ea =>
      simp only [Snapshot.addrsLegal, Bool.and_eq_true, Option.isNone_iff_eq_none] at haddrs
      exact ⟨ea, rfl, firstOutside_none.1 haddrs.1, fun _ => firstOverlap_none_iff_disjoint.1 haddrs.2⟩
  | xor8 | aesenc8 | aesenclast8 | aesdec8 | aesdeclast8 => cases hop

theorem transferAddr_lt {n : Nat} {ea : Lanes Nat} (h : InRange n ea) {k : Nat} (hk : k < 128) :
    transferAddr ea k < n := by
  obtain ⟨i, j, hj, rfl⟩ := transfer_byte_block hk
  have := h i
  rw [transferAddr_block ea i hj]
  omega

/-! The bytes the engine moves (20_memory.md R53, R54) -/

theorem Inv.loadBytes {s : State} {sn : Snapshot} (h : Inv s) (hsn : s.snapshot = some sn)
    (hop : sn.op = .load8) (ea : Lanes Nat) (ks : List Nat) : Inv (ks.foldl (loadByte ea) s) := by
  obtain ⟨m, hm, -, hrising, hrange⟩ := foldl_loadByte_moved ea ks s
  rw [hm]
  have hclosed : s.snapshot ≠ none := by simp [hsn]
  have hthis (sn' : Snapshot) (hsn' : s.snapshot = some sn') : sn'.op = .load8 := by
    cases hsn.symm.trans hsn'
    exact hop
  exact { h with
    windowClosed := fun hnone => absurd hnone hclosed
    movedRising := hrising h.movedRising
    movedRange := fun c hc => (hrange c hc).elim (h.movedRange c) id
    movedNone := fun sn' hsn' hkeyed => by
      rw [hthis sn' hsn'] at hkeyed
      cases hkeyed
    movedLanes := fun sn' hsn' hstore => by
      rw [hthis sn' hsn'] at hstore
      cases hstore }

theorem Inv.storeBytes {s : State} {sn : Snapshot} (h : Inv s) (hsn : s.snapshot = some sn)
    (hop : sn.op = .store8) {ea : Lanes Nat} (hr : InRange s.params.memBytes ea) (ks : List Nat) :
    Inv (ks.foldl (storeByte ea) s) := by
  obtain ⟨m, r, hm, -, hrising, hmoved, -, -, hsram, hwf⟩ := foldl_storeByte_moved ea ks s
  rw [hm]
  have hclosed : s.snapshot ≠ none := by simp [hsn]
  have hthis (sn' : Snapshot) (hsn' : s.snapshot = some sn') : sn'.op = .store8 := by
    cases hsn.symm.trans hsn'
    exact hop
  exact { h with
    sramWf := hwf h.sramWf
    sramRange := fun c hc => by
      rcases hsram c hc with hold | ⟨k, hk, ha⟩
      · exact h.sramRange c hold
      · exact ha ▸ transferAddr_lt hr hk
    windowClosed := fun hnone => absurd hnone hclosed
    movedRising := hrising h.movedRising
    movedRange := fun c hc => (hmoved c hc).elim (h.movedRange c) And.left
    movedNone := fun sn' hsn' hkeyed => by
      rw [hthis sn' hsn'] at hkeyed
      cases hkeyed
    movedLanes := fun sn' hsn' hstore c hc =>
      (hmoved c hc).elim (h.movedLanes sn' hsn' hstore c) And.right }

/-- The engine's moves always go on and keep the invariant. -/
theorem Inv.moveBytes {s : State} (h : Inv s) (ks : List Nat) : ∃ t, moveBytes ks s = .next t ∧ Inv t := by
  cases hsn : s.snapshot with
  | none => exact ⟨s, moveBytes_of_none hsn, h⟩
  | some sn =>
    cases hmoves : sn.op.movesBytes with
    | false => exact ⟨s, moveBytes_of_keyed hsn hmoves, h⟩
    | true =>
      obtain ⟨ea, hea, hr, -⟩ := h.transferAddrs hsn hmoves
      rcases Opcode.movesBytes_iff.1 hmoves with hop | hop
      · exact ⟨_, moveBytes_of_load hsn hop hea hr, h.loadBytes hsn hop ea ks⟩
      · exact ⟨_, moveBytes_of_store hsn hop hea hr, h.storeBytes hsn hop hr ks⟩

/-! Completion (10_state.md R37) -/

theorem transformsLanes_iff {i : Instr} : transformsLanes i ↔ i.opcode.movesBytes = false := by
  cases i <;> simp [transformsLanes, Instr.opcode, Opcode.movesBytes]

/-- The end of the engine's turn that completes a command, which may have set the lanes, LV and the SRAM. -/
theorem Inv.finishCmd {s : State} (h : Inv s) (l : Lanes Block) (v : Bool) {r : Memory} (hwf : r.wf = true)
    (hrange : ∀ c ∈ r, c.1 < s.params.memBytes) :
    Inv (Machine.endEngineTurn (finishCmd { s with lanes := l, lv := v, sram := r })) :=
  { h with
    busy := rfl
    lanesLoaded := nofun
    addrs := nofun
    sramWf := hwf
    sramRange := hrange
    windowClosed := fun _ => rfl
    age := Params.latMax_pos h.params
    movedRising := rfl
    movedRange := nofun
    movedNone := nofun
    movedLanes := nofun
    doneNow := fun _ => ⟨rfl, rfl⟩ }

/-- A command in flight, however it is written, always completes, and the turn that completes it keeps the
invariant. -/
theorem Inv.exec {s : State} {sn : Snapshot} {i : Instr} (h : Inv s) (hfly : InFlight sn s)
    (hop : sn.op = i.opcode) : ∃ l v r,
      exec i s = .next (Machine.finishCmd { s with lanes := l, lv := v, sram := r }) ∧
      Inv (Machine.endEngineTurn (Machine.finishCmd { s with lanes := l, lv := v, sram := r })) := by
  cases hmoves : i.opcode.movesBytes with
  | false =>
    obtain ⟨w, f, -, -, -, hcompletes⟩ := exists_keyedCommand (transformsLanes_iff.2 hmoves)
    exact ⟨_, _, _, hcompletes s sn hfly hop, h.finishCmd _ _ h.sramWf h.sramRange⟩
  | true =>
    obtain ⟨ea, hea, hr, -⟩ := h.transferAddrs hfly.snapshot (hop ▸ hmoves)
    cases i with
    | load8 m =>
      exact ⟨_, _, _, exec_load8_inFlight hfly hop hea hr m, h.finishCmd _ _ h.sramWf h.sramRange⟩
    | store8 m =>
      refine ⟨_, _, _, exec_store8_inFlight hfly hop hea hr m,
        h.finishCmd _ _ (wf_storedSram h.sramWf) fun c hc => ?_⟩
      obtain ⟨-, -, hcells⟩ := read_storedSram ea s
      rcases hcells c hc with hold | ⟨k, hk, ha⟩
      · exact h.sramRange c hold
      · exact ha ▸ transferAddr_lt hr hk
    | _ => cases hmoves

/-! The two turns -/

/-- Whether a completion is due depends on the cycle's choice, the parameters and the age alone. -/
theorem completionDue_eq {s t : State} (c : Cycle) (hp : t.params = s.params)
    (ha : t.window.age = s.window.age) : completionDue c t = completionDue c s := by
  rw [completionDue, completionDue, hp, ha]

theorem Inv.growOlder {s : State} {c : Cycle} (h : Inv s) (hbusy : s.busy = true)
    (hdue : completionDue c s = false) : Inv (growOlder s) :=
  { h with
    windowClosed := fun hnone => by
      have hsn : s.snapshot.isSome = true := h.busy ▸ hbusy
      simp [show s.snapshot = none from hnone] at hsn
    age := by
      simp only [completionDue, Bool.or_eq_false_iff, decide_eq_false_iff_not, not_le] at hdue
      exact hdue.1 }

/-- BUSY = 1 comes with a snapshot. -/
theorem Inv.exists_snapshot {s : State} (h : Inv s) (hbusy : s.busy = true) :
    ∃ sn, s.snapshot = some sn :=
  Option.isSome_iff_exists.1 (h.busy ▸ hbusy)

theorem step_engine_busy {s : State} {sn : Snapshot} (hturn : s.turn = .engine) (hrst : s.cycle.rst = false)
    (hsn : s.snapshot = some sn) (hbusy : s.busy = true) : step s = runEngine sn s.cycle s := by
  simp [step_engine hturn, engineTurn, hrst, hsn, hbusy]

/-- The engine's turn of a cycle without reset, a command in flight: it moves its early bytes, and then the
command completes if that is due and is one cycle older if not. -/
theorem Inv.step_inFlight {s : State} (h : Inv s) (hturn : s.turn = .engine) (hbusy : s.busy = true)
    (hrst : s.cycle.rst = false) : ∃ u, Machine.moveBytes s.cycle.movesBefore s = .next u ∧ Inv u ∧
      if completionDue s.cycle s then
        ∃ l v r, step s =
            .next (Machine.endEngineTurn (Machine.finishCmd { u with lanes := l, lv := v, sram := r })) ∧
          Inv (Machine.endEngineTurn (Machine.finishCmd { u with lanes := l, lv := v, sram := r }))
      else step s = .next (Machine.endEngineTurn (Machine.growOlder u)) ∧
        Inv (Machine.endEngineTurn (Machine.growOlder u)) := by
  obtain ⟨sn, hsn⟩ := h.exists_snapshot hbusy
  obtain ⟨u, hu, hinv⟩ := h.moveBytes s.cycle.movesBefore
  obtain ⟨m, r, hframe⟩ := moveBytes_frame hu
  have hdue : completionDue s.cycle u = completionDue s.cycle s :=
    completionDue_eq _ (by rw [hframe]) (by rw [hframe])
  have hfly : InFlight sn u := by
    rw [hframe]
    exact ⟨hturn, hbusy, hsn⟩
  have hstep : step s = if completionDue s.cycle s then
      andThen (Machine.exec sn.op.instr u) fun v => .next (Machine.endEngineTurn v)
      else .next (Machine.endEngineTurn (Machine.growOlder u)) := by
    rw [step_engine_busy hturn hrst hsn hbusy, runEngine, hu, andThen_next, hdue]
  refine ⟨u, hu, hinv, ?_⟩
  split
  · rename_i hd
    obtain ⟨l, v, r', hexec, hinv'⟩ := hinv.exec hfly (Opcode.opcode_instr _).symm
    exact ⟨l, v, r', by rw [hstep, if_pos hd, hexec, andThen_next], hinv'⟩
  · rename_i hd
    have hd' : completionDue s.cycle u = false := by simpa [hdue] using hd
    exact ⟨by rw [hstep, if_neg hd], (hinv.growOlder hfly.busy hd').endEngineTurn⟩

theorem step_engine_idle {s : State} (hturn : s.turn = .engine) (hrst : s.cycle.rst = false)
    (hsn : s.snapshot = none) : step s = .next (endEngineTurn s) := by
  simp [step_engine hturn, engineTurn, hrst, hsn]

theorem Inv.engineTurn {s : State} (h : Inv s) (hturn : s.turn = .engine) :
    ∃ t, step s = .next t ∧ Inv t := by
  cases hrst : s.cycle.rst with
  | true => exact ⟨_, step_engine_rst hturn hrst, h.resetRegisters.endEngineTurn⟩
  | false =>
    cases hbusy : s.busy with
    | false =>
      have hsn : s.snapshot = none := by simpa [h.busy] using hbusy
      exact ⟨_, step_engine_idle hturn hrst hsn, h.endEngineTurn⟩
    | true =>
      obtain ⟨u, -, -, hnext⟩ := h.step_inFlight hturn hbusy hrst
      split at hnext
      · obtain ⟨l, v, r, hstep, hinv⟩ := hnext
        exact ⟨_, hstep, hinv⟩
      · exact ⟨_, hnext⟩

theorem Inv.hostTurn {s : State} (h : Inv s) (hturn : s.turn = .host) : ∃ t, step s = .next t ∧ Inv t := by
  obtain ⟨u, hu, hserved⟩ := serveAccess_cases s.cycle hturn
  obtain ⟨v, hv, hinv⟩ := (h.served hserved).moveBytes s.cycle.movesAfter
  exact ⟨Machine.endCycle v, by simp [step_host hturn, Machine.hostTurn, hu, endHostTurn, hv], hinv.endCycle⟩

/-- Settles O35: whoever's turn it is, every update that the turn is made of goes on and keeps the invariant. -/
theorem everyStepGoesOnAndKeepsTheInvariant : Obligations.EveryStepGoesOnAndKeepsTheInvariant := by
  intro s h
  cases hturn : s.turn with
  | engine => exact h.engineTurn hturn
  | host => exact h.hostTurn hturn

end Machine
end Sys2Proof
end

section
/-! PROOFS of family other, what a step may depend on: control on no data (O44), nothing on a lane that is not
loaded (O45). Two runs are compared turn by turn: whatever goes on in the first goes on in the second, to a
state that is the same but for data, or but for the lanes. -/

namespace Sys2Proof.Machine

open Sys2Proof.Claims

/-! What the host's access leaves -/

/-- What no host access changes. -/
structure HostKeeps (s u : State) : Prop where
  params : u.params = s.params
  lanes : u.lanes = s.lanes
  lv : u.lv = s.lv
  doneNow : u.doneNow = s.doneNow
  turn : u.turn = s.turn
  inputs : u.inputs = s.inputs

theorem HostKeeps.writeCsr (off : BitVec 8) (w : Word) (s : State) : HostKeeps s (writeCsr off w s) where
  params := (congrArg State.params (writeCsr_frame off w s) :)
  lanes := (congrArg State.lanes (writeCsr_frame off w s) :)
  lv := (congrArg State.lv (writeCsr_frame off w s) :)
  doneNow := (congrArg State.doneNow (writeCsr_frame off w s) :)
  turn := (congrArg State.turn (writeCsr_frame off w s) :)
  inputs := (congrArg State.inputs (writeCsr_frame off w s) :)

theorem Issued.keeps {op : Opcode} {s t : State} (h : Issued op s t) : HostKeeps s t := by
  cases h <;> exact ⟨rfl, rfl, rfl, rfl, rfl, rfl⟩

theorem HostKeeps.respond {s u : State} (h : HostKeeps s u) (r : Response) : HostKeeps s (respond r u) :=
  { h with }

theorem Served.keeps {s u : State} {c : Cycle} (h : Served s c u) : HostKeeps s u := by
  cases h with
  | none _ | read _ _ _ _ _ | ignored _ _ _ _ _ _ | memWrite _ _ _ _ _ => exact ⟨rfl, rfl, rfl, rfl, rfl, rfl⟩
  | command _ _ _ _ _ _ hi => exact hi.keeps.respond _
  | csrWrite off w _ _ _ _ => exact (HostKeeps.writeCsr off w s).respond _

/-! Outcomes of two runs, compared -/

/-- Where the first outcome is a next state, so is the second, and the two states are related by `R`. -/
def Follows (R : State → State → Prop) (o o' : Host.Outcome State Fault Refusal) : Prop :=
  ∀ t, o = .next t → ∃ t', o' = .next t' ∧ R t t'

theorem Follows.next {R : State → State → Prop} {t t' : State} (h : R t t') :
    Follows R (.next t) (.next t') := by
  rintro _ ⟨⟩
  exact ⟨t', rfl, h⟩

theorem Follows.refl {R : State → State → Prop} (hR : ∀ t, R t t) (o : Host.Outcome State Fault Refusal) :
    Follows R o o := fun t ht => ⟨t, ht, hR t⟩

theorem Follows.andThen {R R' : State → State → Prop} {o o' : Host.Outcome State Fault Refusal}
    {k k' : State → Host.Outcome State Fault Refusal} (ho : Follows R o o')
    (hk : ∀ t t', o = .next t → R t t' → Follows R' (k t) (k' t')) :
    Follows R' (andThen o k) (andThen o' k') := by
  intro u hu
  obtain ⟨t, ht, hu⟩ := andThen_eq_next.1 hu
  obtain ⟨t', rfl, hR⟩ := ho t ht
  exact hk t t' ht hR u hu

/-! The checks of a CMD write look at no data, and at no lane (60_exceptions.md R102) -/

/-- A change of the state that leaves alone what the checks of a CMD write look at, and commutes with what they
do. -/
structure KeepsChecks (g : State → State) : Prop where
  err : ∀ s, (g s).err = s.err
  busy : ∀ s, (g s).busy = s.busy
  lv : ∀ s, (g s).lv = s.lv
  params : ∀ s, (g s).params = s.params
  addr : ∀ s, (g s).addr = s.addr
  raiseError : ∀ c l a s, g (raiseError c l a s) = raiseError c l a (g s)
  acceptCmd : ∀ op ea s, g (acceptCmd op ea s) = acceptCmd op ea (g s)

section
variable {g : State → State} {k : State → State}

theorem KeepsChecks.cmdGate (hg : KeepsChecks g) {s : State} (hk : g (k s) = k (g s)) :
    g (cmdGate k s) = cmdGate k (g s) := by
  simp only [Machine.cmdGate, hg.err, hg.busy]
  split
  · rfl
  · split
    · exact hg.raiseError _ _ _ _
    · exact hk

theorem KeepsChecks.lanesGate (hg : KeepsChecks g) {s : State} (hk : g (k s) = k (g s)) :
    g (lanesGate k s) = lanesGate k (g s) := by
  simp only [Machine.lanesGate, hg.lv]
  split
  · exact hk
  · exact hg.raiseError _ _ _ _

theorem KeepsChecks.rangeGate (hg : KeepsChecks g) {s : State} (hk : g (k s) = k (g s)) (ea : Lanes Nat) :
    g (rangeGate ea k s) = rangeGate ea k (g s) := by
  simp only [Machine.rangeGate, hg.params]
  cases firstOutside s.params.memBytes ea with
  | some i => exact hg.raiseError _ _ _ _
  | none => exact hk

theorem KeepsChecks.overlapGate (hg : KeepsChecks g) {s : State} (hk : g (k s) = k (g s)) (m : AddrMode)
    (ea : Lanes Nat) : g (overlapGate m ea k s) = overlapGate m ea k (g s) := by
  simp only [Machine.overlapGate]
  cases overlapOf m ea with
  | some j => exact hg.raiseError _ _ _ _
  | none => exact hk

theorem KeepsChecks.checksPastGate (hg : KeepsChecks g) (i : Instr) (s : State) :
    g (checksPastGate i s) = checksPastGate i (g s) := by
  have hea (m : AddrMode) : effectiveAddrs m (g s) = effectiveAddrs m s := by
    cases m <;> simp only [effectiveAddrs, hg.addr]
  cases i with
  | load8 m =>
    simp only [Machine.checksPastGate, hea]
    exact hg.rangeGate (hg.acceptCmd _ _ _) _
  | store8 m =>
    simp only [Machine.checksPastGate, hea]
    exact hg.lanesGate (hg.rangeGate (hg.overlapGate (hg.acceptCmd _ _ _) _ _) _)
  | _ => exact hg.lanesGate (hg.acceptCmd _ _ _)

/-- The issue of what a word decodes to commutes with such a change. -/
theorem KeepsChecks.issue (hg : KeepsChecks g) (d : Except DecodeError Instr) (s : State) :
    g (Machine.cmdGate (checksOf d) s) = Machine.cmdGate (checksOf d) (g s) := by
  refine hg.cmdGate ?_
  cases d with
  | ok i => exact hg.checksPastGate i s
  | error _ => exact hg.raiseError _ _ _ _

end

/-! Control without data (42_aes_rounds.md §2, 70_reset_and_hazards.md R128) -/

/-- The two states differ at most in data. -/
def SameControl (s s' : State) : Prop := withoutData s' = withoutData s

theorem keepsChecks_withoutData : KeepsChecks withoutData where
  err _ := rfl
  busy _ := rfl
  lv _ := rfl
  params _ := rfl
  addr _ := rfl
  raiseError _ _ _ _ := rfl
  acceptCmd op ea s := by
    have hkey : 0#128 = (withoutData s).key.block :=
      show 0#128 = KeyRegs.block ⟨0#32, 0#32, 0#32, 0#32⟩ by decide
    exact congrArg (fun k => { withoutData s with
      busy := true, snapshot := some ⟨op, k, ea⟩, window := Window.empty }) hkey

section
variable {s s' : State}

theorem SameControl.symm (h : SameControl s s') : SameControl s' s := Eq.symm h

theorem SameControl.params (h : SameControl s s') : s'.params = s.params := (congrArg State.params h :)
theorem SameControl.memBytes (h : SameControl s s') : s'.params.memBytes = s.params.memBytes :=
  congrArg Params.memBytes h.params
theorem SameControl.portAccess (h : SameControl s s') (c : Cycle) :
    c.portAccess s'.params = c.portAccess s.params :=
  congrArg c.portAccess h.params
theorem SameControl.busy (h : SameControl s s') : s'.busy = s.busy := (congrArg State.busy h :)
theorem SameControl.turn (h : SameControl s s') : s'.turn = s.turn := (congrArg State.turn h :)
theorem SameControl.age (h : SameControl s s') : s'.window.age = s.window.age :=
  (congrArg (fun t : State => t.window.age) h :)
theorem SameControl.cycle (h : SameControl s s') : s'.cycle = s.cycle := (congrArg State.cycle h :)

theorem SameControl.snapshot_none (h : SameControl s s') (hsn : s.snapshot = none) : s'.snapshot = none := by
  have hmap := (congrArg State.snapshot h :)
  simp only [withoutData, hsn, Option.map_none, Option.map_eq_none_iff] at hmap
  exact hmap

theorem SameControl.snapshot_some (h : SameControl s s') {sn : Snapshot} (hsn : s.snapshot = some sn) :
    ∃ sn', s'.snapshot = some sn' ∧ sn'.op = sn.op ∧ sn'.ea = sn.ea := by
  have hmap := (congrArg State.snapshot h :)
  simp only [withoutData, hsn, Option.map_some, Option.map_eq_some_iff, Snapshot.mk.injEq] at hmap
  obtain ⟨sn', hsn', hop, -, hea⟩ := hmap
  exact ⟨sn', hsn', hop, hea⟩

/-- An update that acts on a state's control alone keeps two states alike in it. -/
theorem SameControl.update (h : SameControl s s') (F : State → State) {u u' : State}
    (hu : withoutData u = F (withoutData s)) (hu' : withoutData u' = F (withoutData s')) :
    SameControl u u' := by
  rw [SameControl, hu, hu', h]

theorem SameControl.answer (h : SameControl s s') {r r' : Option Response}
    (hr : r'.map Response.err = r.map Response.err) :
    SameControl { s with resp := r } { s' with resp := r' } := by
  have hmap (q : Option Response) : q.map (fun a : Response => (⟨0#32, a.err⟩ : Response)) =
      (q.map Response.err).map fun e => ⟨0#32, e⟩ := by cases q <;> rfl
  refine h.update (fun s => { s with resp := r.map fun a => ⟨0#32, a.err⟩ }) rfl ?_
  rw [hmap r, ← hr, ← hmap r']
  rfl

theorem SameControl.writeStatus (h : SameControl s s') (w : Word) :
    SameControl (writeStatus w s) (writeStatus w s') := by
  have hcommutes (s : State) : withoutData (Machine.writeStatus w s) = Machine.writeStatus w (withoutData s) := by
    rw [writeStatus_eq, writeStatus_eq]
    rfl
  exact h.update (Machine.writeStatus w) (hcommutes s) (hcommutes s')

theorem SameControl.writeCsr (h : SameControl s s') (off : BitVec 8) (w : Word) :
    SameControl (writeCsr off w s) (writeCsr off w s') := by
  unfold Machine.writeCsr
  cases CsrName.ofOffset off with
  | none => exact h
  | some r =>
    cases r with
    | status => exact h.writeStatus w
    | ctrl => exact h.update (writeCtrl w) rfl rfl
    | addr i => exact h.update (writeReg (.addr i) w) rfl rfl
    | id | cmd | key _ | errAddr => exact h

/-! Going on in both runs -/

theorem SameControl.processCmd (h : SameControl s s') (w : Word) (hturn : s.turn = .host) :
    Follows SameControl (processCmd w s) (processCmd w s') := by
  rw [processCmd_eq_cmdGate w hturn, processCmd_eq_cmdGate w (h.turn.trans hturn)]
  exact .next (h.update _ (keepsChecks_withoutData.issue _ s) (keepsChecks_withoutData.issue _ s'))

theorem SameControl.serveCsrWrite (h : SameControl s s') (rst : Bool) (off : BitVec 8) (size : Nat) (d : Word)
    (hturn : s.turn = .host) :
    Follows SameControl (serveCsrWrite rst off size d s) (serveCsrWrite rst off size d s') := by
  unfold Machine.serveCsrWrite
  split
  · exact .next (h.answer rfl)
  · split
    · exact .next (h.answer rfl)
    · split
      · exact (h.processCmd d hturn).andThen fun _ _ _ ht => .next (ht.answer rfl)
      · exact .next ((h.writeCsr off d).answer rfl)

theorem SameControl.servePort (h : SameControl s s') (rst : Bool) (a : PortAccess) (hturn : s.turn = .host) :
    Follows SameControl (servePort rst a s) (servePort rst a s') := by
  cases a with
  | csrRead off size =>
    refine .next ?_
    unfold serveCsrRead
    split <;> exact h.answer rfl
  | csrWrite off size d => exact h.serveCsrWrite rst off size d hturn
  | memRead addr size =>
    refine .next ?_
    unfold serveMemRead
    rw [h.memBytes]
    split <;> exact h.answer rfl
  | memWrite addr size d =>
    refine .next ?_
    unfold serveMemWrite
    rw [h.memBytes]
    split
    · have hsram (m m' : Memory) : SameControl { s with sram := m } { s' with sram := m' } := h
      exact (hsram _ _).answer rfl
    · exact h.answer rfl

theorem SameControl.serveAccess (h : SameControl s s') (c : Cycle) (hturn : s.turn = .host) :
    Follows SameControl (serveAccess c s) (serveAccess c s') := by
  unfold Machine.serveAccess
  rw [h.portAccess]
  cases c.portAccess s.params with
  | none => exact .next (h.answer rfl)
  | some a => exact h.servePort c.rst a hturn

theorem SameControl.withAddrs (h : SameControl s s') {sn sn' : Snapshot} (hea : sn'.ea = sn.ea)
    {k k' : Lanes Nat → Host.Outcome State Fault Refusal} (hk : ∀ ea, Follows SameControl (k ea) (k' ea)) :
    Follows SameControl (withAddrs sn s k) (withAddrs sn' s' k') := by
  unfold Machine.withAddrs
  rw [h.memBytes, hea]
  cases usableAddrs s.params.memBytes sn.ea with
  | none =>
    intro t ht
    cases ht
  | some ea => exact hk ea

/-! The bytes moved, their values aside (20_memory.md R53, R54) -/

/-- A byte moved without its value. -/
def withoutValue (c : Host.Cell) : Host.Cell := (c.1, 0#8)

theorem cellAt_map_withoutValue (m : List Host.Cell) (k : Nat) :
    (cellAt (m.map withoutValue) k).isNone = (cellAt m k).isNone := by
  induction m with
  | nil => rfl
  | cons c rest ih =>
    simp only [List.map_cons, withoutValue, cellAt]
    split
    · rfl
    · exact ih

theorem map_withoutValue_setCell (m : List Host.Cell) (k : Nat) (v : Byte) :
    (setCell m k v).map withoutValue = setCell (m.map withoutValue) k 0#8 := by
  induction m with
  | nil => rfl
  | cons c rest ih =>
    simp only [List.map_cons, withoutValue, setCell]
    split
    · rfl
    · split
      · rfl
      · simp only [List.map_cons, withoutValue, ← ih]

theorem stillToMove_withoutData (s : State) (k : Nat) :
    stillToMove (withoutData s).window.moved k = stillToMove s.window.moved k := by
  unfold stillToMove
  rw [← cellAt_map_withoutValue s.window.moved]
  rfl

/-- Without data, an early move of byte `k` marks it as moved. -/
theorem withoutData_moved (s : State) (r : Memory) (k : Nat) (v : Byte) :
    withoutData { s with sram := r, window := { s.window with moved := setCell s.window.moved k v } } =
      { withoutData s with window := { (withoutData s).window with
        moved := setCell (withoutData s).window.moved k 0#8 } } := by
  have hmoved : (setCell s.window.moved k v).map withoutValue =
      setCell (withoutData s).window.moved k 0#8 := map_withoutValue_setCell _ k v
  rw [← hmoved]
  rfl

theorem withoutData_loadByte (ea : Lanes Nat) (s : State) (k : Nat) :
    loadByte ea (withoutData s) k = withoutData (loadByte ea s k) := by
  unfold loadByte
  rw [stillToMove_withoutData]
  split
  · exact (withoutData_moved s s.sram k _).symm
  · rfl

/-- A byte written marks what a byte read marks. -/
theorem withoutData_storeByte (ea : Lanes Nat) (s : State) (k : Nat) :
    loadByte ea (withoutData s) k = withoutData (storeByte ea s k) := by
  unfold loadByte storeByte
  rw [stillToMove_withoutData]
  split
  · exact (withoutData_moved s _ k _).symm
  · rfl

theorem SameControl.moveBytes (h : SameControl s s') (ks : List Nat) :
    Follows SameControl (moveBytes ks s) (moveBytes ks s') := by
  cases hsn : s.snapshot with
  | none =>
    rw [moveBytes_of_none hsn, moveBytes_of_none (h.snapshot_none hsn)]
    exact .next h
  | some sn =>
    obtain ⟨sn', hsn', hop, hea⟩ := h.snapshot_some hsn
    simp only [Machine.moveBytes, hsn, hsn', hop]
    cases sn.op with
    | load8 =>
      exact h.withAddrs hea fun ea => .next (h.update (ks.foldl (loadByte ea))
        (List.foldl_hom withoutData (withoutData_loadByte ea)).symm
        (List.foldl_hom withoutData (withoutData_loadByte ea)).symm)
    | store8 =>
      exact h.withAddrs hea fun ea => .next (h.update (ks.foldl (loadByte ea))
        (List.foldl_hom withoutData (withoutData_storeByte ea)).symm
        (List.foldl_hom withoutData (withoutData_storeByte ea)).symm)
    | _ => exact .next h

/-! Completion -/

theorem SameControl.finishCmd (h : SameControl s s') (l l' : Lanes Block) (r r' : Memory) :
    SameControl (finishCmd { s with lanes := l, sram := r }) (finishCmd { s' with lanes := l', sram := r' }) :=
  h.update Machine.finishCmd rfl rfl

theorem SameControl.whenInFlight (h : SameControl s s') {op : Opcode}
    {k k' : Snapshot → Host.Outcome State Fault Refusal}
    (hk : ∀ sn sn', sn'.ea = sn.ea → Follows SameControl (k sn) (k' sn')) :
    Follows SameControl (whenInFlight op s k) (whenInFlight op s' k') := by
  unfold Machine.whenInFlight
  cases hsn : s.snapshot with
  | none =>
    rw [h.snapshot_none hsn]
    exact .next h
  | some sn =>
    obtain ⟨sn', hsn', hop, hea⟩ := h.snapshot_some hsn
    simp only [hsn', hop, h.busy]
    split
    · exact hk sn sn' hea
    · exact .next h

theorem SameControl.completeKeyed (h : SameControl s s') (op : Opcode) (f : Block → Block → Block) :
    Follows SameControl (completeKeyed op f s) (completeKeyed op f s') :=
  h.whenInFlight fun _ _ _ => .next (h.finishCmd _ _ s.sram s'.sram)

theorem SameControl.completeLoad8 (h : SameControl s s') :
    Follows SameControl (completeLoad8 s) (completeLoad8 s') := by
  have hlv : SameControl { s with lv := true } { s' with lv := true } :=
    h.update (fun s => { s with lv := true }) rfl rfl
  exact h.whenInFlight fun _ _ hea => h.withAddrs hea fun _ =>
    .next (hlv.finishCmd _ _ s.sram s'.sram)

theorem SameControl.completeStore8 (h : SameControl s s') :
    Follows SameControl (completeStore8 s) (completeStore8 s') :=
  h.whenInFlight fun _ _ hea => h.withAddrs hea fun _ => .next (h.finishCmd s.lanes s'.lanes _ _)

theorem SameControl.exec (h : SameControl s s') (i : Instr) (hturn : s.turn = .engine) :
    Follows SameControl (exec i s) (exec i s') := by
  have hturn' : s'.turn = .engine := h.turn.trans hturn
  cases i <;> simp only [Machine.exec, execLoad8, execStore8, execXor8, execAesenc8, execAesenclast8, execAesdec8,
    execAesdeclast8, onTurn_engine hturn, onTurn_engine hturn']
  case load8 => exact h.completeLoad8
  case store8 => exact h.completeStore8
  all_goals exact h.completeKeyed _ _

/-! The two turns -/

theorem SameControl.endEngineTurn (h : SameControl s s') :
    SameControl (endEngineTurn s) (endEngineTurn s') :=
  h.update Machine.endEngineTurn rfl rfl

theorem SameControl.growOlder (h : SameControl s s') : SameControl (growOlder s) (growOlder s') :=
  h.update Machine.growOlder rfl rfl

theorem SameControl.runEngine (h : SameControl s s') {sn sn' : Snapshot} (hop : sn'.op = sn.op) (c : Cycle)
    (hturn : s.turn = .engine) : Follows SameControl (runEngine sn c s) (runEngine sn' c s') := by
  refine (h.moveBytes c.movesBefore).andThen fun t t' ht hc => ?_
  obtain ⟨m, r, rfl⟩ := moveBytes_frame ht
  rw [completionDue_eq c hc.params hc.age, hop]
  split
  · exact (hc.exec _ hturn).andThen fun _ _ _ hu => .next hu.endEngineTurn
  · exact .next hc.growOlder.endEngineTurn

theorem SameControl.engineTurn (h : SameControl s s') (hturn : s.turn = .engine) :
    Follows SameControl (engineTurn s) (engineTurn s') := by
  unfold Machine.engineTurn
  rw [h.cycle]
  split
  · exact .next (h.update (fun s => Machine.endEngineTurn (resetRegisters s)) rfl rfl)
  · cases hsn : s.snapshot with
    | none =>
      rw [h.snapshot_none hsn]
      exact .next h.endEngineTurn
    | some sn =>
      obtain ⟨sn', hsn', hop, -⟩ := h.snapshot_some hsn
      simp only [hsn', h.busy]
      split
      · exact h.runEngine hop _ hturn
      · exact .next h.endEngineTurn

theorem SameControl.hostTurn (h : SameControl s s') (hturn : s.turn = .host) :
    Follows SameControl (hostTurn s) (hostTurn s') := by
  unfold Machine.hostTurn
  rw [h.cycle]
  exact (h.serveAccess _ hturn).andThen fun _ _ _ hu => (hu.moveBytes _).andThen fun _ _ _ hv =>
    .next (hv.update endCycle rfl rfl)

theorem SameControl.step (h : SameControl s s') : Follows SameControl (step s) (step s') := by
  cases hturn : s.turn with
  | engine =>
    rw [step_engine hturn, step_engine (h.turn.trans hturn)]
    exact h.engineTurn hturn
  | host =>
    rw [step_host hturn, step_host (h.turn.trans hturn)]
    exact h.hostTurn hturn

end

/-- On the engine's turn no completion has fallen in this cycle yet. -/
theorem Inv.doneNow_engine {s : State} (h : Inv s) (hturn : s.turn = .engine) : s.doneNow = false := by
  cases hnow : s.doneNow with
  | false => rfl
  | true =>
    obtain ⟨-, hhost⟩ := h.doneNow hnow
    cases hturn.symm.trans hhost

/-- The end of the engine's turn with a command in flight, as far as the clock sees it. -/
theorem Inv.step_inFlight_clock {s : State} (h : Inv s) (hturn : s.turn = .engine) (hbusy : s.busy = true)
    (hrst : s.cycle.rst = false) : ∃ t, step s = .next t ∧ t.busy = !completionDue s.cycle s ∧
      t.doneNow = completionDue s.cycle s ∧
      t.window.age = if completionDue s.cycle s then 0 else s.window.age + 1 := by
  obtain ⟨u, hu, -, hnext⟩ := h.step_inFlight hturn hbusy hrst
  obtain ⟨m, r, rfl⟩ := moveBytes_frame hu
  cases hdue : completionDue s.cycle s with
  | true =>
    rw [if_pos hdue] at hnext
    obtain ⟨l, v, r', hstep, -⟩ := hnext
    exact ⟨_, hstep, rfl, rfl, rfl⟩
  | false =>
    rw [if_neg (by simp [hdue])] at hnext
    exact ⟨_, hnext.1, hbusy, h.doneNow_engine hturn, rfl⟩

/-- Settles O44: every update of a turn acts on control by control alone; and of two commands in flight with one
age, one cycle's choice and the same parameters, both completions are due or neither. -/
theorem controlDependsOnNoData : Obligations.ControlDependsOnNoData := by
  refine ⟨fun s s' t hs => SameControl.step (s := s) (s' := s') hs.symm t, ?_⟩
  intro s s' hinv hinv' hturn hturn' hbusy hbusy' hrst hrst' hfinish hparams hage
  obtain ⟨t, hstep, htbusy, htnow, htage⟩ := hinv.step_inFlight_clock hturn hbusy hrst
  obtain ⟨t', hstep', htbusy', htnow', htage'⟩ := hinv'.step_inFlight_clock hturn' hbusy' hrst'
  have hdue : completionDue s'.cycle s' = completionDue s.cycle s := by
    unfold completionDue
    rw [hfinish, hparams, hage]
  rw [hdue] at htbusy' htnow' htage'
  exact ⟨t, t', hstep, hstep', htbusy.trans htbusy'.symm, htnow.trans htnow'.symm,
    by rw [htage, htage', hage]⟩

end Sys2Proof.Machine
end

section
/-! PROOFS of family other, lanes: they are not read while LV = 0 (O45), and change at reset and at completion
alone (O46). -/

namespace Sys2Proof.Machine

open Sys2Proof.Claims

/-! The host's access reads and writes no lane (10_state.md R12) -/

/-- The state with other lanes. -/
def withLanes (l : Lanes Block) (s : State) : State := { s with lanes := l }

@[simp] theorem withLanes_params (l : Lanes Block) (s : State) : (withLanes l s).params = s.params := rfl
@[simp] theorem withLanes_window (l : Lanes Block) (s : State) : (withLanes l s).window = s.window := rfl

/-- The second state is the first with lanes `l`. -/
def OtherLanes (l : Lanes Block) (s s' : State) : Prop := s' = withLanes l s

section
variable (l : Lanes Block)

theorem keepsChecks_lanes : KeepsChecks (withLanes l) where
  err _ := rfl
  busy _ := rfl
  lv _ := rfl
  params _ := rfl
  addr _ := rfl
  raiseError _ _ _ _ := rfl
  acceptCmd _ _ _ := rfl

theorem readCsr_lanes (off : BitVec 8) (s : State) : readCsr off (withLanes l s) = readCsr off s := by
  unfold readCsr
  cases CsrName.ofOffset off with
  | none => rfl
  | some r => cases r <;> rfl

theorem writeCsr_lanes (off : BitVec 8) (w : Word) (s : State) :
    writeCsr off w (withLanes l s) = withLanes l (writeCsr off w s) := by
  unfold writeCsr
  cases CsrName.ofOffset off with
  | none => rfl
  | some r =>
    cases r with
    | status =>
      simp only [writeReg, writeStatus_eq]
      rfl
    | _ => rfl

theorem processCmd_lanes (w : Word) {s : State} (hturn : s.turn = .host) :
    Follows (OtherLanes l) (processCmd w s) (processCmd w (withLanes l s)) := by
  rw [processCmd_eq_cmdGate w hturn, processCmd_eq_cmdGate w (s := withLanes l s) hturn]
  exact .next ((keepsChecks_lanes l).issue _ s).symm

theorem serveCsrWrite_lanes (rst : Bool) (off : BitVec 8) (size : Nat) (d : Word) {s : State}
    (hturn : s.turn = .host) :
    Follows (OtherLanes l) (serveCsrWrite rst off size d s)
      (serveCsrWrite rst off size d (withLanes l s)) := by
  unfold serveCsrWrite
  split
  · exact .next rfl
  · split
    · exact .next rfl
    · split
      · refine (processCmd_lanes l d hturn).andThen fun t t' _ ht => .next ?_
        rw [show t' = withLanes l t from ht]
        rfl
      · refine .next ?_
        rw [writeCsr_lanes]
        rfl

theorem serveAccess_lanes (c : Cycle) {s : State} (hturn : s.turn = .host) :
    Follows (OtherLanes l) (serveAccess c s) (serveAccess c (withLanes l s)) := by
  unfold serveAccess
  rw [withLanes_params]
  cases c.portAccess s.params with
  | none => exact .next rfl
  | some a =>
    cases a with
    | csrRead off size =>
      refine .next ?_
      unfold serveCsrRead
      rw [readCsr_lanes]
      split <;> rfl
    | csrWrite off size d => exact serveCsrWrite_lanes l c.rst off size d hturn
    | memRead addr size =>
      refine .next ?_
      unfold serveMemRead
      rw [withLanes_params]
      split <;> rfl
    | memWrite addr size d =>
      refine .next ?_
      unfold serveMemWrite
      rw [withLanes_params]
      split <;> rfl

end

/-! While LV = 0 only a LOAD8 can be in flight, and it reads no lane (10_state.md R13) -/

/-- The two states differ at most in the lanes, and with LV = 1 not even there. -/
def SameButLanes (s s' : State) : Prop := ∃ m, s' = withLanes m s ∧ (s.lv = true → m = s.lanes)

theorem SameButLanes.refl (s : State) : SameButLanes s s := ⟨s.lanes, rfl, fun _ => rfl⟩

theorem SameButLanes.of_unloaded {s : State} (h : s.lv = false) (l : Lanes Block) :
    SameButLanes s (withLanes l s) :=
  ⟨l, rfl, fun hlv => by simp [h] at hlv⟩

/-- With LV = 1 there is nothing to compare. -/
theorem SameButLanes.cases {s s' : State} (h : SameButLanes s s') :
    s' = s ∨ s.lv = false ∧ ∃ l, s' = withLanes l s := by
  obtain ⟨l, rfl, hlanes⟩ := h
  cases hlv : s.lv with
  | true =>
    exact .inl (congrArg (withLanes · s) (hlanes hlv))
  | false => exact .inr ⟨rfl, l, rfl⟩

theorem Inv.op_of_unloaded {s : State} {sn : Snapshot} (h : Inv s) (hlv : s.lv = false)
    (hsn : s.snapshot = some sn) : sn.op = .load8 := by
  by_contra hop
  simp [h.lanesLoaded sn hsn hop] at hlv

theorem loadByte_lanes (ea : Lanes Nat) (l : Lanes Block) (s : State) (k : Nat) :
    loadByte ea (withLanes l s) k = withLanes l (loadByte ea s k) := by
  unfold loadByte
  rw [withLanes_window]
  split <;> rfl

theorem SameButLanes.moveBytes {s s' : State} (h : SameButLanes s s') (hinv : Inv s) (ks : List Nat) :
    Follows SameButLanes (moveBytes ks s) (moveBytes ks s') := by
  rcases h.cases with rfl | ⟨hlv, l, rfl⟩
  · exact .refl .refl _
  cases hsn : s.snapshot with
  | none =>
    rw [moveBytes_of_none hsn, moveBytes_of_none (s := withLanes l s) hsn]
    exact .next h
  | some sn =>
    have hop := hinv.op_of_unloaded hlv hsn
    obtain ⟨ea, hea, hr, -⟩ := hinv.transferAddrs hsn (Opcode.movesBytes_iff.2 (.inl hop))
    rw [moveBytes_of_load hsn hop hea hr, moveBytes_of_load (s := withLanes l s) hsn hop hea hr,
      List.foldl_hom (withLanes l) (loadByte_lanes ea l)]
    obtain ⟨m, hm⟩ := foldl_loadByte ea ks s
    rw [hm]
    exact .next (.of_unloaded (by exact hlv) l)

theorem SameButLanes.exec {s s' : State} {sn : Snapshot} (h : SameButLanes s s') (hinv : Inv s)
    (hfly : InFlight sn s) : Follows SameButLanes (exec sn.op.instr s) (exec sn.op.instr s') := by
  rcases h.cases with rfl | ⟨hlv, l, rfl⟩
  · exact .refl .refl _
  have hop := hinv.op_of_unloaded hlv hfly.snapshot
  obtain ⟨ea, hea, hr, -⟩ := hinv.transferAddrs hfly.snapshot (Opcode.movesBytes_iff.2 (.inl hop))
  have hfly' : InFlight sn (withLanes l s) := hfly
  rw [hop, Opcode.instr, exec_load8_inFlight hfly hop hea hr, exec_load8_inFlight hfly' hop hea hr]
  exact .refl .refl _

/-- An update that takes no lane into account. -/
theorem SameButLanes.update {s s' : State} (h : SameButLanes s s') {f : State → State}
    (hf : ∀ l, f (withLanes l s) = withLanes l (f s)) (hlanes : (f s).lanes = s.lanes)
    (hlv : (f s).lv = s.lv) : SameButLanes (f s) (f s') := by
  obtain ⟨l, rfl, hloaded⟩ := h
  exact ⟨l, hf l, fun h' => (hloaded (hlv ▸ h')).trans hlanes.symm⟩

theorem SameButLanes.endEngineTurn {s s' : State} (h : SameButLanes s s') :
    SameButLanes (endEngineTurn s) (endEngineTurn s') :=
  h.update (fun _ => rfl) rfl rfl

theorem SameButLanes.growOlder {s s' : State} (h : SameButLanes s s') :
    SameButLanes (growOlder s) (growOlder s') :=
  h.update (fun _ => rfl) rfl rfl

theorem SameButLanes.endCycle {s s' : State} (h : SameButLanes s s') : SameButLanes (endCycle s) (endCycle s') :=
  h.update (fun _ => rfl) rfl rfl

theorem engineTurn_lanes {s : State} (hinv : Inv s) (hlv : s.lv = false) (hturn : s.turn = .engine)
    (l : Lanes Block) : Follows SameButLanes (step s) (step (withLanes l s)) := by
  have hsame := SameButLanes.of_unloaded hlv l
  cases hrst : s.cycle.rst with
  | true =>
    rw [step_engine_rst hturn hrst, step_engine_rst (s := withLanes l s) hturn hrst]
    exact .refl .refl _
  | false =>
    cases hsn : s.snapshot with
    | none =>
      rw [step_engine_idle hturn hrst hsn, step_engine_idle (s := withLanes l s) hturn hrst hsn]
      exact .next hsame.endEngineTurn
    | some sn =>
      have hbusy : s.busy = true := by simp [hinv.busy, hsn]
      rw [step_engine_busy hturn hrst hsn hbusy,
        step_engine_busy (s := withLanes l s) hturn hrst hsn hbusy]
      refine (hsame.moveBytes hinv _).andThen fun t t' ht htt => ?_
      obtain ⟨u, hu, hinvt⟩ := hinv.moveBytes s.cycle.movesBefore
      cases ht.symm.trans hu
      obtain ⟨m, r, hframe⟩ := moveBytes_frame ht
      have hfly : InFlight sn t := by
        rw [hframe]
        exact ⟨hturn, hbusy, hsn⟩
      have hdue : completionDue s.cycle t' = completionDue s.cycle t := by
        obtain ⟨_, rfl, -⟩ := htt
        rfl
      change Follows _ _ (if completionDue s.cycle t' then _ else _)
      rw [hdue]
      split
      · exact (htt.exec hinvt hfly).andThen fun _ _ _ hu => .next hu.endEngineTurn
      · exact .next htt.growOlder.endEngineTurn

theorem hostTurn_lanes {s : State} (hinv : Inv s) (hlv : s.lv = false) (hturn : s.turn = .host)
    (l : Lanes Block) : Follows SameButLanes (step s) (step (withLanes l s)) := by
  rw [step_host hturn, step_host (s := withLanes l s) hturn]
  refine (serveAccess_lanes l s.cycle hturn).andThen fun u u' hu hother => ?_
  obtain ⟨v, hv, hserved⟩ := serveAccess_cases s.cycle hturn
  cases hu.symm.trans hv
  have hsame : SameButLanes u u' := by
    rw [show u' = withLanes l u from hother]
    exact .of_unloaded (hserved.keeps.lv.trans hlv) l
  exact (hsame.moveBytes (hinv.served hserved) _).andThen fun _ _ _ h => .next h.endCycle

/-- Settles O45: the host reads no lane, and of the commands only LOAD8 can be in flight, which reads none and,
when it completes, writes all. -/
theorem unloadedLanesAreNeverRead : Obligations.UnloadedLanesAreNeverRead := by
  intro s t l hinv hlv hstep
  have hfollows : Follows SameButLanes (step s) (step (withLanes l s)) := by
    cases hturn : s.turn with
    | engine => exact engineTurn_lanes hinv hlv hturn l
    | host => exact hostTurn_lanes hinv hlv hturn l
  obtain ⟨_, hstep', m, rfl, hlanes⟩ := hfollows t hstep
  exact ⟨m, hstep', hlanes⟩

/-! What changes a lane (10_state.md R11) -/

theorem lanes_hostTurn {s t : State} (hturn : s.turn = .host) (hstep : step s = .next t) :
    t.lanes = s.lanes := by
  obtain ⟨u, v, hserved, -, hmoved, rfl⟩ := step_host_cases hturn hstep
  obtain ⟨m, r, rfl⟩ := moveBytes_frame hmoved
  exact hserved.keeps.lanes

/-- Settles O46: of the events of the two turns, all but reset and a completion leave the lanes, and a STORE8
leaves them too. -/
theorem lanesChangeOnlyAtCompletion : Obligations.LanesChangeOnlyAtCompletion := by
  intro s t hstep hne
  cases hturn : s.turn with
  | host => exact absurd (lanes_hostTurn hturn hstep) hne
  | engine =>
    refine ⟨rfl, ?_⟩
    cases step_engine_cases hturn hstep with
    | reset hrst => exact .inl hrst
    | idle _ _ => exact absurd rfl hne
    | older _ u _ _ _ hm _ =>
      obtain ⟨m, r, rfl⟩ := moveBytes_frame hm
      exact absurd rfl hne
    | complete sn u v _ hbusy hsn hm _ hx =>
      obtain ⟨m, r, rfl⟩ := moveBytes_frame hm
      cases exec_engine (by exact hturn) hx with
      | idle => exact absurd rfl hne
      | done sn' l _ _ _ hsn' hop hl _ _ =>
        cases hsn.symm.trans hsn'
        exact .inr ⟨sn, hsn, fun hstore => hne (hl (hop.symm.trans hstore)), hbusy, rfl, rfl⟩

end Sys2Proof.Machine
end

section
/-! PROOFS of family other, the command in flight: what a step is (O1, O2), that the host does not end a command
(O50), when it completes (O42, O43), and what the host meets in the cycle of its completion (O51). -/

namespace Sys2Proof.Machine

open Sys2Proof.Claims

/-! A step as the turn it is (10_state.md R8, R37) -/

theorem andThen_assoc (o : Host.Outcome State Fault Refusal) (j k : State → Host.Outcome State Fault Refusal) :
    andThen (andThen o j) k = andThen o fun s => andThen (j s) k := by
  cases o <;> rfl

theorem step_host_none {s : State} (hturn : s.turn = .host) (h : s.cycle.portAccess s.params = none) :
    step s = endHostTurn s.cycle { s with resp := none } := by
  rw [step_host hturn, hostTurn, serveAccess, h]
  rfl

theorem step_host_some {s : State} {a : PortAccess} (hturn : s.turn = .host)
    (h : s.cycle.portAccess s.params = some a) :
    step s = andThen (servePort s.cycle.rst a s) (endHostTurn s.cycle) := by
  rw [step_host hturn, hostTurn, serveAccess, h]

/-- A CMD write without reset is the processing of its word, and an answer (10_state.md R30). -/
theorem servePort_cmd (w : Word) (s : State) : servePort false (.csrWrite CsrName.cmd.offset 4 w) s =
    andThen (processCmd w s) fun t => .next (respond (plainAnswer false) t) := rfl

theorem step_host_cmd {s : State} {w : Word} (hturn : s.turn = .host) (hrst : s.cycle.rst = false)
    (h : s.cycle.portAccess s.params = some (.csrWrite CsrName.cmd.offset 4 w)) :
    step s = andThen (processCmd w s) fun t => endHostTurn s.cycle (respond (plainAnswer false) t) := by
  rw [step_host_some hturn h, hrst, servePort_cmd, andThen_assoc]
  rfl

theorem processCmd_of_decode {w : Word} {i : Instr} (h : decodeCmd w = .ok i) (s : State) :
    processCmd w s = exec i s := by
  rw [processCmd, h]

/-- Settles O1: the host's turn, unfolded for each kind of access. -/
theorem stepRunsTheDecodedCommand : Obligations.StepRunsTheDecodedCommand := by
  intro s hturn
  refine ⟨step_host_none hturn, fun a => step_host_some hturn, fun w hrst haccess => ?_⟩
  have hstep := step_host_cmd hturn hrst haccess
  refine ⟨⟨0#32, hstep⟩, fun i hdecode => ⟨processCmd_of_decode hdecode s, 0#32, ?_⟩⟩
  rw [hstep, processCmd_of_decode hdecode]
  rfl

/-- The addressing mode does not matter at completion: it was spent at acceptance (log 8). -/
theorem exec_instr_opcode (i : Instr) {s : State} (hturn : s.turn = .engine) :
    exec i.opcode.instr s = exec i s := by
  cases i with
  | load8 m =>
    have hany (m : AddrMode) : exec (.load8 m) s = completeLoad8 s := onTurn_engine hturn
    exact (hany _).trans (hany m).symm
  | store8 m =>
    have hany (m : AddrMode) : exec (.store8 m) s = completeStore8 s := onTurn_engine hturn
    exact (hany _).trans (hany m).symm
  | _ => rfl

/-- Settles O2: the engine's turn runs the snapshot's operation, in whichever mode it is written. -/
theorem stepCompletesTheCommandInFlight : Obligations.StepCompletesTheCommandInFlight := by
  intro s t sn i ⟨hturn, hbusy, hsn⟩ hrst hmoved hdue hop
  obtain ⟨m, r, hframe⟩ := moveBytes_frame hmoved
  have hturn' : t.turn = .engine := by rw [hframe]; exact hturn
  rw [step_engine_busy hturn hrst hsn hbusy, runEngine, hmoved, andThen_next, if_pos hdue, ← hop,
    exec_instr_opcode i hturn']
  rfl

/-! The host's turn while a command is in flight (60_exceptions.md R104) -/

theorem snapshot_writeCsr (off : BitVec 8) (w : Word) (s : State) :
    (writeCsr off w s).snapshot = s.snapshot := (congrArg State.snapshot (writeCsr_frame off w s) :)

theorem busy_writeCsr (off : BitVec 8) (w : Word) (s : State) :
    (writeCsr off w s).busy = s.busy := (congrArg State.busy (writeCsr_frame off w s) :)

theorem window_writeCsr (off : BitVec 8) (w : Word) (s : State) :
    (writeCsr off w s).window = s.window := (congrArg State.window (writeCsr_frame off w s) :)

/-- No host access touches the command in flight: with BUSY = 1 no CMD write is accepted. -/
theorem Served.keepsFlight {s u : State} {c : Cycle} (h : Served s c u) (hbusy : s.busy = true) :
    u.busy = true ∧ u.snapshot = s.snapshot ∧ u.window = s.window := by
  cases h with
  | none _ | read _ _ _ _ _ | ignored _ _ _ _ _ _ | memWrite _ _ _ _ _ => exact ⟨hbusy, rfl, rfl⟩
  | command _ _ _ _ _ _ hi =>
    cases hi with
    | discarded _ | rejected _ _ _ _ _ => exact ⟨hbusy, rfl, rfl⟩
    | accepted _ _ hb _ _ => simp [hbusy] at hb
  | csrWrite off w _ _ _ _ =>
    exact ⟨(busy_writeCsr off w s).trans hbusy, snapshot_writeCsr off w s, window_writeCsr off w s⟩

/-- The host's turn, as far as the command in flight and the clock go. -/
theorem step_host_busy {s t : State} (hturn : s.turn = .host) (hbusy : s.busy = true)
    (hstep : step s = .next t) : t.busy = true ∧ t.snapshot = s.snapshot ∧ t.window.age = s.window.age ∧
      t.turn = .engine ∧ t.params = s.params ∧ t.inputs = s.inputs.tail := by
  obtain ⟨u, v, hserved, -, hmoved, rfl⟩ := step_host_cases hturn hstep
  obtain ⟨m, r, rfl⟩ := moveBytes_frame hmoved
  obtain ⟨hbusy', hsn', hwindow⟩ := hserved.keepsFlight hbusy
  have hkeeps := hserved.keeps
  exact ⟨hbusy', hsn', (congrArg Window.age hwindow :), rfl, hkeeps.params,
    congrArg List.tail hkeeps.inputs⟩

/-- Settles O50: with BUSY = 1 the gate of a CMD write lets nothing through. -/
theorem snapshotSurvivesTheHost : Obligations.SnapshotSurvivesTheHost := by
  intro s t hturn hbusy hstep
  obtain ⟨hbusy', hsn, -⟩ := step_host_busy hturn hbusy hstep
  exact ⟨hsn, hbusy'⟩

/-! The turn of the completion (00_scope.md R6, 10_state.md R37) -/

/-- The engine's turn with a command in flight, as its two outcomes. -/
inductive Progress (s : State) : State → Prop where
  | older (m : List Host.Cell) (r : Memory) (hdue : completionDue s.cycle s = false) :
      Progress s (endEngineTurn (growOlder { s with sram := r, window := { s.window with moved := m } }))
  | completed (l : Lanes Block) (v : Bool) (r : Memory) (hdue : completionDue s.cycle s = true) :
      Progress s (endEngineTurn (finishCmd { s with lanes := l, lv := v, sram := r }))

theorem Inv.progress {s : State} (h : Inv s) (hturn : s.turn = .engine) (hbusy : s.busy = true)
    (hrst : s.cycle.rst = false) : ∃ t, step s = .next t ∧ Inv t ∧ Progress s t := by
  obtain ⟨u, hu, -, hnext⟩ := h.step_inFlight hturn hbusy hrst
  obtain ⟨m, r, rfl⟩ := moveBytes_frame hu
  split at hnext
  · rename_i hdue
    obtain ⟨l, v, r', hstep, hinv⟩ := hnext
    exact ⟨_, hstep, hinv, .completed l v r' hdue⟩
  · rename_i hdue
    exact ⟨_, hnext.1, hnext.2, .older m r (by simpa using hdue)⟩

theorem completionDue_iff {c : Cycle} {s : State} : completionDue c s = true ↔
    s.params.latMax ≤ s.window.age + 1 ∨ c.finish = true ∧ s.params.latMin ≤ s.window.age + 1 := by
  simp [completionDue]

theorem completionDue_eq_false_iff {c : Cycle} {s : State} : completionDue c s = false ↔
    s.window.age + 1 < s.params.latMax ∧ (c.finish = true → s.window.age + 1 < s.params.latMin) := by
  simp [completionDue]

/-- Settles O42: by LAT_MIN <= LAT_MAX a due completion never comes too early, and the age stays below
LAT_MAX. -/
theorem completionFallsBetweenTheLatencies : Obligations.CompletionFallsBetweenTheLatencies := by
  intro s t hinv hturn hbusy hrst hstep
  obtain ⟨t', hstep', -, hprogress⟩ := hinv.progress hturn hbusy hrst
  cases hstep.symm.trans hstep'
  have hage := hinv.age
  have hparams := Params.wellFormed_iff.1 hinv.params
  cases hprogress with
  | older m r hdue =>
    rw [completionDue_eq_false_iff] at hdue
    refine ⟨fun hidle => ?_, fun _ => ⟨rfl, rfl, rfl⟩, fun hmax => by omega⟩
    have : s.busy = false := hidle
    simp [hbusy] at this
  | completed l v r hdue =>
    rw [completionDue_iff] at hdue
    exact ⟨fun _ => ⟨by omega, by omega, rfl, rfl⟩, nofun, fun _ => rfl⟩

/-! Every command completes (00_scope.md R6) -/

theorem run_succ {M : Host.Core} {s t : M.State} (hstep : M.step s = .next t) (k : Nat) :
    M.run (k + 1) s = M.run k t := by
  rw [Host.Core.run, hstep]

/-- A cycle has no reset if the first of the inputs has none. -/
theorem cycle_rst {s : State} {n : Nat} (h : ∀ c ∈ s.inputs.take (n + 1), c.rst = false) :
    s.cycle.rst = false := by
  unfold State.cycle
  cases hinputs : s.inputs with
  | nil => rfl
  | cons c cs => exact h c (by simp [hinputs])

/-- A command that has at most `n + 1` cycles left completes in one of them. -/
theorem Inv.completes_within (n : Nat) {s : State} (h : Inv s) (hturn : s.turn = .engine)
    (hbusy : s.busy = true) (hleft : s.params.latMax - s.window.age ≤ n + 1)
    (hrst : ∀ c ∈ s.inputs.take (n + 1), c.rst = false) :
    ∃ k t, k + 1 ≤ 2 * (n + 1) ∧ Host.Core.run Sys2Proof.core k s = .next t ∧ t.doneNow = true ∧
      t.done = true ∧ t.busy = false := by
  induction n generalizing s with
  | zero =>
    obtain ⟨t, hstep, -, hprogress⟩ := h.progress hturn hbusy (cycle_rst hrst)
    cases hprogress with
    | older m r hdue =>
      rw [completionDue_eq_false_iff] at hdue
      omega
    | completed l v r _ => exact ⟨1, _, by omega, run_succ (M := core) hstep 0, rfl, rfl, rfl⟩
  | succ n ih =>
    obtain ⟨t, hstep, hinv, hprogress⟩ := h.progress hturn hbusy (cycle_rst hrst)
    cases hprogress with
    | completed l v r _ => exact ⟨1, _, by omega, run_succ (M := core) hstep 0, rfl, rfl, rfl⟩
    | older m r _ =>
      obtain ⟨u, hstep', hinv'⟩ := hinv.hostTurn rfl
      obtain ⟨hbusy', -, hage, hturn', hparams, hinputs⟩ := step_host_busy (by rfl) (by exact hbusy) hstep'
      have hage : u.window.age = s.window.age + 1 := hage
      have hparams : u.params = s.params := hparams
      have hinputs : u.inputs = s.inputs.tail := hinputs
      obtain ⟨k, v, hk, hrun, hend⟩ := ih hinv' hturn' hbusy' (by rw [hage, hparams]; omega)
        fun c hc => hrst c (List.mem_of_mem_tail (by rwa [List.tail_take_eq_take_tail, ← hinputs]))
      exact ⟨k + 2, v, by omega, (run_succ (M := core) hstep _).trans
        ((run_succ (M := core) (by exact hstep') _).trans hrun), hend⟩

/-- Settles O43: each cycle completes the command or leaves it a cycle less, the host not touching it. -/
theorem everyAcceptedCommandCompletes : Obligations.EveryAcceptedCommandCompletes := by
  intro s hinv hturn hbusy hrst
  have hage := hinv.age
  obtain ⟨n, hn⟩ : ∃ n, s.params.latMax - s.window.age = n + 1 := ⟨_, (Nat.sub_add_cancel (by omega)).symm⟩
  rw [hn] at hrst ⊢
  exact hinv.completes_within n hturn hbusy hn.le hrst

/-! The host's access in the cycle of the completion (60_exceptions.md R110) -/

/-- With BUSY = 0 a CMD write does not raise CMD_BUSY. -/
theorem errCode_checksOf_ne_cmdBusy (d : Except DecodeError Instr) {s : State} (h : s.errCode ≠ .cmdBusy) :
    (checksOf d s).errCode ≠ .cmdBusy := by
  have hlanes {k : State → State} (hk : (k s).errCode ≠ .cmdBusy) : (lanesGate k s).errCode ≠ .cmdBusy := by
    unfold lanesGate
    split
    · exact hk
    · exact nofun
  have hrange {k : State → State} (ea : Lanes Nat) (hk : (k s).errCode ≠ .cmdBusy) :
      (rangeGate ea k s).errCode ≠ .cmdBusy := by
    unfold rangeGate
    split
    · exact nofun
    · exact hk
  have hoverlap {k : State → State} (m : AddrMode) (ea : Lanes Nat) (hk : (k s).errCode ≠ .cmdBusy) :
      (overlapGate m ea k s).errCode ≠ .cmdBusy := by
    unfold overlapGate
    split
    · exact nofun
    · exact hk
  cases d with
  | error _ => exact nofun
  | ok i =>
    cases i with
    | load8 m => exact hrange _ h
    | store8 m => exact hlanes (hrange _ (hoverlap _ _ h))
    | _ => exact hlanes h

theorem issued_done {op : Opcode} {s t : State} (h : Issued op s t) : t.done = s.done := by
  cases h <;> rfl

theorem done_writeCsr_status {s : State} (hnow : s.doneNow = true) (w : Word) :
    (writeCsr 0x08#8 w s).done = s.done := by
  have hwrite : writeCsr 0x08#8 w s = writeStatus w s := rfl
  simp [hwrite, writeStatus_eq, hnow]

/-- A host's turn with a CMD write: what its processing left, but for the bytes moved late. -/
theorem step_host_cmd_cases {t u : State} {w : Word} (hturn : t.turn = .host) (hrst : t.cycle.rst = false)
    (h : t.cycle.portAccess t.params = some (.csrWrite CsrName.cmd.offset 4 w)) (hstep : step t = .next u) :
    ∃ op v, processCmd w t = .next v ∧ Issued op t v ∧ u.done = v.done ∧ u.errCode = v.errCode ∧
      u.busy = v.busy ∧ u.err = v.err := by
  obtain ⟨op, v, hv, hissued⟩ := processCmd_cases w hturn
  rw [step_host_cmd hturn hrst h, hv, andThen_next, endHostTurn, andThen_eq_next] at hstep
  obtain ⟨x, hmoved, hend⟩ := hstep
  obtain ⟨m, r, rfl⟩ := moveBytes_frame hmoved
  cases hend
  exact ⟨op, v, hv, hissued, rfl, rfl, rfl, rfl⟩

theorem done_step_host_status {t u : State} {w : Word} (hturn : t.turn = .host) (hrst : t.cycle.rst = false)
    (h : t.cycle.portAccess t.params = some (.csrWrite 0x08#8 4 w)) (hnow : t.doneNow = true)
    (hstep : step t = .next u) : u.done = t.done := by
  have hserve : servePort false (.csrWrite 0x08#8 4 w) t =
      .next (respond (plainAnswer false) (writeCsr 0x08#8 w t)) := rfl
  rw [step_host_some hturn h, hrst, hserve, andThen_next, endHostTurn, andThen_eq_next] at hstep
  obtain ⟨x, hmoved, hend⟩ := hstep
  obtain ⟨m, r, rfl⟩ := moveBytes_frame hmoved
  cases hend
  exact done_writeCsr_status hnow w

/-- Settles O51: after a completion the host's turn finds DONE set for this cycle and BUSY = 0. -/
theorem completionComesBeforeTheHost : Obligations.CompletionComesBeforeTheHost := by
  intro s t u w hinv hturn hrst hbusy hstep hidle hstep'
  obtain ⟨t', hnext, -, hprogress⟩ := hinv.progress hturn hbusy hrst
  cases hstep.symm.trans hnext
  cases hprogress with
  | older m r _ =>
    have : s.busy = false := hidle
    simp [hbusy] at this
  | completed l v r _ =>
    refine ⟨fun haccess => done_step_host_status (by rfl) (by exact hrst) (by exact haccess) (by rfl) hstep', fun haccess => ?_⟩
    obtain ⟨op, x, hx, hissued, hdone, hcode, hbusy', herr'⟩ :=
      step_host_cmd_cases (by rfl) (by exact hrst) (by exact haccess) hstep'
    refine ⟨hdone.trans (issued_done hissued), fun herr => ?_⟩
    have hchecks := processCmd_eq_cmdGate w
      (s := endEngineTurn (finishCmd { s with lanes := l, lv := v, sram := r })) rfl
    rw [cmdGate_ready (by exact herr) rfl, hx] at hchecks
    refine ⟨?_, fun i hi hdecode hlv => ?_⟩
    · obtain ⟨hnone, -, -⟩ := hinv.noError herr
      cases hchecks
      rw [hcode]
      exact errCode_checksOf_ne_cmdBusy _ (by simp [hnone])
    · have haccepted := keyedCommandsAreAccepted _ i hi ⟨rfl, by exact herr, rfl⟩ hlv
      rw [← processCmd_of_decode hdecode, hx] at haccepted
      cases haccepted
      exact ⟨hbusy', herr'.trans herr⟩

end Sys2Proof.Machine
end

section
/-! PROOFS of family other, the block transfer: the bytes moved early (O38, O39), the transfer without a
concurrent writer (O40, O41), and what changes an SRAM byte (O49). -/

namespace Sys2Proof.Machine

open Sys2Proof.Claims

/-! The bytes moved early (20_memory.md R53, R54) -/

/-- Settles O38: the fold over the bytes, read at each of them. -/
theorem loadReadsEachByteOnce : Obligations.LoadReadsEachByteOnce := by
  intro s sn ea ks hsn hop hea hr
  obtain ⟨m, hm, hcells, -⟩ := foldl_loadByte_moved ea ks s
  exact ⟨m, by rw [moveBytes_of_load hsn hop hea hr, hm], hcells⟩

/-- Settles O39: the transfer bytes are the bytes of the blocks, one each. -/
theorem storeWritesEachByteOnce : Obligations.StoreWritesEachByteOnce := by
  intro s sn ea ks hsn hop hea hr hd
  obtain ⟨m, r, hm, hcells, -, -, hbytes, hframe, -⟩ := foldl_storeByte_moved ea ks s
  refine ⟨m, r, by rw [moveBytes_of_store hsn hop hea hr, hm], hcells, fun i j hj => ?_, fun a hout => ?_⟩
  · rw [← transferAddr_block ea i hj, ← laneByte_block s.lanes i hj]
    exact hbytes hd _ (by omega)
  · rcases hframe a with hsame | ⟨k, hk, ha, -⟩
    · exact hsame
    · exact absurd ha (ne_transferAddr hout hk)

/-! What changes an SRAM byte (20_memory.md R39, R54) -/

/-- `a` is the address of a transfer byte of the STORE8 in flight, and `b` that byte. -/
def StoresByte (s : State) (a : Nat) (b : Byte) : Prop :=
  ∃ sn ea k, s.snapshot = some sn ∧ sn.op = .store8 ∧ sn.ea = some ea ∧ k < 128 ∧ a = transferAddr ea k ∧
    b = laneByte s.lanes k

theorem moveBytes_sram {ks : List Nat} {s t : State} (h : moveBytes ks s = .next t) (a : Nat) :
    t.sram.read a = s.sram.read a ∨ StoresByte s a (t.sram.read a) := by
  cases hsn : s.snapshot with
  | none =>
    cases h.symm.trans (moveBytes_of_none hsn)
    exact .inl rfl
  | some sn =>
    unfold moveBytes at h
    simp only [hsn] at h
    cases hop : sn.op with
    | load8 =>
      simp only [hop] at h
      obtain ⟨ea, -, hnext⟩ := withAddrs_next h
      obtain ⟨m, hm⟩ := foldl_loadByte ea ks s
      cases hm ▸ hnext
      exact .inl rfl
    | store8 =>
      simp only [hop] at h
      obtain ⟨ea, hea, hnext⟩ := withAddrs_next h
      obtain ⟨m, r, hm, -, -, -, -, hframe, -⟩ := foldl_storeByte_moved ea ks s
      cases hm ▸ hnext
      exact (hframe a).imp_right fun ⟨k, hk, ha, hbyte⟩ =>
        ⟨sn, ea, k, hsn, hop, usableAddrs_eq_some hea, hk, ha, hbyte⟩
    | _ =>
      simp only [hop] at h
      cases h
      exact .inl rfl

theorem completeStore8_sram {s t : State} (h : completeStore8 s = .next t) (a : Nat) :
    t.sram.read a = s.sram.read a ∨ StoresByte s a (t.sram.read a) := by
  rcases whenInFlight_cases h with rfl | ⟨sn, -, hsn, hop, hk⟩
  · exact .inl rfl
  · obtain ⟨ea, hea, hnext⟩ := withAddrs_next hk
    obtain ⟨-, hframe, -⟩ := read_storedSram ea s
    cases hnext
    exact (hframe a).imp_right fun ⟨k, hk, ha, hbyte⟩ =>
      ⟨sn, ea, k, hsn, hop, usableAddrs_eq_some hea, hk, ha, hbyte⟩

theorem exec_engine_sram {i : Instr} {s t : State} (hturn : s.turn = .engine) (h : exec i s = .next t)
    (a : Nat) : t.sram.read a = s.sram.read a ∨ StoresByte s a (t.sram.read a) := by
  by_cases hstore : i.opcode = .store8
  · rw [← exec_instr_opcode i hturn, hstore] at h
    exact completeStore8_sram ((onTurn_engine hturn).symm.trans h) a
  · cases exec_engine hturn h with
    | idle => exact .inl rfl
    | done _ _ _ r _ _ _ _ hr _ =>
      left
      rw [hr hstore]
      rfl

theorem engineTurn_sram {s t : State} (hturn : s.turn = .engine) (hstep : step s = .next t) (a : Nat) :
    t.sram.read a = s.sram.read a ∨ StoresByte s a (t.sram.read a) := by
  cases step_engine_cases hturn hstep with
  | reset _ | idle _ _ => exact .inl rfl
  | older _ u _ _ _ hm _ => exact moveBytes_sram hm a
  | complete sn u v _ _ _ hm _ hx =>
    have hmoved := moveBytes_sram hm a
    obtain ⟨m, r, rfl⟩ := moveBytes_frame hm
    rcases exec_engine_sram (by exact hturn) hx a with hsame | hstored
    · exact hmoved.imp (fun h => hsame.trans h) fun h => by rwa [endEngineTurn_sram, hsame]
    · exact .inr hstored

/-- A host access changes an SRAM byte only by a write that covers it. -/
theorem Served.sram {s u : State} {c : Cycle} (h : Served s c u) (a : Nat) :
    u.sram.read a = s.sram.read a ∨
      ∃ p, c.portAccess s.params = some p ∧ p.writesByte s.params.memBytes a = true := by
  cases h with
  | none _ | read _ _ _ _ _ | ignored _ _ _ _ _ _ => exact .inl rfl
  | command _ _ t _ _ _ hi => cases hi <;> exact .inl rfl
  | csrWrite off w _ _ _ _ =>
    have hsram : (writeCsr off w s).sram = s.sram := (congrArg State.sram (writeCsr_frame off w s) :)
    exact .inl (congrArg (Memory.read · a) hsram)
  | memWrite addr n d hp hok =>
    by_cases ha : addr ≤ a ∧ a < addr + n
    · exact .inr ⟨_, hp, by simp [PortAccess.writesByte, hok, ha]⟩
    · exact .inl ((Memory.read_writeLE n _ _ _ _).trans (if_neg ha))

/-- Settles O49: the engine's moves and its completion write transfer bytes of a STORE8 alone, the host's access
what it covers. -/
theorem sramChangesOnlyByHostOrStore : Obligations.SramChangesOnlyByHostOrStore := by
  intro s t a hstep hne
  cases hturn : s.turn with
  | engine =>
    obtain ⟨sn, ea, k, hsn, hstored⟩ := (engineTurn_sram hturn hstep a).resolve_left hne
    exact .inr ⟨sn, ea, k, .inl hsn, hstored⟩
  | host =>
    obtain ⟨u, v, hserved, -, hmoved, rfl⟩ := step_host_cases hturn hstep
    rcases moveBytes_sram hmoved a with hsame | ⟨sn, ea, k, hsn, hop, hea, hk, ha, hbyte⟩
    · exact .inl ⟨rfl, (hserved.sram a).resolve_left fun h => hne (hsame.trans h)⟩
    · obtain ⟨m, r, rfl⟩ := moveBytes_frame hmoved
      exact .inr ⟨sn, ea, k, .inr hsn, hop, hea, hk, ha, by rw [← hserved.keeps.lanes]; exact hbyte⟩

/-! No concurrent writer (70_reset_and_hazards.md R124) -/

theorem inBatch_transferAddr {s : State} {sn : Snapshot} {ea : Lanes Nat} (hsn : s.snapshot = some sn)
    (hea : sn.ea = some ea) {k : Nat} (hk : k < 128) : s.inBatch (transferAddr ea k) = true := by
  obtain ⟨i, j, hj, rfl⟩ := transfer_byte_block hk
  simp only [State.inBatch, hsn, hea, List.any_eq_true, transferAddr_block ea i hj, Bool.and_eq_true,
    decide_eq_true_eq]
  exact ⟨i, mem_laneIndices i, by omega, by omega⟩

/-- A byte read early is what the SRAM holds. -/
theorem TransferAgrees.loadBytes {s : State} {sn : Snapshot} {ea : Lanes Nat} (h : TransferAgrees s)
    (hinv : Inv s) (hsn : s.snapshot = some sn) (hea : sn.ea = some ea) (ks : List Nat) :
    TransferAgrees (ks.foldl (loadByte ea) s) := by
  obtain ⟨m, hm, hcells, hrising, -⟩ := foldl_loadByte_moved ea ks s
  rw [hm]
  intro sn' ea' hsn' hea' c hc
  cases hsn.symm.trans hsn'
  cases hea.symm.trans hea'
  have hcell := (hcells c.1).symm.trans (cellAt_of_mem (hrising hinv.movedRising) hc)
  cases hb : cellAt s.window.moved c.1 with
  | some b =>
    simp only [hb, Option.some.injEq] at hcell
    exact (h sn ea hsn hea _ (cellAt_mem hb)).trans hcell
  | none =>
    simp only [hb, Option.ite_none_right_eq_some, Option.some.injEq] at hcell
    exact hcell.2

/-- A byte written early is what the SRAM then holds, and none moved before is written again. -/
theorem TransferAgrees.storeBytes {s : State} {sn : Snapshot} {ea : Lanes Nat} (h : TransferAgrees s)
    (hinv : Inv s) (hsn : s.snapshot = some sn) (hea : sn.ea = some ea) (hd : Disjoint ea) (ks : List Nat) :
    TransferAgrees (ks.foldl (storeByte ea) s) := by
  obtain ⟨m, r, hm, hcells, hrising, hmoved, hbytes, -⟩ := foldl_storeByte_moved ea ks s
  rw [hm]
  intro sn' ea' hsn' hea' c hc
  cases hsn.symm.trans hsn'
  cases hea.symm.trans hea'
  have hrange : c.1 < 128 := (hmoved c hc).elim (hinv.movedRange c) And.left
  have hcell := (hcells c.1).symm.trans (cellAt_of_mem (hrising hinv.movedRising) hc)
  refine (hbytes hd c.1 hrange).trans ?_
  cases hb : cellAt s.window.moved c.1 with
  | some b =>
    simp only [hb, Option.some.injEq] at hcell
    rw [if_neg (by simp), ← hcell]
    exact h sn ea hsn hea _ (cellAt_mem hb)
  | none =>
    simp only [hb, Option.ite_none_right_eq_some, Option.some.injEq] at hcell
    rw [if_pos ⟨hcell.1.1, rfl⟩]
    exact hcell.2

theorem TransferAgrees.moveBytes {s t : State} {ks : List Nat} (h : TransferAgrees s) (hinv : Inv s)
    (ht : moveBytes ks s = .next t) : TransferAgrees t := by
  cases hsn : s.snapshot with
  | none =>
    cases ht.symm.trans (moveBytes_of_none hsn)
    exact h
  | some sn =>
    cases hmoves : sn.op.movesBytes with
    | false =>
      cases ht.symm.trans (moveBytes_of_keyed hsn hmoves)
      exact h
    | true =>
      obtain ⟨ea, hea, hr, hd⟩ := hinv.transferAddrs hsn hmoves
      rcases Opcode.movesBytes_iff.1 hmoves with hop | hop
      · cases ht.symm.trans (moveBytes_of_load hsn hop hea hr)
        exact h.loadBytes hinv hsn hea ks
      · cases ht.symm.trans (moveBytes_of_store hsn hop hea hr)
        exact h.storeBytes hinv hsn hea (hd hop) ks

theorem transferAgrees_of_none {s : State} (h : s.snapshot = none) : TransferAgrees s := by
  intro sn ea hsn
  simp [h] at hsn

/-- With BUSY = 0 the host's access leaves no command in flight, or one that has moved nothing yet. -/
theorem served_idle {s u : State} {c : Cycle} (h : Served s c u) (hsn : s.snapshot = none) :
    u.snapshot = none ∨ u.window.moved = [] := by
  cases h with
  | none _ | read _ _ _ _ _ | ignored _ _ _ _ _ _ | memWrite _ _ _ _ _ => exact .inl hsn
  | command _ _ _ _ _ _ hi =>
    cases hi with
    | discarded _ | rejected _ _ _ _ _ => exact .inl hsn
    | accepted _ _ _ _ _ => exact .inr rfl
  | csrWrite off w _ _ _ _ => exact .inl ((snapshot_writeCsr off w s).trans hsn)

/-- The host's access leaves the bytes moved in agreement if it writes none of the batch. -/
theorem TransferAgrees.served {s u : State} (h : TransferAgrees s) (hinv : Inv s) (hleaves : HostLeavesBatch s)
    (hturn : s.turn = .host) (hserved : Served s s.cycle u) : TransferAgrees u := by
  cases hbusy : s.busy with
  | false =>
    rcases served_idle hserved (by simpa [hinv.busy] using hbusy) with hnone | hmoved
    · exact transferAgrees_of_none hnone
    · intro sn ea _ _ c hc
      simp [hmoved] at hc
  | true =>
    obtain ⟨-, hsnapshot, hwindow⟩ := hserved.keepsFlight hbusy
    intro sn ea hsn hea c hc
    rw [hsnapshot] at hsn
    rw [hwindow] at hc
    rcases hserved.sram (transferAddr ea c.1) with hsame | ⟨p, hp, hwrites⟩
    · exact hsame.trans (h sn ea hsn hea c hc)
    · have hbatch := inBatch_transferAddr hsn hea (hinv.movedRange c hc)
      simp [hleaves hturn p hp _ hbatch] at hwrites

/-- The engine's turn keeps the agreement: it moves bytes, or ends the command. -/
theorem TransferAgrees.engineTurn {s t : State} (h : TransferAgrees s) (hinv : Inv s)
    (hturn : s.turn = .engine) (hstep : step s = .next t) : TransferAgrees t := by
  cases hrst : s.cycle.rst with
  | true =>
    cases hstep.symm.trans (step_engine_rst hturn hrst)
    exact transferAgrees_of_none rfl
  | false =>
    cases hbusy : s.busy with
    | false =>
      have hsn : s.snapshot = none := by simpa [hinv.busy] using hbusy
      cases hstep.symm.trans (step_engine_idle hturn hrst hsn)
      exact h
    | true =>
      obtain ⟨u, hu, -, hnext⟩ := hinv.step_inFlight hturn hbusy hrst
      split at hnext
      · obtain ⟨l, v, r, hstep', -⟩ := hnext
        cases hstep.symm.trans hstep'
        exact transferAgrees_of_none rfl
      · cases hstep.symm.trans hnext.1
        exact (h.moveBytes hinv hu :)

theorem TransferAgrees.hostTurn {s t : State} (h : TransferAgrees s) (hinv : Inv s)
    (hleaves : HostLeavesBatch s) (hturn : s.turn = .host) (hstep : step s = .next t) : TransferAgrees t := by
  obtain ⟨u, v, hserved, -, hmoved, rfl⟩ := step_host_cases hturn hstep
  exact ((h.served hinv hleaves hturn hserved).moveBytes (hinv.served hserved) hmoved :)

/-- A step ends the command in flight or leaves its snapshot. -/
theorem Inv.snapshot_step {s t : State} (h : Inv s) (hbusy : s.busy = true) (hstep : step s = .next t) :
    t.snapshot = none ∨ t.snapshot = s.snapshot := by
  cases hturn : s.turn with
  | host =>
    obtain ⟨-, hsame, -⟩ := step_host_busy hturn hbusy hstep
    exact .inr hsame
  | engine =>
    cases hrst : s.cycle.rst with
    | true =>
      cases hstep.symm.trans (step_engine_rst hturn hrst)
      exact .inl rfl
    | false =>
      obtain ⟨t', hstep', -, hprogress⟩ := h.progress hturn hbusy hrst
      cases hstep.symm.trans hstep'
      cases hprogress with
      | older _ _ _ => exact .inr rfl
      | completed _ _ _ _ => exact .inl rfl

/-- While a LOAD8 is in flight an SRAM byte changes by the host alone. -/
theorem writesByte_of_load_changed {s t : State} {sn : Snapshot} {a : Nat} (hinv : Inv s)
    (hstep : step s = .next t) (hsn : s.snapshot = some sn) (hop : sn.op = .load8)
    (hne : t.sram.read a ≠ s.sram.read a) : s.turn = .host ∧
      ∃ p, s.cycle.portAccess s.params = some p ∧ p.writesByte s.params.memBytes a = true := by
  rcases sramChangesOnlyByHostOrStore s t a hstep hne with hhost | ⟨sn', ea, k, hsn', hstore, -⟩
  · exact hhost
  · have hbusy : s.busy = true := by simp [hinv.busy, hsn]
    have hsame : sn' = sn := by
      rcases hinv.snapshot_step hbusy hstep with hnone | hkept
      · simpa [hnone, hsn, eq_comm] using hsn'
      · simpa [hkept, hsn, eq_comm] using hsn'
    cases hop.symm.trans (hsame ▸ hstore)

/-- Settles O40: what could break the agreement, or change a source byte, is a host write to the batch. -/
theorem noRaceKeepsTheTransferExact : Obligations.NoRaceKeepsTheTransferExact := by
  intro s t hinv hagrees hleaves hstep
  refine ⟨?_, fun sn a hsn hop hbatch => ?_⟩
  · cases hturn : s.turn with
    | engine => exact hagrees.engineTurn hinv hturn hstep
    | host => exact hagrees.hostTurn hinv hleaves hturn hstep
  · by_contra hne
    obtain ⟨hturn, p, hp, hwrites⟩ := writesByte_of_load_changed hinv hstep hsn hop hne
    simp [hleaves hturn p hp a hbatch] at hwrites

/-- Settles O41: a byte moved early is the byte that completion would move. -/
theorem noRaceTransferCompletesExactly : Obligations.NoRaceTransferCompletesExactly := by
  intro s sn ea m hinv hagrees hfly hea
  have hsn : s.snapshot = some sn := hfly.snapshot
  refine ⟨fun hop => ?_, fun hop => ?_⟩
  all_goals
    obtain ⟨ea', hea', hr, hd⟩ := hinv.transferAddrs hsn (Opcode.movesBytes_iff.2 (by simp [hop]))
    cases hea.symm.trans hea'
  · exact ⟨_, exec_load8_inFlight hfly hop hea hr m,
      fun i j hj => byte_loadedLanes_of_agrees hagrees hsn hea i hj⟩
  · refine ⟨_, exec_store8_inFlight hfly hop hea hr m, fun i j hj => ?_⟩
    refine (read_storedSram_block (hd hop) s i hj).trans ?_
    cases hcell : cellAt s.window.moved (16 * i.val + j) with
    | none => rfl
    | some b =>
      have hsram := hagrees sn ea hsn hea _ (cellAt_mem hcell)
      have hlane := hinv.movedLanes sn hsn hop _ (cellAt_mem hcell)
      rw [transferAddr_block ea i hj] at hsram
      rw [laneByte_block _ i hj] at hlane
      exact hsram.trans hlane

end Sys2Proof.Machine
end

section
/-! PROOFS of family other, the host's view: the ports and the windows (O56, O58, O60), reset (O37), the host's
registers (O48, O54) and the SRAM port (O57). -/

namespace Sys2Proof.Machine

open Sys2Proof.Claims

/-! The CSR port (10_state.md R32, R33) -/

theorem csrAccessOk_iff {off : BitVec 8} {size : Nat} :
    csrAccessOk off size = true ↔ size = 4 ∧ off.toNat % 4 = 0 := by
  simp [csrAccessOk]

theorem servePort_csrRead_ok {off : BitVec 8} (h : off.toNat % 4 = 0) (s : State) :
    servePort false (.csrRead off 4) s = .next { s with resp := some ⟨readCsr off s, false⟩ } := by
  rw [servePort, serveCsrRead, if_pos (csrAccessOk_iff.2 ⟨rfl, h⟩)]
  rfl

theorem servePort_csrWrite_ok {off : BitVec 8} (h : off.toNat % 4 = 0) (hcmd : off ≠ CsrName.cmd.offset)
    (w : Word) (s : State) : servePort false (.csrWrite off 4 w) s =
      .next { writeCsr off w s with resp := some ⟨0#32, false⟩ } := by
  have hok : ¬ (!csrAccessOk off 4) = true := by simp [csrAccessOk_iff.2 ⟨rfl, h⟩]
  rw [servePort, serveCsrWrite, if_neg hok, if_neg Bool.false_ne_true, if_neg hcmd]
  rfl

theorem servePort_csr_bad {off : BitVec 8} {size : Nat} (h : size ≠ 4 ∨ off.toNat % 4 ≠ 0) (s : State)
    (w : Word) : servePort false (.csrRead off size) s = .next { s with resp := some ⟨0#32, true⟩ } ∧
      servePort false (.csrWrite off size w) s = .next { s with resp := some ⟨0#32, true⟩ } := by
  have hbad : ¬ csrAccessOk off size = true := by
    rw [csrAccessOk_iff]
    omega
  refine ⟨?_, ?_⟩
  · rw [servePort, serveCsrRead, if_neg hbad]
    rfl
  · rw [servePort, serveCsrWrite, if_pos (by simpa using hbad)]
    rfl

/-- Above ERRADDR's offset no register has its place (10_state.md R18, R32). -/
theorem ofOffset_reserved {off : BitVec 8} (h : 0x44 ≤ off.toNat) : CsrName.ofOffset off = none := by
  cases hr : CsrName.ofOffset off with
  | none => rfl
  | some r =>
    have hplace : r.offset.toNat < 0x44 := by
      cases r with
      | key w => have := w.isLt; simp only [CsrName.offset, BitVec.toNat_ofNat]; omega
      | addr i => have := i.isLt; simp only [CsrName.offset, BitVec.toNat_ofNat]; omega
      | _ => decide
    rw [CsrName.offset_of_ofOffset hr] at hplace
    omega

/-- Settles O56: these registers ignore a write, and from 0x44 on there is none. -/
theorem readOnlyAndReservedOffsetsIgnoreWrites : Obligations.ReadOnlyAndReservedOffsetsIgnoreWrites := by
  intro s w off hoff
  have hread := servePort_csrRead_ok hoff s
  have hreserved (h : 0x44 ≤ off.toNat) : readCsr off s = 0#32 ∧ writeCsr off w s = s := by
    simp [readCsr, writeCsr, ofOffset_reserved h]
  refine ⟨?_, ?_, ?_, fun h => ?_, fun h => ⟨0#32, ?_⟩⟩
  · rintro rfl
    exact hread
  · rintro rfl
    exact hread
  · rintro rfl
    exact hread
  · rw [hread, (hreserved h).1]
  · have hcmd : off ≠ CsrName.cmd.offset := by
      rintro rfl
      revert h
      decide
    have hignored : writeCsr off w s = s := by
      rcases h with rfl | rfl | h
      · rfl
      · rfl
      · exact (hreserved h).2
    rw [servePort_csrWrite_ok hoff hcmd, hignored]

/-! Reset (70_reset_and_hazards.md R118) -/

/-- With no command in flight an access that only answers ends the host's turn with its answer. -/
theorem step_host_answer {s : State} {a : PortAccess} {r : Option Response} (hturn : s.turn = .host)
    (haccess : s.cycle.portAccess s.params = some a) (hsn : s.snapshot = none)
    (hserve : servePort s.cycle.rst a s = .next { s with resp := r }) :
    step s = .next (endCycle { s with resp := r }) := by
  rw [step_host_some hturn haccess, hserve, andThen_next, endHostTurn,
    moveBytes_of_none (s := { s with resp := r }) hsn, andThen_next]

theorem servePort_csrRead_rst (off : BitVec 8) (size : Nat) (s : State) :
    ∃ e, servePort true (.csrRead off size) s = .next { s with resp := some ⟨0#32, e⟩ } := by
  simp only [servePort, serveCsrRead]
  split
  · exact ⟨false, rfl⟩
  · exact ⟨true, rfl⟩

theorem servePort_csrWrite_rst (off : BitVec 8) (size : Nat) (w : Word) (s : State) :
    ∃ e, servePort true (.csrWrite off size w) s = .next { s with resp := some ⟨0#32, e⟩ } := by
  simp only [servePort, serveCsrWrite]
  split
  · exact ⟨true, rfl⟩
  · exact ⟨false, rfl⟩

/-- Settles O37: in reset both CSR accesses only answer, whichever way the bus error flag goes. -/
theorem csrAccessesDoNothingInReset : Obligations.CsrAccessesDoNothingInReset := by
  intro s off size w hturn hrst hsn
  refine ⟨fun haccess => ?_, fun haccess => ?_⟩
  · obtain ⟨e, hserve⟩ := servePort_csrRead_rst off size s
    exact ⟨e, step_host_answer hturn haccess hsn (by rw [hrst, hserve])⟩
  · obtain ⟨e, hserve⟩ := servePort_csrWrite_rst off size w s
    exact ⟨0#32, e, step_host_answer hturn haccess hsn (by rw [hrst, hserve])⟩

/-! The registers of the host (10_state.md R15, R17, R20) -/

theorem ofOffset_addr (i : Fin 8) : CsrName.ofOffset (BitVec.ofNat 8 (0x20 + 4 * i.val)) = some (.addr i) := by
  revert i
  decide

theorem ofOffset_key (i : Fin 4) : CsrName.ofOffset (BitVec.ofNat 8 (0x10 + 4 * i.val)) = some (.key i) := by
  revert i
  decide

theorem word_setWord (k : KeyRegs) (i j : Fin 4) (w : Word) :
    (k.setWord i.val w).word j.val = if j = i then w else k.word j.val := by
  fin_cases i <;> fin_cases j <;> rfl

/-- CTRL keeps the two bits that it has. -/
theorem ctrlWord_writeCtrl (w : Word) (s : State) : (writeCtrl w s).ctrlWord = w &&& 3#32 := by
  have hthree : ∀ k, k < 32 → (3#32).getLsbD k = (decide (k = 0) || decide (k = 1)) := by decide
  apply BitVec.eq_of_getLsbD_eq
  intro k hk
  rw [BitVec.getLsbD_and, hthree k hk, State.ctrlWord, writeCtrl_doneIE, writeCtrl_errIE, bitWord, bitWord]
  match k with
  | 0 | 1 => simp
  | k + 2 => simp

/-- Settles O54: a register's offset names it, and what is written to it is what it then reads. -/
theorem hostRegistersReadBack : Obligations.HostRegistersReadBack := by
  intro s w
  refine ⟨fun off hoff => ⟨servePort_csrRead_ok hoff s, fun hcmd => ⟨0#32, servePort_csrWrite_ok hoff hcmd w s⟩⟩,
    fun i => ⟨s.addr.set i w, ?_, fun j => ?_⟩, fun i => ⟨s.key.setWord i.val w, ?_, fun j => ?_⟩,
    w.getLsbD 0, w.getLsbD 1, rfl, ctrlWord_writeCtrl w s⟩
  · rw [writeCsr, ofOffset_addr]
    rfl
  · rw [readCsr, ofOffset_addr]
    exact Lanes.get_set _ _ _ _
  · rw [writeCsr, ofOffset_key]
    rfl
  · rw [readCsr, ofOffset_key]
    exact word_setWord _ _ _ _

/-- Which host registers a CSR write leaves. -/
theorem writeCsr_other (off : BitVec 8) (w : Word) (s : State) :
    (∀ i : Fin 8, off ≠ CsrName.offset (.addr i) → (writeCsr off w s).addr.get i = s.addr.get i) ∧
    (∀ i : Fin 4, off ≠ CsrName.offset (.key i) → (writeCsr off w s).key.word i.val = s.key.word i.val) ∧
    (off ≠ CsrName.ctrl.offset → (writeCsr off w s).doneIE = s.doneIE ∧ (writeCsr off w s).errIE = s.errIE) := by
  unfold writeCsr
  cases hr : CsrName.ofOffset off with
  | none => exact ⟨fun _ _ => rfl, fun _ _ => rfl, fun _ => ⟨rfl, rfl⟩⟩
  | some r =>
    cases CsrName.offset_of_ofOffset hr
    cases r with
    | addr j =>
      refine ⟨fun i hi => ?_, fun _ _ => rfl, fun _ => ⟨rfl, rfl⟩⟩
      refine (Lanes.get_set _ _ _ _).trans (if_neg ?_)
      rintro rfl
      exact hi rfl
    | key j =>
      refine ⟨fun _ _ => rfl, fun i hi => ?_, fun _ => ⟨rfl, rfl⟩⟩
      refine (word_setWord _ _ _ _).trans (if_neg ?_)
      rintro rfl
      exact hi rfl
    | ctrl => exact ⟨fun _ _ => rfl, fun _ _ => rfl, fun h => absurd rfl h⟩
    | status => simp only [writeReg, writeStatus_eq, implies_true, and_self]
    | id | cmd | errAddr => exact ⟨fun _ _ => rfl, fun _ _ => rfl, fun _ => ⟨rfl, rfl⟩⟩

/-- The engine's turn without reset leaves the registers of the host. -/
theorem engineTurn_hostRegisters {s t : State} (hturn : s.turn = .engine) (hrst : s.cycle.rst = false)
    (hstep : step s = .next t) :
    t.key = s.key ∧ t.addr = s.addr ∧ t.doneIE = s.doneIE ∧ t.errIE = s.errIE := by
  cases step_engine_cases hturn hstep with
  | reset h => simp [hrst] at h
  | idle _ _ => exact ⟨rfl, rfl, rfl, rfl⟩
  | older _ u _ _ _ hm _ =>
    obtain ⟨m, r, rfl⟩ := moveBytes_frame hm
    exact ⟨rfl, rfl, rfl, rfl⟩
  | complete _ u v _ _ _ hm _ hx =>
    obtain ⟨m, r, rfl⟩ := moveBytes_frame hm
    cases exec_engine (by exact hturn) hx <;> exact ⟨rfl, rfl, rfl, rfl⟩

/-- The host's access leaves each of the host's registers unless it is a write of that register. -/
theorem Served.hostRegisters {s u : State} {c : Cycle} (h : Served s c u) :
    (∀ i : Fin 8, (∀ w, c.portAccess s.params ≠ some (.csrWrite (CsrName.offset (.addr i)) 4 w)) →
      u.addr.get i = s.addr.get i) ∧
    (∀ i : Fin 4, (∀ w, c.portAccess s.params ≠ some (.csrWrite (CsrName.offset (.key i)) 4 w)) →
      u.key.word i.val = s.key.word i.val) ∧
    ((∀ w, c.portAccess s.params ≠ some (.csrWrite CsrName.ctrl.offset 4 w)) →
      u.doneIE = s.doneIE ∧ u.errIE = s.errIE) := by
  cases h with
  | none _ | read _ _ _ _ _ | ignored _ _ _ _ _ _ | memWrite _ _ _ _ _ =>
    exact ⟨fun _ _ => rfl, fun _ _ => rfl, fun _ => ⟨rfl, rfl⟩⟩
  | command _ _ _ _ _ _ hi => cases hi <;> exact ⟨fun _ _ => rfl, fun _ _ => rfl, fun _ => ⟨rfl, rfl⟩⟩
  | csrWrite off w hp _ _ _ =>
    obtain ⟨haddr, hkey, hctrl⟩ := writeCsr_other off w s
    have hother {o : BitVec 8} (hno : ∀ w, c.portAccess s.params ≠ some (.csrWrite o 4 w)) : off ≠ o := by
      rintro rfl
      exact hno w hp
    exact ⟨fun i hno => haddr i (hother hno), fun i hno => hkey i (hother hno), fun hno => hctrl (hother hno)⟩

/-- Settles O48: a CSR write reaches the register at its offset, and no other event touches one. -/
theorem hostRegistersChangeOnlyByTheirWrites : Obligations.HostRegistersChangeOnlyByTheirWrites := by
  intro s t hrst hstep
  refine ⟨fun hturn => engineTurn_hostRegisters hturn hrst hstep, fun hturn => ?_⟩
  obtain ⟨u, v, hserved, -, hmoved, rfl⟩ := step_host_cases hturn hstep
  obtain ⟨m, r, rfl⟩ := moveBytes_frame hmoved
  exact hserved.hostRegisters

/-! The SRAM port (20_memory.md R45, R47) -/

theorem memAccessOk_iff {memBytes a n : Nat} : memAccessOk memBytes a n = true ↔
    (n = 1 ∨ n = 2 ∨ n = 4) ∧ a % n = 0 ∧ a + n ≤ memBytes := by
  simp [memAccessOk, or_assoc, and_assoc]

theorem servePort_mem_bad {s : State} {a n : Nat} (h : ¬ memAccessOk s.params.memBytes a n = true) (w : Word) :
    servePort false (.memRead a n) s = .next { s with resp := some ⟨0#32, true⟩ } ∧
      servePort false (.memWrite a n w) s = .next { s with resp := some ⟨0#32, true⟩ } := by
  rw [servePort, servePort, serveMemRead, serveMemWrite, if_neg h, if_neg h]
  exact ⟨rfl, rfl⟩

/-- Settles O58: the ports check size, alignment and range before anything else. -/
theorem badHostAccessIsABusError : Obligations.BadHostAccessIsABusError := by
  intro s w
  refine ⟨fun off size h => ?_, fun a n h => ?_⟩
  · obtain ⟨hread, hwrite⟩ := servePort_csr_bad h s w
    exact ⟨hread, 0#32, hwrite⟩
  · have hbad : ¬ memAccessOk s.params.memBytes a n = true := by
      rw [memAccessOk_iff]
      omega
    obtain ⟨hread, hwrite⟩ := servePort_mem_bad hbad w
    exact ⟨hread, 0#32, hwrite⟩

/-- Digit `k` of what the port reads, in base 256, is SRAM byte `a + k`. -/
theorem readLE_div_mod (m : Memory) (n : Nat) : ∀ a k : Nat,
    m.readLE a n / 2 ^ (8 * k) % 2 ^ 8 = if k < n then (m.read (a + k)).toNat else 0 := by
  induction n with
  | zero => simp [Memory.readLE]
  | succ n ih =>
    intro a k
    have hbyte := (m.read a).isLt
    cases k with
    | zero =>
      simp only [Memory.readLE, Nat.mul_zero, pow_zero, Nat.div_one, Nat.add_zero, Nat.succ_pos, if_true]
      omega
    | succ k =>
      have hpow : 2 ^ (8 * (k + 1)) = 256 * 2 ^ (8 * k) := by
        rw [Nat.mul_succ, pow_add, Nat.mul_comm]
        norm_num
      have hdigits : ((m.read a).toNat + 256 * m.readLE (a + 1) n) / 256 = m.readLE (a + 1) n := by omega
      rw [Memory.readLE, hpow, ← Nat.div_div_eq_div_mul, hdigits, ih, Nat.add_right_comm, Nat.add_assoc a]
      simp

theorem extractLsb'_ofNat_readLE (m : Memory) (a n : Nat) {k : Nat} (hk : k < 4) :
    (BitVec.ofNat 32 (m.readLE a n)).extractLsb' (8 * k) 8 = if k < n then m.read (a + k) else 0#8 := by
  apply BitVec.eq_of_toNat_eq
  have hdigit := readLE_div_mod m n a k
  have hsplit : m.readLE a n % 2 ^ 32 / 2 ^ (8 * k) % 2 ^ 8 = m.readLE a n / 2 ^ (8 * k) % 2 ^ 8 := by
    interval_cases k <;> omega
  rw [BitVec.extractLsb'_toNat, BitVec.toNat_ofNat, Nat.shiftRight_eq_div_pow, hsplit, hdigit]
  split <;> rfl

theorem ofNat_div_eq_extractLsb' (d : Word) (k : Nat) :
    BitVec.ofNat 8 (d.toNat / 2 ^ (8 * k)) = d.extractLsb' (8 * k) 8 := by
  apply BitVec.eq_of_toNat_eq
  rw [BitVec.extractLsb'_toNat, BitVec.toNat_ofNat, Nat.shiftRight_eq_div_pow]

/-- Settles O57: the port's number has the bytes as its digits in base 256, lowest address first. -/
theorem hostMemoryIsLittleEndian : Obligations.HostMemoryIsLittleEndian := by
  intro s a n d hn halign hrange
  have hok : memAccessOk s.params.memBytes a n = true := memAccessOk_iff.2 ⟨hn, halign, hrange⟩
  refine ⟨⟨BitVec.ofNat 32 (s.sram.readLE a n), ?_, fun k hk => extractLsb'_ofNat_readLE _ a n hk⟩,
    s.sram.writeLE a n d.toNat, 0#32, ?_, fun b => ?_⟩
  · rw [servePort, serveMemRead, if_pos hok]
    rfl
  · rw [servePort, serveMemWrite, if_pos hok]
    rfl
  · rw [Memory.read_writeLE, ofNat_div_eq_extractLsb']

/-! The windows of the host's map (20_memory.md R40) -/

theorem busTarget_csr (p : Params) (off : BitVec 8) : busTarget p (p.csrBase + off.toNat) = .csr off := by
  have hoff := off.isLt
  rw [busTarget, if_pos ⟨by omega, by omega⟩, Nat.add_sub_cancel_left, BitVec.ofNat_toNat, BitVec.setWidth_eq]

theorem busTarget_sram {p : Params} {a : Nat} (ha : a < p.memBytes)
    (hcsr : p.sramBase + a < p.csrBase ∨ p.csrBase + 256 ≤ p.sramBase + a) :
    busTarget p (p.sramBase + a) = .sram a := by
  rw [busTarget, if_neg (by omega), if_pos ⟨by omega, by omega⟩, Nat.add_sub_cancel_left]

/-- Settles O60: each window is found from its base. -/
theorem hostWindowsLeadToThePorts : Obligations.HostWindowsLeadToThePorts := by
  intro p size d
  refine ⟨fun off => ?_, fun a ha hcsr => ?_⟩
  · simp only [HostAccess.onPort, busTarget_csr, and_self]
  · simp only [HostAccess.onPort, busTarget_sram ha hcsr, and_self]

end Sys2Proof.Machine
end
